-- ==== Sys2Proof/Word.lean ====
section
/-! DEFINITION. The word types of the descriptors, of operand memory and of the schedule entries. -/

namespace Sys2Proof

/-- A descriptor word, and a control register (rules R23, R60). -/
abbrev Word := BitVec 32

/-- A byte of operand memory (rule R28). -/
abbrev Byte := BitVec 8

/-- A schedule entry: one 64-bit word (rule R155). -/
abbrev EntryWord := BitVec 64

end Sys2Proof
end

