-- ==== Sys2Proof/Config.lean ====
section
/-! DEFINITION. The immutable configuration of an instance (rules R9 to R15 and the list of open
parameters of `92_eei_decisions.md`), the named instances of rule R16, and the free values:
opaque constants that stand for what the spec leaves unspecified. -/

namespace Sys2Proof

/-- Rule R115 gives a model two choices: a Jacobian result is any element of its class, or the triple
of the reference formulas of rule R116, "the Jacobian formula set" of the open parameters. -/
inductive JacobianForms where
  /-- Any element of the class: a free value (`93_implementation_defined.md` U1). -/
  | anyRepresentative
  /-- The triple the formulas of rule R116 produce, to the letter (log entry 22). -/
  | reference
deriving DecidableEq, Repr

/-- The open parameters of an instance (rules R10 to R15).  What is a function of these (`R`, `R1`,
`MINV`, `S`, `T`, ...) is computed in `Machine/Params.lean`. -/
structure Config where
  /-- `M`, "fixed odd prime" (R10). -/
  modulus : Nat
  /-- `B`, 32 or 64, not observable (R11). -/
  limbBits : Nat
  /-- `NR`, the value of a quadratic nonresidue (R10). -/
  nonresidue : Nat
  /-- `b`, the value of the curve coefficient (R12). -/
  curveB : Nat
  /-- `r`, the order of the group the scalars act on (R12). -/
  groupOrder : Nat
  /-- `scalarBytes` (R12). -/
  scalarBytes : Nat
  /-- `glvEnabled` (R13). -/
  glvEnabled : Bool
  /-- `λ` (R13). -/
  lambda : Int
  /-- `β`, held in Montgomery form (R13). -/
  beta : Nat
  /-- The lattice basis vector `v = (v1, v2)` (R13). -/
  v1 : Int
  v2 : Int
  /-- The lattice basis vector `u = (u1, u2)` (R13). -/
  u1 : Int
  u2 : Int
  /-- `GLV_BITS` (R13). -/
  glvBits : Nat
  /-- `windowTable`, entry `l` the window width for `floor(log2 n) = l` (R14). -/
  windowTable : List Nat
  /-- `signedDigits` (R14). -/
  signedDigits : Bool
  /-- `CONCURRENCY` (R15). -/
  concurrency : Nat
  /-- `MIN_CHUNK` (R15). -/
  minChunk : Nat
  /-- `MAX_CHUNK` (R15). -/
  maxChunk : Nat
  /-- `ARENA_SIZE` (R15). -/
  arenaSize : Nat
  /-- `arenaDemand` (R31) as plain data: what the demand at `(n, c, rounds)` has beyond the bound
  `8·rounds·n` of rule R31; a triple that is not listed has nothing beyond it. -/
  arenaExtra : List ((Nat × Nat × Nat) × Nat)
  /-- `MEM_SIZE` (R15). -/
  memSize : Nat
  /-- Which Jacobian triple a group command writes (R115). -/
  jacobian : JacobianForms
deriving DecidableEq, Repr

/-- `NUM_GROUPS`, which is 1 (R12, R61). -/
def numGroups : Nat := 1

/-- Free value: the `i`-th number of draw `n`, from which the unspecified triples of rules R115 and R127
and the unspecified arena bytes of rule R33 are made. -/
opaque Config.freeNat : Nat → Nat → Nat

/-- Free value: the byte at an address that two outputs of one command share, at draw `n` (rule R47,
`93_implementation_defined.md` U7). -/
opaque Config.freeByte : Nat → Nat → Byte

/-- Free value, a function of the operands `x1`, `y1`, `y2`: what inverting the zero denominator of
`addAffine` gives.  Only a doubling off the curve (`x1 = x2`, `y1 = 0`, `y2 ≠ 0`) asks for it
(rule R113). -/
opaque Config.freeInverse : Nat → Nat → Nat → Nat

/-- The instance `TOY13` (rule R16), with the GLV parameters of `42_glv.md` and the dispatch parameters of
program P3 in `95_test_vectors.md`. -/
def Config.toy13 : Config where
  modulus := 13
  limbBits := 32
  nonresidue := 2
  curveB := 2
  groupOrder := 19
  scalarBytes := 8
  glvEnabled := true
  lambda := 11
  beta := 9
  v1 := 3
  v2 := -2
  u1 := 2
  u2 := 5
  glvBits := 2
  windowTable := List.replicate 34 2
  signedDigits := false
  concurrency := 2
  minChunk := 1
  maxChunk := 4
  arenaSize := 2 ^ 20
  arenaExtra := []
  memSize := 2 ^ 32
  jacobian := .anyRepresentative

/-- The instance `BN254FR` (rule R16), its `NR` that of `95_test_vectors.md` section 2.1.  The spec gives it a
field and nothing else, so every other parameter is that of `rest`. -/
def Config.bn254fr (rest : Config) : Config :=
  { rest with
    modulus := 21888242871839275222246405745257275088548364400416034343698204186575808495617
    nonresidue := 5 }

end Sys2Proof
end

