-- ==== Sys2Proof/Syntax.lean ====
section
/-! DEFINITION. The commands, one constructor per row of `spec/opcode_table.json`, and the fault
causes of rule R211. -/

namespace Sys2Proof

/-- A command: its group selector (rule R61) and the operand words it uses, in the order `a0, a1, ...`
(rules R62, R63). -/
inductive Instr where
  /-- `FADD`, opcode 0x10 (rule R82). -/
  | fadd (grp : Byte) (dst x y : Word)
  /-- `FSUB`, opcode 0x11 (rule R83). -/
  | fsub (grp : Byte) (dst x y : Word)
  /-- `FNEG`, opcode 0x12 (rule R84). -/
  | fneg (grp : Byte) (dst x : Word)
  /-- `FMUL`, opcode 0x13 (rule R85). -/
  | fmul (grp : Byte) (dst x y : Word)
  /-- `FSQR`, opcode 0x14 (rule R87). -/
  | fsqr (grp : Byte) (dst x : Word)
  /-- `FTOM`, opcode 0x15 (rule R88). -/
  | ftom (grp : Byte) (dst x : Word)
  /-- `FFROMM`, opcode 0x16 (rule R89). -/
  | ffromm (grp : Byte) (dst x : Word)
  /-- `FINV`, opcode 0x17 (rule R90). -/
  | finv (grp : Byte) (dst x : Word)
  /-- `FISSQ`, opcode 0x18 (rule R91). -/
  | fissq (grp : Byte) (x : Word)
  /-- `FSQRT`, opcode 0x19 (rule R92). -/
  | fsqrt (grp : Byte) (dst x : Word)
  /-- `FBINV`, opcode 0x1A (rule R94). -/
  | fbinv (grp : Byte) (dst src n : Word)
  /-- `PADDA`, opcode 0x20 (rule R114). -/
  | padda (grp : Byte) (dst p q : Word)
  /-- `PADD`, opcode 0x21 (rule R117). -/
  | padd (grp : Byte) (dst p q : Word)
  /-- `PDBL`, opcode 0x22 (rule R118). -/
  | pdbl (grp : Byte) (dst p : Word)
  /-- `PNEG`, opcode 0x23 (rule R119). -/
  | pneg (grp : Byte) (dst p : Word)
  /-- `PNEGA`, opcode 0x24 (rule R120). -/
  | pnega (grp : Byte) (dst p : Word)
  /-- `PMUL`, opcode 0x25 (rule R121). -/
  | pmul (grp : Byte) (dst p k : Word)
  /-- `PTOAFF`, opcode 0x26 (rule R122). -/
  | ptoaff (grp : Byte) (dst p : Word)
  /-- `PEQ`, opcode 0x27 (rule R123). -/
  | peq (grp : Byte) (p q : Word)
  /-- `PISZ`, opcode 0x28 (rule R124). -/
  | pisz (grp : Byte) (p : Word)
  /-- `PBADD`, opcode 0x29 (rule R125). -/
  | pbadd (grp : Byte) (dst ps qs n : Word)
  /-- `PBTOAFF`, opcode 0x2A (rule R126). -/
  | pbtoaff (grp : Byte) (dst src n : Word)
  /-- `GLVSPLIT`, opcode 0x30 (rule R143). -/
  | glvsplit (grp : Byte) (dst k : Word)
  /-- `GLVEXP`, opcode 0x31 (rule R145). -/
  | glvexp (grp : Byte) (dstP dstK ps ks n : Word)
  /-- `SCHED`, opcode 0x40 (rule R159). -/
  | sched (grp : Byte) (dstE dstC ks n c bits : Word)
  /-- `BSORT`, opcode 0x41 (rule R161). -/
  | bsort (grp : Byte) (dstS dstO es n c : Word)
  /-- `CHAIN`, opcode 0x42 (rule R177). -/
  | chain (grp : Byte) (dstB ss os ps n c : Word)
  /-- `BRED`, opcode 0x43 (rule R179). -/
  | bred (grp : Byte) (dst bs c : Word)
  /-- `RFOLD`, opcode 0x44 (rule R181). -/
  | rfold (grp : Byte) (dst rs m c : Word)
  /-- `MEXP`, opcode 0x50 (rule R190). -/
  | mexp (grp : Byte) (dst ps psLen ks ksLen n : Word)
  /-- `MEXPN`, opcode 0x51 (rule R197). -/
  | mexpn (grp : Byte) (dst ps psLen ks ksLen n : Word)
deriving DecidableEq, Repr

/-- The three kinds of fault (rule R210). -/
inductive FaultKind where
  | configurationError
  | domainError
  | resourceError
deriving DecidableEq, Repr

/-- The fault causes (rule R211). -/
inductive Cause where
  /-- An unlisted opcode, or a GLV opcode with `glvEnabled` false. -/
  | illegalOpcode
  /-- A reserved bit of `W0`, or an operand word the command does not use, is not 0. -/
  | reservedNonzero
  /-- `grp ≥ NUM_GROUPS`. -/
  | unknownGroup
  /-- `MEXP`, `MEXPN`: a buffer does not hold `n` elements. -/
  | countMismatch
  /-- `MEXP`, `MEXPN`: a buffer length is not a multiple of the element size. -/
  | lengthNotMultiple
  /-- An address operand is not a multiple of its alignment. -/
  | misaligned
  /-- An operand's object or array does not fit below `MEM_SIZE`. -/
  | outOfRange
  /-- `c` outside `1..31`, or `bits` outside `1..8·scalarBytes`. -/
  | badParam
  /-- A malformed schedule entry or offset table. -/
  | badEntry
  /-- A split magnitude is `≥ 2^GLV_BITS`. -/
  | glvBasis
  /-- `FINV` of zero. -/
  | inverseOfZero
  /-- `FSQRT` of a non-zero element that is not a square. -/
  | sqrtOfNonresidue
  /-- A field element read from operand memory is `≥ M`. -/
  | nonCanonical
  /-- `SCHED`: a scalar is `≥ 2^bits`. -/
  | scalarRange
  /-- `MEXP`: a chunk task's arena demand exceeds `ARENA_SIZE`. -/
  | arenaExhausted
deriving DecidableEq, Repr

end Sys2Proof
end

