-- ==== Sys2Proof/WellFormed.lean ====
section
/-! DEFINITION. When a command is well formed for an instance: the static checks of rule R69 that look
only at the descriptor's group and small parameters. -/

namespace Sys2Proof

/-- The window width's range (rules R14, R68). -/
def widthOk (c : Word) : Bool := decide (1 ≤ c.toNat) && decide (c.toNat ≤ 31)

/-- The range of `SCHED`'s scalar bit count (rule R68). -/
def bitsOk (cfg : Config) (bits : Word) : Bool :=
  decide (1 ≤ bits.toNat) && decide (bits.toNat ≤ 8 * cfg.scalarBytes)

/-- The group selector's range (rule R61). -/
def groupOk (grp : Byte) : Bool := decide (grp.toNat < numGroups)

/-- The group selector of a command. -/
def Instr.grp : Instr → Byte
  | .fadd grp _ _ _ => grp
  | .fsub grp _ _ _ => grp
  | .fneg grp _ _ => grp
  | .fmul grp _ _ _ => grp
  | .fsqr grp _ _ => grp
  | .ftom grp _ _ => grp
  | .ffromm grp _ _ => grp
  | .finv grp _ _ => grp
  | .fissq grp _ => grp
  | .fsqrt grp _ _ => grp
  | .fbinv grp _ _ _ => grp
  | .padda grp _ _ _ => grp
  | .padd grp _ _ _ => grp
  | .pdbl grp _ _ => grp
  | .pneg grp _ _ => grp
  | .pnega grp _ _ => grp
  | .pmul grp _ _ _ => grp
  | .ptoaff grp _ _ => grp
  | .peq grp _ _ => grp
  | .pisz grp _ => grp
  | .pbadd grp _ _ _ _ => grp
  | .pbtoaff grp _ _ _ => grp
  | .glvsplit grp _ _ => grp
  | .glvexp grp _ _ _ _ _ => grp
  | .sched grp _ _ _ _ _ _ => grp
  | .bsort grp _ _ _ _ _ => grp
  | .chain grp _ _ _ _ _ _ => grp
  | .bred grp _ _ _ => grp
  | .rfold grp _ _ _ _ => grp
  | .mexp grp _ _ _ _ _ _ => grp
  | .mexpn grp _ _ _ _ _ _ => grp

/-- Is the command one of the optional GLV commands (rule R64)? -/
def Instr.isGlv : Instr → Bool
  | .fadd _ _ _ _ => false
  | .fsub _ _ _ _ => false
  | .fneg _ _ _ => false
  | .fmul _ _ _ _ => false
  | .fsqr _ _ _ => false
  | .ftom _ _ _ => false
  | .ffromm _ _ _ => false
  | .finv _ _ _ => false
  | .fissq _ _ => false
  | .fsqrt _ _ _ => false
  | .fbinv _ _ _ _ => false
  | .padda _ _ _ _ => false
  | .padd _ _ _ _ => false
  | .pdbl _ _ _ => false
  | .pneg _ _ _ => false
  | .pnega _ _ _ => false
  | .pmul _ _ _ _ => false
  | .ptoaff _ _ _ => false
  | .peq _ _ _ => false
  | .pisz _ _ => false
  | .pbadd _ _ _ _ _ => false
  | .pbtoaff _ _ _ _ => false
  | .glvsplit _ _ _ => true
  | .glvexp _ _ _ _ _ _ => true
  | .sched _ _ _ _ _ _ _ => false
  | .bsort _ _ _ _ _ _ => false
  | .chain _ _ _ _ _ _ _ => false
  | .bred _ _ _ _ => false
  | .rfold _ _ _ _ _ => false
  | .mexp _ _ _ _ _ _ _ => false
  | .mexpn _ _ _ _ _ _ _ => false

/-- Are the small parameters of the command in the ranges of rule R68? -/
def Instr.paramsOk (cfg : Config) : Instr → Bool
  | .fadd _ _ _ _ => true
  | .fsub _ _ _ _ => true
  | .fneg _ _ _ => true
  | .fmul _ _ _ _ => true
  | .fsqr _ _ _ => true
  | .ftom _ _ _ => true
  | .ffromm _ _ _ => true
  | .finv _ _ _ => true
  | .fissq _ _ => true
  | .fsqrt _ _ _ => true
  | .fbinv _ _ _ _ => true
  | .padda _ _ _ _ => true
  | .padd _ _ _ _ => true
  | .pdbl _ _ _ => true
  | .pneg _ _ _ => true
  | .pnega _ _ _ => true
  | .pmul _ _ _ _ => true
  | .ptoaff _ _ _ => true
  | .peq _ _ _ => true
  | .pisz _ _ => true
  | .pbadd _ _ _ _ _ => true
  | .pbtoaff _ _ _ _ => true
  | .glvsplit _ _ _ => true
  | .glvexp _ _ _ _ _ _ => true
  | .sched _ _ _ _ _ c bits => widthOk c && bitsOk cfg bits
  | .bsort _ _ _ _ _ c => widthOk c
  | .chain _ _ _ _ _ _ c => widthOk c
  | .bred _ _ _ c => widthOk c
  | .rfold _ _ _ _ c => widthOk c
  | .mexp _ _ _ _ _ _ _ => true
  | .mexpn _ _ _ _ _ _ _ => true

/-- A command that no decode check of rule R69 turns away before the address checks. -/
def Instr.wellFormed (cfg : Config) (i : Instr) : Bool :=
  groupOk i.grp && (cfg.glvEnabled || !i.isGlv) && i.paramsOk cfg

end Sys2Proof
end

