-- ==== Sys2Proof/Decode.lean ====
section
/-! DEFINITION. Descriptors, their decoding and their encoding (`30_encoding.md`, rules R60 to R69), and
the little-endian byte order of rule R40. -/

namespace Sys2Proof

/-- `LE_n(v)`: the `n`-byte little-endian byte string of `v` (rule R17). -/
def leBytes : Nat → Nat → List Byte
  | 0, _ => []
  | n + 1, v => BitVec.ofNat 8 v :: leBytes n (v / 256)

/-- `le(bs)`: the integer a byte string stands for (rule R17). -/
def leValue : List Byte → Nat
  | [] => 0
  | b :: bs => b.toNat + 256 * leValue bs

/-- A descriptor: seven 32-bit words (rule R60). -/
structure Descriptor where
  w0 : Word
  a0 : Word
  a1 : Word
  a2 : Word
  a3 : Word
  a4 : Word
  a5 : Word
deriving DecidableEq, Repr

/-- `W0[7:0]` (rule R61). -/
def opcodeField (d : Descriptor) : Byte := d.w0.extractLsb' 0 8

/-- `W0[15:8]` (rule R61). -/
def groupField (d : Descriptor) : Byte := d.w0.extractLsb' 8 8

/-- `W0[31:16]`, which must be 0 (rule R61). -/
def reservedField (d : Descriptor) : BitVec 16 := d.w0.extractLsb' 16 16

/-- The seven words of a number whose bit 0 is the least significant bit of `W0`. -/
def descriptorOfNat (v : Nat) : Descriptor :=
  ⟨.ofNat 32 v, .ofNat 32 (v / 2 ^ 32), .ofNat 32 (v / 2 ^ 64), .ofNat 32 (v / 2 ^ 96),
    .ofNat 32 (v / 2 ^ 128), .ofNat 32 (v / 2 ^ 160), .ofNat 32 (v / 2 ^ 192)⟩

/-- A descriptor written down as bytes: `W0` first, each word little-endian (rule R60). -/
def descriptorBytes (d : Descriptor) : List Byte :=
  [d.w0, d.a0, d.a1, d.a2, d.a3, d.a4, d.a5].flatMap fun w => leBytes 4 w.toNat

/-- The descriptor that 28 bytes spell; no other number of bytes is one (rule R60). -/
def descriptorOfBytes (bs : List Byte) : Option Descriptor :=
  if bs.length = 28 then some (descriptorOfNat (leValue bs)) else none

/-- The checks of rule R64 on the reserved half-word and the operand words a command leaves unused. -/
def reservedCheck (d : Descriptor) (unused : List Word) (i : Instr) : Except Cause Instr :=
  if reservedField d = 0 ∧ unused.all (· == 0) = true then .ok i else .error .reservedNonzero

/-- A command with one operand. -/
def operands1 (d : Descriptor) (mk : Byte → Word → Instr) : Except Cause Instr :=
  reservedCheck d [d.a1, d.a2, d.a3, d.a4, d.a5] (mk (groupField d) d.a0)

/-- A command with two operands. -/
def operands2 (d : Descriptor) (mk : Byte → Word → Word → Instr) : Except Cause Instr :=
  reservedCheck d [d.a2, d.a3, d.a4, d.a5] (mk (groupField d) d.a0 d.a1)

/-- A command with three operands. -/
def operands3 (d : Descriptor) (mk : Byte → Word → Word → Word → Instr) : Except Cause Instr :=
  reservedCheck d [d.a3, d.a4, d.a5] (mk (groupField d) d.a0 d.a1 d.a2)

/-- A command with four operands. -/
def operands4 (d : Descriptor) (mk : Byte → Word → Word → Word → Word → Instr) :
    Except Cause Instr :=
  reservedCheck d [d.a4, d.a5] (mk (groupField d) d.a0 d.a1 d.a2 d.a3)

/-- A command with five operands. -/
def operands5 (d : Descriptor) (mk : Byte → Word → Word → Word → Word → Word → Instr) :
    Except Cause Instr :=
  reservedCheck d [d.a5] (mk (groupField d) d.a0 d.a1 d.a2 d.a3 d.a4)

/-- A command with six operands. -/
def operands6 (d : Descriptor) (mk : Byte → Word → Word → Word → Word → Word → Word → Instr) :
    Except Cause Instr :=
  reservedCheck d [] (mk (groupField d) d.a0 d.a1 d.a2 d.a3 d.a4 d.a5)

/-- The opcode map (rule R63): what each listed opcode makes of a descriptor.  The GLV opcodes are illegal
on an instance without GLV (rule R64). -/
def opcodeMap (glvEnabled : Bool) (d : Descriptor) : List (Byte × Except Cause Instr) :=
  [(0x10#8, operands3 d .fadd),
    (0x11#8, operands3 d .fsub),
    (0x12#8, operands2 d .fneg),
    (0x13#8, operands3 d .fmul),
    (0x14#8, operands2 d .fsqr),
    (0x15#8, operands2 d .ftom),
    (0x16#8, operands2 d .ffromm),
    (0x17#8, operands2 d .finv),
    (0x18#8, operands1 d .fissq),
    (0x19#8, operands2 d .fsqrt),
    (0x1A#8, operands3 d .fbinv),
    (0x20#8, operands3 d .padda),
    (0x21#8, operands3 d .padd),
    (0x22#8, operands2 d .pdbl),
    (0x23#8, operands2 d .pneg),
    (0x24#8, operands2 d .pnega),
    (0x25#8, operands3 d .pmul),
    (0x26#8, operands2 d .ptoaff),
    (0x27#8, operands2 d .peq),
    (0x28#8, operands1 d .pisz),
    (0x29#8, operands4 d .pbadd),
    (0x2A#8, operands3 d .pbtoaff),
    (0x30#8, if glvEnabled then operands2 d .glvsplit else .error .illegalOpcode),
    (0x31#8, if glvEnabled then operands5 d .glvexp else .error .illegalOpcode),
    (0x40#8, operands6 d .sched),
    (0x41#8, operands5 d .bsort),
    (0x42#8, operands6 d .chain),
    (0x43#8, operands3 d .bred),
    (0x44#8, operands4 d .rfold),
    (0x50#8, operands6 d .mexp),
    (0x51#8, operands6 d .mexpn)]

/-- Decoding of a descriptor on an instance with the given `glvEnabled`: the opcode map, then the reserved
checks, in the order of rule R69.  What it rejects it names by the cause rule R69 raises. -/
def decode (glvEnabled : Bool) (d : Descriptor) : Except Cause Instr :=
  ((opcodeMap glvEnabled d).lookup (opcodeField d)).getD (.error .illegalOpcode)

/-- Why a byte string is no command: it is no descriptor, or decoding names a cause. -/
inductive DecodeReject where
  /-- Not 28 bytes (rule R60). -/
  | wrongLength
  /-- A decode check of rule R69 fails with this cause. -/
  | rejected (c : Cause)
deriving DecidableEq, Repr

/-- Decoding of a byte string, total on any bytes. -/
def decodeBytes (glvEnabled : Bool) (bs : List Byte) : Except DecodeReject Instr :=
  match descriptorOfBytes bs with
  | none => .error .wrongLength
  | some d =>
    match decode glvEnabled d with
    | .ok i => .ok i
    | .error c => .error (.rejected c)

/-- The opcode byte of a command (rule R63). -/
def Instr.opcode : Instr → Byte
  | .fadd _ _ _ _ => 0x10#8
  | .fsub _ _ _ _ => 0x11#8
  | .fneg _ _ _ => 0x12#8
  | .fmul _ _ _ _ => 0x13#8
  | .fsqr _ _ _ => 0x14#8
  | .ftom _ _ _ => 0x15#8
  | .ffromm _ _ _ => 0x16#8
  | .finv _ _ _ => 0x17#8
  | .fissq _ _ => 0x18#8
  | .fsqrt _ _ _ => 0x19#8
  | .fbinv _ _ _ _ => 0x1A#8
  | .padda _ _ _ _ => 0x20#8
  | .padd _ _ _ _ => 0x21#8
  | .pdbl _ _ _ => 0x22#8
  | .pneg _ _ _ => 0x23#8
  | .pnega _ _ _ => 0x24#8
  | .pmul _ _ _ _ => 0x25#8
  | .ptoaff _ _ _ => 0x26#8
  | .peq _ _ _ => 0x27#8
  | .pisz _ _ => 0x28#8
  | .pbadd _ _ _ _ _ => 0x29#8
  | .pbtoaff _ _ _ _ => 0x2A#8
  | .glvsplit _ _ _ => 0x30#8
  | .glvexp _ _ _ _ _ _ => 0x31#8
  | .sched _ _ _ _ _ _ _ => 0x40#8
  | .bsort _ _ _ _ _ _ => 0x41#8
  | .chain _ _ _ _ _ _ _ => 0x42#8
  | .bred _ _ _ _ => 0x43#8
  | .rfold _ _ _ _ _ => 0x44#8
  | .mexp _ _ _ _ _ _ _ => 0x50#8
  | .mexpn _ _ _ _ _ _ _ => 0x51#8

/-- `W0` of a command: opcode, group, and a reserved half-word of 0 (rule R61). -/
def headerWord (op grp : Byte) : Word := (0#16 ++ grp) ++ op

/-- The descriptor of a command (rules R61 to R63): unused operand words are 0. -/
def encode : Instr → Descriptor
  | .fadd grp dst x y => ⟨headerWord 0x10#8 grp, dst, x, y, 0, 0, 0⟩
  | .fsub grp dst x y => ⟨headerWord 0x11#8 grp, dst, x, y, 0, 0, 0⟩
  | .fneg grp dst x => ⟨headerWord 0x12#8 grp, dst, x, 0, 0, 0, 0⟩
  | .fmul grp dst x y => ⟨headerWord 0x13#8 grp, dst, x, y, 0, 0, 0⟩
  | .fsqr grp dst x => ⟨headerWord 0x14#8 grp, dst, x, 0, 0, 0, 0⟩
  | .ftom grp dst x => ⟨headerWord 0x15#8 grp, dst, x, 0, 0, 0, 0⟩
  | .ffromm grp dst x => ⟨headerWord 0x16#8 grp, dst, x, 0, 0, 0, 0⟩
  | .finv grp dst x => ⟨headerWord 0x17#8 grp, dst, x, 0, 0, 0, 0⟩
  | .fissq grp x => ⟨headerWord 0x18#8 grp, x, 0, 0, 0, 0, 0⟩
  | .fsqrt grp dst x => ⟨headerWord 0x19#8 grp, dst, x, 0, 0, 0, 0⟩
  | .fbinv grp dst src n => ⟨headerWord 0x1A#8 grp, dst, src, n, 0, 0, 0⟩
  | .padda grp dst p q => ⟨headerWord 0x20#8 grp, dst, p, q, 0, 0, 0⟩
  | .padd grp dst p q => ⟨headerWord 0x21#8 grp, dst, p, q, 0, 0, 0⟩
  | .pdbl grp dst p => ⟨headerWord 0x22#8 grp, dst, p, 0, 0, 0, 0⟩
  | .pneg grp dst p => ⟨headerWord 0x23#8 grp, dst, p, 0, 0, 0, 0⟩
  | .pnega grp dst p => ⟨headerWord 0x24#8 grp, dst, p, 0, 0, 0, 0⟩
  | .pmul grp dst p k => ⟨headerWord 0x25#8 grp, dst, p, k, 0, 0, 0⟩
  | .ptoaff grp dst p => ⟨headerWord 0x26#8 grp, dst, p, 0, 0, 0, 0⟩
  | .peq grp p q => ⟨headerWord 0x27#8 grp, p, q, 0, 0, 0, 0⟩
  | .pisz grp p => ⟨headerWord 0x28#8 grp, p, 0, 0, 0, 0, 0⟩
  | .pbadd grp dst ps qs n => ⟨headerWord 0x29#8 grp, dst, ps, qs, n, 0, 0⟩
  | .pbtoaff grp dst src n => ⟨headerWord 0x2A#8 grp, dst, src, n, 0, 0, 0⟩
  | .glvsplit grp dst k => ⟨headerWord 0x30#8 grp, dst, k, 0, 0, 0, 0⟩
  | .glvexp grp dstP dstK ps ks n => ⟨headerWord 0x31#8 grp, dstP, dstK, ps, ks, n, 0⟩
  | .sched grp dstE dstC ks n c bits => ⟨headerWord 0x40#8 grp, dstE, dstC, ks, n, c, bits⟩
  | .bsort grp dstS dstO es n c => ⟨headerWord 0x41#8 grp, dstS, dstO, es, n, c, 0⟩
  | .chain grp dstB ss os ps n c => ⟨headerWord 0x42#8 grp, dstB, ss, os, ps, n, c⟩
  | .bred grp dst bs c => ⟨headerWord 0x43#8 grp, dst, bs, c, 0, 0, 0⟩
  | .rfold grp dst rs m c => ⟨headerWord 0x44#8 grp, dst, rs, m, c, 0, 0⟩
  | .mexp grp dst ps psLen ks ksLen n => ⟨headerWord 0x50#8 grp, dst, ps, psLen, ks, ksLen, n⟩
  | .mexpn grp dst ps psLen ks ksLen n => ⟨headerWord 0x51#8 grp, dst, ps, psLen, ks, ksLen, n⟩

/-- The 28 bytes of a command's descriptor. -/
def encodeBytes (i : Instr) : List Byte := descriptorBytes (encode i)

/-- The command the decoder reads from a table row's bits: the words are laid out as bytes and decoded on
an instance that has the GLV commands. -/
def decodeTableWord (nbits w : Nat) : Option Instr :=
  match decodeBytes true (leBytes 28 (w % 2 ^ nbits)) with
  | .ok i => some i
  | .error _ => none

end Sys2Proof
end

