-- ==== Sys2Proof/Machine/State.lean ====
section
/-! DEFINITION. The state of the machine as plain data, the host's moves, the reasons a step can stop,
and the state after reset (`10_state.md`, `70_reset_and_hazards.md`). -/

namespace Sys2Proof.Machine

/-- Operand memory (rule R28): the bytes that differ from what an unlisted address reads as, by strictly
rising address. -/
abbrev Memory := List Host.Cell

/-- One worker's private arena (rule R30). -/
structure Worker where
  /-- The bump pointer `AP`. -/
  ap : Nat
  /-- The arena's bytes, as one little-endian number: unspecified and never observable (rule R33). -/
  scratch : Nat
deriving DecidableEq, Repr

/-- What the host does to the block (rules R34, R55, R240). -/
inductive HostMove where
  /-- It presents a descriptor (rule R21). -/
  | issue (d : Descriptor)
  /-- It writes bytes of operand memory (rule R55). -/
  | write (addr : Nat) (bytes : List Byte)
  /-- It reads `n` bytes of operand memory (rule R55). -/
  | read (addr n : Nat)
  /-- It reads the register port at a number (rules R25, R55). -/
  | readRegister (number : Nat)
  /-- It resets the block; `contents` are the arbitrary bytes operand memory then holds (rule R241). -/
  | reset (contents : List Host.Cell)
deriving DecidableEq, Repr

/-- What the host holds from its last reading. -/
inductive HostAnswer where
  /-- It has read nothing yet. -/
  | nothing
  /-- Bytes of operand memory, the lowest address first. -/
  | bytes (bs : List Byte)
  /-- A register of the port. -/
  | register (w : Word)
deriving DecidableEq, Repr

/-- A machine stop. No command raises one: what the spec calls a fault is the fault entry of rule R222,
which is a next state. -/
inductive Fault where
  /-- Raised by `step` for a host read of, or write to, an address at or above `MEM_SIZE`, where rule R28 says there is
  no memory. Safe. -/
  | hostAccessOutsideMemory
deriving DecidableEq, Repr

/-- Why a step has no meaning. -/
inductive Refusal where
  /-- Raised by `exec` for a command that has no meaning yet; no command is left so. Safe. -/
  | notModelled (mnemonic : String)
  /-- Raised by `step` for a host move other than reset and the reading of a register, made while `STATUS.BUSY = 1`, which rules R21 and R55 say is no move of
  the model (`93_implementation_defined.md` U6). Safe. -/
  | hostMoveWhileBusy
deriving DecidableEq, Repr

/-- The state.  `cfg`, `draws`, `host` and `answer` are the model's own: the configuration that rule R9
makes an argument of the step function, the number of free values drawn so far, the moves the host has
still to make, the next one first, and what the host's last reading gave it. -/
structure State where
  /-- The instance's configuration, which no step changes (rules R9, R26). -/
  cfg : Config
  /-- `STATUS`: bit 0 `BUSY`, bit 1 `FAULTED` (rule R23). -/
  status : Word
  /-- `ERR`: bits 7:0 `CODE`, bits 15:8 `OP` (rule R24). -/
  err : Word
  /-- `RES` (rule R22). -/
  res : Word
  /-- Operand memory (rule R28). -/
  mem : Memory
  /-- The `CONCURRENCY` workers' arenas (rules R30, R198). -/
  workers : List Worker
  /-- How many free values have been drawn. -/
  draws : Nat
  /-- The host's moves to come (rules R21, R35). -/
  host : List HostMove
  /-- What the host's last reading gave it (rules R25, R55). -/
  answer : HostAnswer
deriving DecidableEq, Repr

/-- The machine right after reset (rules R33, R241): the registers and every `AP` at 0, nothing listed in
operand memory, no host move waiting and nothing read, on the instance `TOY13`. -/
def State.reset : State where
  cfg := Config.toy13
  status := 0
  err := 0
  res := 0
  mem := []
  workers := List.replicate Config.toy13.concurrency ⟨0, 0⟩
  draws := 0
  host := []
  answer := .nothing

end Sys2Proof.Machine
end

