-- ==== Sys2Proof/Machine/Ops.lean ====
section
/-! DEFINITION. The named operations over memory and registers: reading and writing operand memory, fault
entry, the way a command ends, reset, and the host's moves. -/

namespace Sys2Proof.Machine

/-! ### Operand memory -/

/-- What an address that memory does not list reads as. The spec leaves it unspecified
(rule R33). -/
def unwrittenByte : Byte := 0#8

/-- The byte at an address (rule R28). -/
def readByte : Memory → Nat → Byte
  | [], _ => unwrittenByte
  | (a', b) :: m, a => if a = a' then b else readByte m a

/-- Lists a byte at an address that is not listed, keeping the order. -/
def insertCell : Memory → Nat → Byte → Memory
  | [], a, b => [(a, b)]
  | c :: m, a, b => if a < c.1 then (a, b) :: c :: m else c :: insertCell m a b

/-- A byte written: the old entry goes, and a new one comes unless the byte is what an unlisted address
reads as. -/
def writeByte (m : Memory) (a : Nat) (b : Byte) : Memory :=
  let m' := m.filter fun c => decide (c.1 ≠ a)
  if b = unwrittenByte then m' else insertCell m' a b

/-- The canonical form: addresses strictly rising, no entry equal to an unlisted byte. -/
abbrev Memory.wf (m : Memory) : Prop :=
  m.Pairwise (fun c d => c.1 < d.1) ∧ ∀ c ∈ m, c.2 ≠ unwrittenByte

/-- `MemRead(addr, n)` (rule R18). -/
def readBytes (m : Memory) (a n : Nat) : List Byte :=
  (List.range n).map fun i => readByte m (a + i)

/-- `MemWrite(addr, n, bs)` (rule R18). -/
def writeBytes : Memory → Nat → List Byte → Memory
  | m, _, [] => m
  | m, a, b :: bs => writeBytes (writeByte m a b) (a + 1) bs

/-- `RdInt(addr, n)` (rule R18): little-endian (rule R40). -/
def readInt (m : Memory) (a n : Nat) : Nat := leValue (readBytes m a n)

/-- A memory that holds the given cells below `memSize` (rule R28). -/
def memoryOf (memSize : Nat) (cells : List Host.Cell) : Memory :=
  cells.foldl (fun m c => if c.1 < memSize then writeByte m c.1 c.2 else m) []

/-! ### Updates of the state -/

/-- Bytes stored in operand memory. -/
def storeBytes (s : State) (a : Nat) (bs : List Byte) : State :=
  { s with mem := writeBytes s.mem a bs }

/-- A free value has been drawn. -/
def drawn (s : State) : State := { s with draws := s.draws + 1 }

/-- `CSR[RES] <- v` (rule R22). -/
def setRes (s : State) (v : Word) : State := { s with res := v }

/-- The host has made its next move. -/
def hostAdvanced (s : State) (rest : List HostMove) : State := { s with host := rest }

/-- The host's reading has given it an answer. -/
def setAnswer (s : State) (v : HostAnswer) : State := { s with answer := v }

/-- The free bytes of an overlap of two outputs. -/
def freeBytes (draw lo n : Nat) : List Byte :=
  (List.range n).map fun i => Config.freeByte draw (lo + i)

/-- The first address that two outputs share, if they share any (rule R47). -/
def overlapStart (a a' : Nat) : Nat := max a a'

/-- The address after the last that two outputs share. -/
def overlapEnd (a : Nat) (bs : List Byte) (a' : Nat) (bs' : List Byte) : Nat :=
  min (a + bs.length) (a' + bs'.length)

/-- Two outputs stored: a byte that lies in both is unspecified (rule R47,
`93_implementation_defined.md` U7). -/
def storeTwo (s : State) (a : Nat) (bs : List Byte) (a' : Nat) (bs' : List Byte) : State :=
  if overlapStart a a' < overlapEnd a bs a' bs' then
    drawn (storeBytes (storeBytes (storeBytes s a bs) a' bs') (overlapStart a a')
      (freeBytes s.draws (overlapStart a a')
        (overlapEnd a bs a' bs' - overlapStart a a')))
  else storeBytes (storeBytes s a bs) a' bs'

/-! ### The register port -/

/-- `STATUS.BUSY` (rule R23). -/
def busy (s : State) : Bool := s.status.getLsbD 0

/-- `STATUS.FAULTED` (rule R23). -/
def faulted (s : State) : Bool := s.status.getLsbD 1

/-- What the host reads at a register number (rule R25): the reserved bits of `STATUS` and `ERR` read as 0
(rules R23, R24). -/
def readPort (s : State) : Nat → Word
  | 0 => s.status &&& 0x3#32
  | 1 => s.err &&& 0xFFFF#32
  | 2 => s.res
  | _ => 0

/-! ### Fault entry (rule R222). There is no return from a fault (rule R223): `resetMachine` is the only
way back. -/

/-- The kind of a cause (rule R211). -/
def causeKind : Cause → FaultKind
  | .illegalOpcode | .reservedNonzero | .unknownGroup | .countMismatch | .lengthNotMultiple
  | .misaligned | .outOfRange | .badParam | .badEntry | .glvBasis => .configurationError
  | .inverseOfZero | .sqrtOfNonresidue | .nonCanonical | .scalarRange => .domainError
  | .arenaExhausted => .resourceError

/-- `CODE` of a cause (rule R211). -/
def causeCode : Cause → Byte
  | .illegalOpcode => 0x11#8
  | .reservedNonzero => 0x12#8
  | .unknownGroup => 0x13#8
  | .countMismatch => 0x14#8
  | .lengthNotMultiple => 0x15#8
  | .misaligned => 0x16#8
  | .outOfRange => 0x17#8
  | .badParam => 0x18#8
  | .badEntry => 0x19#8
  | .glvBasis => 0x1A#8
  | .inverseOfZero => 0x21#8
  | .sqrtOfNonresidue => 0x22#8
  | .nonCanonical => 0x23#8
  | .scalarRange => 0x24#8
  | .arenaExhausted => 0x31#8

/-- `raise` (rule R222): `ERR` takes the code and the opcode, `STATUS` becomes 2, nothing else changes. -/
def raiseFault (s : State) (c : Cause) (op : Byte) : State :=
  { s with err := .ofNat 32 ((causeCode c).toNat + 256 * op.toNat), status := 2#32 }

/-- How a command with the given opcode ends: with its effect, or with the fault entry in the state it
started from (rules R47, R222). -/
def runCommand (op : Byte) (s : State) (r : Except Cause State) :
    Host.Outcome State Fault Refusal :=
  match r with
  | .ok t => .next t
  | .error c => .next (raiseFault s c op)

/-! ### Workers (rules R30, R198) -/

/-- The arena bytes a worker is left with: unspecified (rule R33). -/
def freeScratch (s : State) (i : Nat) : Nat :=
  Config.freeNat s.draws i % 256 ^ s.cfg.arenaSize

/-- Idle workers with unspecified arena bytes: `AP = 0` (rules R30, R241). -/
def idleWorkers (s : State) : List Worker :=
  (List.range s.cfg.concurrency).map fun i => ⟨0, freeScratch s i⟩

/-- The workers after the tasks of a command: their allocations are discarded (rule R30). -/
def retireWorkers (s : State) : State := drawn { s with workers := idleWorkers s }

/-! ### The host's moves -/

/-- Reset (rules R240, R241): the registers and every `AP` go to 0, operand memory and the arenas become
unspecified, the configuration stays. -/
def resetMachine (s : State) (contents : List Host.Cell) : State :=
  { s with
    status := 0, err := 0, res := 0
    mem := memoryOf s.cfg.memSize contents
    workers := idleWorkers s
    draws := s.draws + 1 }

/-- The host reaches `n` bytes of operand memory, all of them below `MEM_SIZE` (rule R28), and leaves the state
`t`. -/
def hostAccess (s : State) (a n : Nat) (t : State) : Host.Outcome State Fault Refusal :=
  if a + n ≤ s.cfg.memSize then .next t else .fault .hostAccessOutsideMemory

/-- The host writes operand memory (rule R55). -/
def hostWrite (s : State) (a : Nat) (bs : List Byte) : Host.Outcome State Fault Refusal :=
  hostAccess s a bs.length (storeBytes s a bs)

/-- The host reads operand memory (rule R55): it gets the bytes, and nothing else changes (rule R45). -/
def hostRead (s : State) (a n : Nat) : Host.Outcome State Fault Refusal :=
  hostAccess s a n (setAnswer s (.bytes (readBytes s.mem a n)))

/-- The host reads the register port (rule R25): it gets the register, and nothing else changes. -/
def hostReadRegister (s : State) (number : Nat) : State :=
  setAnswer s (.register (readPort s number))

/-- What the decoder makes of a descriptor the host issues on this instance (rule R69). -/
def decodeIssued (s : State) (d : Descriptor) : Except Cause Instr := decode s.cfg.glvEnabled d

end Sys2Proof.Machine
end

