-- ==== Sys2Proof/Machine/Params.lean ====
section
/-! DEFINITION. The derived constants of an instance (rules R10, R11, R14, R31) and modular powers. -/

namespace Sys2Proof.Machine

/-- `bitlength` of rule R17. -/
def bitlength (v : Nat) : Nat := if v = 0 then 0 else v.log2 + 1

/-- `ceil(a / b)`. -/
def ceilDiv (a b : Nat) : Nat := (a + b - 1) / b

/-- Square-and-multiply with a bound on the number of exponent bits. -/
def powModBits (m : Nat) : Nat → Nat → Nat → Nat
  | 0, _, _ => 1 % m
  | n + 1, b, e =>
    let h := powModBits m n (b * b % m) (e / 2)
    if e % 2 = 1 then b * h % m else h

/-- `b^e mod m`. -/
def powMod (b e m : Nat) : Nat := powModBits m (bitlength e) (b % m) e

/-- `n8 = 8·ceil(bitlength(M)/64)` (rule R11). -/
def n8 (c : Config) : Nat := 8 * ceilDiv (bitlength c.modulus) 64

/-- `R = 2^(8·n8)` (rule R11). -/
def montR (c : Config) : Nat := 2 ^ (8 * n8 c)

/-- `W`, the number of limbs: `W·B = 8·n8` (rule R11). -/
def limbCount (c : Config) : Nat := 8 * n8 c / c.limbBits

/-- `R1 = R mod M` (rule R10). -/
def montOne (c : Config) : Nat := montR c % c.modulus

/-- `R2 = R² mod M` (rule R10). -/
def montRSquared (c : Config) : Nat := montR c * montR c % c.modulus

/-- `R⁻¹ mod M`, as `R^(M−2)`, `M` being prime. -/
def montRInv (c : Config) : Nat := powMod (montR c) (c.modulus - 2) c.modulus

/-- `MINV = −M⁻¹ mod 2^B` (rule R10), as `−M^(2^(B−2)−1)`, `M` being odd. -/
def montMInv (c : Config) : Nat :=
  (2 ^ c.limbBits - powMod c.modulus (2 ^ (c.limbBits - 2) - 1) (2 ^ c.limbBits)) % 2 ^ c.limbBits

/-- `(S, T)` with `v = 2^S·T`, dividing at most so many times. -/
def splitPowerOfTwo : Nat → Nat → Nat × Nat
  | 0, v => (0, v)
  | n + 1, v =>
    if v % 2 = 0 then
      let st := splitPowerOfTwo n (v / 2)
      (st.1 + 1, st.2)
    else (0, v)

/-- `S` of `M − 1 = 2^S·T` (rule R10). -/
def twoAdicity (c : Config) : Nat := (splitPowerOfTwo (bitlength c.modulus) (c.modulus - 1)).1

/-- `T` of `M − 1 = 2^S·T` (rule R10). -/
def oddPart (c : Config) : Nat := (splitPowerOfTwo (bitlength c.modulus) (c.modulus - 1)).2

/-- `NR^T mod M`, the value that `NRT` stands for (rule R10). -/
def nonresiduePower (c : Config) : Nat := powMod c.nonresidue (oddPart c) c.modulus

/-- `windowTable(l)` (rules R14, R156). A key beyond the table, which no instance that meets rule R242
uses, gives 1. -/
def windowWidth (c : Config) (l : Nat) : Nat := c.windowTable.getD l 1

/-- `arenaDemand(n, c, rounds)` (rule R31). -/
def arenaDemand (cfg : Config) (n c rounds : Nat) : Nat :=
  8 * rounds * n + (cfg.arenaExtra.lookup (n, c, rounds)).getD 0

end Sys2Proof.Machine
end

