-- ==== Sys2Proof/Machine/Schedule.lean ====
section
/-! DEFINITION. The pure functions of ScheduleBuilder and BucketOrganizer
(`43_schedule_sort.md`). -/

namespace Sys2Proof.Machine

/-- `SKIP` (rule R155). -/
def skipEntry : EntryWord := 0xFFFFFFFFFFFFFFFF#64

/-- Bits 31:0 of an entry (rule R155). -/
def pointIndex (e : EntryWord) : Nat := (e.extractLsb' 0 32).toNat

/-- Bits 62:32 of an entry (rule R155). -/
def bucketIndex (e : EntryWord) : Nat := (e.extractLsb' 32 31).toNat

/-- Bit 63 of an entry (rule R155). -/
def entrySign (e : EntryWord) : Bool := e.getLsbD 63

/-- The entry of point `i` for digit `d` (rules R155, R159). -/
def scheduleEntry (i : Nat) (d : Int) : EntryWord :=
  if d = 0 then skipEntry
  else .ofNat 64 (i + d.natAbs * 2 ^ 32 + (if d < 0 then 2 ^ 63 else 0))

/-- `rounds(bits, c)` (rule R156). -/
def roundCount (cfg : Config) (bits c : Nat) : Nat :=
  if cfg.signedDigits then bits / c + 1 else ceilDiv bits c

/-- `NB(c)` (rule R156). -/
def bucketCount (cfg : Config) (c : Nat) : Nat :=
  if cfg.signedDigits then 2 ^ (c - 1) else 2 ^ c - 1

/-- The unsigned digits of `k`, round 0 first (rule R157). -/
def unsignedDigits (c : Nat) : (rounds k : Nat) → List Int
  | 0, _ => []
  | m + 1, k => ((k % 2 ^ c : Nat) : Int) :: unsignedDigits c m (k / 2 ^ c)

/-- The signed digits of `k`, round 0 first (rule R158). -/
def signedDigitsFrom (c : Nat) : (rounds k carry : Nat) → List Int
  | 0, _, _ => []
  | m + 1, k, carry =>
    let w := k % 2 ^ c + carry
    if 2 ^ (c - 1) < w then ((w : Int) - 2 ^ c) :: signedDigitsFrom c m (k / 2 ^ c) 1
    else (w : Int) :: signedDigitsFrom c m (k / 2 ^ c) 0

/-- The digits of a scalar (rules R157, R158). -/
def scalarDigits (cfg : Config) (c rounds k : Nat) : List Int :=
  if cfg.signedDigits then signedDigitsFrom c rounds k 0 else unsignedDigits c rounds k

/-- The schedule, one list of entries a round, in point order (rule R159). -/
def scheduleRounds (cfg : Config) (c rounds : Nat) (ks : List Nat) : List (List EntryWord) :=
  let digits := ks.map (scalarDigits cfg c rounds)
  (List.range rounds).map fun r =>
    digits.zipIdx.map fun di => scheduleEntry di.2 (di.1.getD r 0)

/-- How many entries of a round are live (rule R159). -/
def liveCount (es : List EntryWord) : Nat := es.countP fun e => e ≠ skipEntry

/-- May the entry stand in a round of window width `c` (rule R161)? -/
def entryOk (cfg : Config) (c : Nat) (e : EntryWord) : Bool :=
  decide (e = skipEntry) ||
    (decide (1 ≤ bucketIndex e) && decide (bucketIndex e ≤ bucketCount cfg c))

/-- The live entries of bucket `b`, in input order (rule R160). -/
def bucketEntries (es : List EntryWord) (b : Nat) : List EntryWord :=
  es.filter fun e => decide (e ≠ skipEntry) && decide (bucketIndex e = b)

/-- The sorted list of `bucketSort`: the buckets `1 .. nb` one after the other, each in input order
(rules R160, R162 (d)). -/
def sortedEntries (nb : Nat) (es : List EntryWord) : List EntryWord :=
  (List.range nb).flatMap fun j => bucketEntries es (j + 1)

/-- `off[b]` of `bucketSort`: how many live entries lie in the buckets `1 .. b` (rule R160). -/
def bucketOffset (es : List EntryWord) (b : Nat) : Nat :=
  es.countP fun e =>
    decide (e ≠ skipEntry) && decide (1 ≤ bucketIndex e) && decide (bucketIndex e ≤ b)

/-- The offset table `off[0 .. nb]` of `bucketSort` (rule R160). -/
def bucketOffsets (nb : Nat) (es : List EntryWord) : List Nat :=
  (List.range (nb + 1)).map (bucketOffset es)

end Sys2Proof.Machine
end

