-- ==== Sys2Proof/Machine/Field.lean ====
section
/-! DEFINITION. The pure functions of PrimeField on residues (`40_field.md`), which the commands, the
curve formulas and the multi-exponentiation share. -/

namespace Sys2Proof.Machine

/-- `mont(v) = v·R mod M` (rule R80). -/
def mont (c : Config) (v : Nat) : Nat := v * montR c % c.modulus

/-- `val(a) = a·R⁻¹ mod M` (rule R80). -/
def val (c : Config) (a : Nat) : Nat := a * montRInv c % c.modulus

/-- `NRT = NR^T mod M`, held in Montgomery form (rule R10). -/
def montNonresiduePower (c : Config) : Nat := mont c (nonresiduePower c)

/-- Field addition (rule R82). -/
def fadd (c : Config) (x y : Nat) : Nat :=
  if c.modulus ≤ x + y then x + y - c.modulus else x + y

/-- Field subtraction (rule R83). -/
def fsub (c : Config) (x y : Nat) : Nat :=
  if y ≤ x then x - y else x + c.modulus - y

/-- Field negation (rule R84). -/
def fneg (c : Config) (x : Nat) : Nat := if x = 0 then 0 else c.modulus - x

/-- Montgomery multiplication, by its contract `x·y·R⁻¹ mod M` (rule R85). -/
def fmul (c : Config) (x y : Nat) : Nat := x * y * montRInv c % c.modulus

/-- Squaring (rule R87). -/
def fsqr (c : Config) (x : Nat) : Nat := x * x * montRInv c % c.modulus

/-- To Montgomery form: the product with `R2` (rule R88). -/
def toMontgomery (c : Config) (v : Nat) : Nat := v * montRSquared c * montRInv c % c.modulus

/-- From Montgomery form: the product with 1 (rule R89). -/
def fromMontgomery (c : Config) (x : Nat) : Nat := x * 1 * montRInv c % c.modulus

/-- Inverse of a non-zero element: out of Montgomery form, the power `v^(M−2)`, back (rule R90). -/
def finv (c : Config) (x : Nat) : Nat := mont c (powMod (val c x) (c.modulus - 2) c.modulus)

/-- An element of a batch inverse: zero stays zero (rule R94). -/
def finvOrZero (c : Config) (x : Nat) : Nat := if x = 0 then 0 else finv c x

/-- Euler's criterion on a value: `v^((M−1)/2) mod M = 1` (rules R91, R92). -/
def eulerOne (c : Config) (v : Nat) : Bool :=
  decide (powMod v ((c.modulus - 1) / 2) c.modulus = 1)

/-- The least `i` with `from ≤ i < from + count` and `t^(2^i) = 1`, `p` being `t^(2^from)`
(rule R93). -/
def leastSquaring (m : Nat) : (count start p : Nat) → Nat
  | 0, start, _ => start
  | n + 1, start, p => if p = 1 then start else leastSquaring m n (start + 1) (p * p % m)

/-- The Tonelli–Shanks loop on values (rule R93), at most so many passes. -/
def tonelliLoop (md : Nat) : (passes m c t r : Nat) → Nat
  | 0, _, _, _, r => r
  | n + 1, m, c, t, r =>
    if t = 1 then r
    else
      let i := leastSquaring md (m - 1) 1 (t * t % md)
      let b := powMod c (2 ^ (m - i - 1)) md
      tonelliLoop md n i (b * b % md) (t * (b * b % md) % md) (r * b % md)

/-- The canonical one of the roots `r` and `M − r`: the one not in the upper half (rules R92, R98). -/
def canonicalRoot (c : Config) (r : Nat) : Nat :=
  if (c.modulus - 1) / 2 < r then c.modulus - r else r

/-- The root Tonelli–Shanks finds (rule R93), on values: it starts from the value of the constant `NRT`. -/
def tonelliRoot (c : Config) (v : Nat) : Nat :=
  canonicalRoot c (tonelliLoop c.modulus (twoAdicity c) (twoAdicity c)
    (val c (montNonresiduePower c)) (powMod v (oddPart c) c.modulus) (powMod v ((oddPart c + 1) / 2) c.modulus))

/-- Is `r` the integer rule R92 names: `1 ≤ r ≤ (M−1)/2` and `r·r mod M = v`? -/
def isCanonicalRoot (c : Config) (v r : Nat) : Bool :=
  decide (1 ≤ r) && decide (r ≤ (c.modulus - 1) / 2) && decide (r * r % c.modulus = v)

/-- The least `r` in `1 .. k` with `r·r mod M = v`, or 0. -/
def searchRoot (m v : Nat) : Nat → Nat
  | 0 => 0
  | k + 1 =>
    match searchRoot m v k with
    | 0 => if (k + 1) * (k + 1) % m = v then k + 1 else 0
    | r + 1 => r + 1

/-- The integer `r` of rule R92. Tonelli–Shanks finds it fast; what it finds is used only if it is that
integer, so the result does not depend on `NR`. -/
def sqrtValue (c : Config) (v : Nat) : Nat :=
  if isCanonicalRoot c v (tonelliRoot c v) then tonelliRoot c v
  else searchRoot c.modulus v ((c.modulus - 1) / 2)

/-- Square root of a non-zero square (rule R92). -/
def fsqrt (c : Config) (x : Nat) : Nat := mont c (sqrtValue c (val c x))

/-- Rule R98: an element is negative iff its value lies in the upper half. -/
def isNegative (c : Config) (x : Nat) : Bool := decide ((c.modulus - 1) / 2 < val c x)

end Sys2Proof.Machine
end

