-- ==== Sys2Proof/Machine/Group.lean ====
section
/-! DEFINITION. The pure functions of CurveGroup on stored points (`41_curve.md`): formats, affine
addition, the reference Jacobian formulas, classes and the free triples. -/

namespace Sys2Proof.Machine

/-- A stored affine point (rule R111). -/
structure Aff where
  x : Nat
  y : Nat
deriving DecidableEq, Repr

/-- A stored Jacobian point (rule R112). -/
structure Jac where
  x : Nat
  y : Nat
  z : Nat
deriving DecidableEq, Repr

/-- The affine spelling of `O` (rule R111). -/
def affZero : Aff := ⟨0, 0⟩

/-- The reference triple of `O` (rule R116). -/
def jacZero : Jac := ⟨0, 0, 0⟩

/-- The coordinates of an affine point, in memory order (rule R29). -/
def affCoords (p : Aff) : List Nat := [p.x, p.y]

/-- The coordinates of a Jacobian point, in memory order (rule R29). -/
def jacCoords (p : Jac) : List Nat := [p.x, p.y, p.z]

/-- The curve equation `y² = x³ + b` on residues (rule R110). -/
def curveEq (c : Config) (x y : Nat) : Bool :=
  decide (fsqr c y = fadd c (fmul c (fsqr c x) x) (mont c c.curveB))

/-- `toJ` (rule R112). -/
def toJac (c : Config) (p : Aff) : Jac := if p = affZero then jacZero else ⟨p.x, p.y, montOne c⟩

/-- `toAffine` (rule R122). -/
def toAffine (c : Config) (p : Jac) : Aff :=
  if p.z = 0 then affZero
  else
    let zi := finv c p.z
    let zi2 := fsqr c zi
    ⟨fmul c p.x zi2, fmul c p.y (fmul c zi2 zi)⟩

/-- A stored affine point that stands for an element of the group (rules R110, R111). -/
def onCurveA (c : Config) (p : Aff) : Bool :=
  decide (p = affZero) || curveEq c p.x p.y

/-- A stored Jacobian point that stands for an element of the group (rules R110, R112). -/
def onCurveJ (c : Config) (p : Jac) : Bool :=
  decide (p.z = 0) || curveEq c (toAffine c p).x (toAffine c p).y

/-- The inverse of `addAffine`'s denominator. It is 0 only for a doubling off the curve, for which no rule
gives a value: then it is free (rule R113). -/
def invertDenominator (c : Config) (x1 y1 y2 den : Nat) : Nat :=
  if den = 0 then Config.freeInverse x1 y1 y2 % c.modulus else finv c den

/-- The third point of the line through two points, given the slope (rule R113). -/
def chordPoint (c : Config) (x1 y1 x2 m : Nat) : Aff :=
  let x3 := fsub c (fsub c (fsqr c m) x1) x2
  ⟨x3, fsub c (fmul c m (fsub c x1 x3)) y1⟩

/-- `addAffine` (rule R113). -/
def addAffine (c : Config) (p q : Aff) : Aff :=
  if p = affZero then q
  else if q = affZero then p
  else if p.x = q.x then
    if fadd c p.y q.y = 0 then affZero
    else
      chordPoint c p.x p.y q.x
        (fmul c (fmul c (mont c 3) (fsqr c p.x))
          (invertDenominator c p.x p.y q.y (fadd c p.y p.y)))
  else
    chordPoint c p.x p.y q.x
      (fmul c (fsub c q.y p.y) (invertDenominator c p.x p.y q.y (fsub c q.x p.x)))

/-- Affine negation (rule R120). -/
def negAffine (c : Config) (p : Aff) : Aff := ⟨p.x, fneg c p.y⟩

/-- Jacobian negation (rule R119). -/
def negJac (c : Config) (p : Jac) : Jac := ⟨p.x, fneg c p.y, p.z⟩

/-- `2·t` on residues. -/
def fdbl (c : Config) (t : Nat) : Nat := fadd c t t

/-- `jdbl` (rule R116).  For `Y = 0` and `Z ≠ 0` the triple of `O` it gives is the formula's, `(9X⁴, −27X⁶, 0)`: the
model's choice, since the last sentence of rule R116 has `(0, 0, 0)` (log entry 22). -/
def jdbl (c : Config) (p : Jac) : Jac :=
  if p.z = 0 then jacZero
  else
    let a := fsqr c p.x
    let b := fsqr c p.y
    let cc := fsqr c b
    let d := fdbl c (fsub c (fsub c (fsqr c (fadd c p.x b)) a) cc)
    let e := fadd c (fdbl c a) a
    let f := fsqr c e
    let x3 := fsub c f (fdbl c d)
    ⟨x3, fsub c (fmul c e (fsub c d x3)) (fdbl c (fdbl c (fdbl c cc))), fdbl c (fmul c p.y p.z)⟩

/-- `jadd` (rule R116).  The triple it gives for `O` plus a triple `Q` of `O` is `Q`, copied as the formula and rule
R117 have it: the model's choice, since the last sentence of rule R116 and a vector of `95_test_vectors.md`
section 4.3 have `(0, 0, 0)` (log entry 22). -/
def jadd (c : Config) (p q : Jac) : Jac :=
  if p.z = 0 then q
  else if q.z = 0 then p
  else
    let z1z1 := fsqr c p.z
    let z2z2 := fsqr c q.z
    let u1 := fmul c p.x z2z2
    let u2 := fmul c q.x z1z1
    let s1 := fmul c p.y (fmul c q.z z2z2)
    let s2 := fmul c q.y (fmul c p.z z1z1)
    if u1 = u2 then
      if s1 = s2 then jdbl c p else jacZero
    else
      let h := fsub c u2 u1
      let i := fsqr c (fdbl c h)
      let j := fmul c h i
      let r := fdbl c (fsub c s2 s1)
      let v := fmul c u1 i
      let x3 := fsub c (fsub c (fsqr c r) j) (fdbl c v)
      ⟨x3, fsub c (fmul c r (fsub c v x3)) (fdbl c (fmul c s1 j)),
        fmul c (fsub c (fsub c (fsqr c (fadd c p.z q.z)) z1z1) z2z2) h⟩

/-- The double-and-add loop over the low `n` bits of `k`, most significant first (rule R121). -/
def jmulBits (c : Config) (p : Jac) (k : Nat) : Nat → Jac → Jac
  | 0, acc => acc
  | i + 1, acc =>
    jmulBits c p k i (if k.testBit i then jadd c (jdbl c acc) p else jdbl c acc)

/-- `k·P` for a scalar of the full stored width (rule R121). -/
def jmul (c : Config) (p : Jac) (k : Nat) : Jac := jmulBits c p k (8 * c.scalarBytes) jacZero

/-- Equality of classes (rule R123). -/
def jacEq (c : Config) (p q : Jac) : Bool :=
  if p.z = 0 ∨ q.z = 0 then decide (p.z = 0 ∧ q.z = 0)
  else
    let z1z1 := fsqr c p.z
    let z2z2 := fsqr c q.z
    decide (fmul c p.x z2z2 = fmul c q.x z1z1 ∧
      fmul c p.y (fmul c z2z2 q.z) = fmul c q.y (fmul c z1z1 p.z))

/-- The triple `(s²X, s³Y, sZ)`, in the class of `(X, Y, Z)` for non-zero `s` (rule R112). -/
def scaleJac (c : Config) (s : Nat) (p : Jac) : Jac :=
  ⟨fmul c (fsqr c s) p.x, fmul c (fmul c (fsqr c s) s) p.y, fmul c s p.z⟩

/-- Free value: any triple of canonical field elements (rule R127). -/
def anyTriple (c : Config) (draw : Nat) : Jac :=
  ⟨Config.freeNat draw 0 % c.modulus, Config.freeNat draw 1 % c.modulus,
    Config.freeNat draw 2 % c.modulus⟩

/-- Free value: any element of the class of a triple (rule R115); for `O` any `x` and `y`, and
`z = 0` (rule R191). -/
def anyRepresentative (c : Config) (draw : Nat) (p : Jac) : Jac :=
  if p.z = 0 then
    ⟨Config.freeNat draw 0 % c.modulus, Config.freeNat draw 1 % c.modulus, 0⟩
  else scaleJac c (1 + Config.freeNat draw 0 % (c.modulus - 1)) p

/-- The triple a group command writes for the group element of `p` (rules R115, R127): `onCurve` says
whether every operand stands for an element of the group. -/
def jacResult (c : Config) (draw : Nat) (onCurve : Bool) (p : Jac) : Jac :=
  if onCurve then
    match c.jacobian with
    | .anyRepresentative => anyRepresentative c draw p
    | .reference => p
  else anyTriple c draw

/-- A batched normalisation's element, its `z` inverted by the batch inverse (rule R126). -/
def toAffineBatched (c : Config) (p : Jac) (zi : Nat) : Aff :=
  if p.z = 0 then affZero
  else
    let zi2 := fsqr c zi
    ⟨fmul c p.x zi2, fmul c p.y (fmul c zi2 zi)⟩

end Sys2Proof.Machine
end

