-- ==== Sys2Proof/Machine/Split.lean ====
section
/-! DEFINITION. The pure functions of EndomorphismSplitter (`42_glv.md`). -/

namespace Sys2Proof.Machine

/-- `round(num/den) = floor(num/den + 1/2)` in exact arithmetic, after making `den` positive
(rule R142).  That the quotient by 0 is 0 is the model's choice for a basis that rule R141 (e) excludes (log
entry 24). -/
def roundDiv (num den : Int) : Int :=
  if den < 0 then (2 * (-num) + -den) / (2 * -den) else (2 * num + den) / (2 * den)

/-- `D = v1·u2 − v2·u1` (rule R141). -/
def glvDet (c : Config) : Int := c.v1 * c.u2 - c.v2 * c.u1

/-- `glvSplit` (rule R142).  That `k mod 0` is `k` is the model's choice for an `r` that rule R141 (a) excludes
(log entry 24). -/
def glvSplit (c : Config) (k : Nat) : Int × Int :=
  let k' : Int := ((k % c.groupOrder : Nat) : Int)
  let c1 := roundDiv (k' * c.u2) (glvDet c)
  let c2 := roundDiv (-k' * c.v2) (glvDet c)
  (k' - c1 * c.v1 - c2 * c.u1, -(c1 * c.v2 + c2 * c.u2))

/-- Do both magnitudes of a split fit `GLV_BITS` (rule R143)? -/
def glvFits (c : Config) (k : Nat) : Bool :=
  decide ((glvSplit c k).1.natAbs < 2 ^ c.glvBits) &&
    decide ((glvSplit c k).2.natAbs < 2 ^ c.glvBits)

/-- `φ` (rule R144). -/
def endomorphism (c : Config) (p : Aff) : Aff := ⟨fmul c c.beta p.x, p.y⟩

/-- A point with a sub-scalar's sign folded in (rule R145). -/
def foldSign (c : Config) (k : Int) (p : Aff) : Aff := if k < 0 then negAffine c p else p

/-- The two entries of one input point and scalar (rule R145). -/
def glvEntries (c : Config) (p : Aff) (k : Nat) : List (Aff × Nat) :=
  [(foldSign c (glvSplit c k).1 p, (glvSplit c k).1.natAbs),
    (foldSign c (glvSplit c k).2 (endomorphism c p), (glvSplit c k).2.natAbs)]

/-- The expansion of a batch: entries `2i` and `2i+1` come from input `i` (rule R145). -/
def glvExpand (c : Config) (pks : List (Aff × Nat)) : List (Aff × Nat) :=
  pks.flatMap fun pk => glvEntries c pk.1 pk.2

end Sys2Proof.Machine
end

