-- ==== Sys2Proof/Machine/Reduce.lean ====
section
/-! DEFINITION. The pure functions of AdditionChainEngine, BucketReducer and ParallelDispatcher
(`44_chain_reduce.md`, `45_multiexp.md`). Group elements are carried as Jacobian triples, added by the
reference formulas of rule R116; which triple is written in the end is `jacResult`'s matter. -/

namespace Sys2Proof.Machine

/-- `signedPoint` (rule R175). -/
def signedPoint (cfg : Config) (ps : List Aff) (e : EntryWord) : Aff :=
  let p := ps.getD (pointIndex e) affZero
  if entrySign e then negAffine cfg p else p

/-- One depth level on one bucket: the sums of adjacent pairs, then an odd leftover (rule R176). -/
def pairwiseSums (cfg : Config) : List Aff → List Aff
  | p :: q :: rest => addAffine cfg p q :: pairwiseSums cfg rest
  | rest => rest

/-- `max over b of length(L[b])` (rule R176). -/
def longest (ls : List (List Aff)) : Nat := ls.foldl (fun m l => max m l.length) 0

/-- The depth levels of `chainReduce`, at most so many (rule R176). -/
def chainPasses (cfg : Config) : Nat → List (List Aff) → List (List Aff)
  | 0, ls => ls
  | n + 1, ls => if 1 < longest ls then chainPasses cfg n (ls.map (pairwiseSums cfg)) else ls

/-- `chainReduce` (rule R176): as many levels as the longest bucket has points are enough. -/
def chainReduce (cfg : Config) (ls : List (List Aff)) : List Aff :=
  (chainPasses cfg (longest ls) ls).map fun l => l.headD affZero

/-- `bucketSum` (rule R178): the right-to-left running-sum sweep. -/
def bucketSum (cfg : Config) (bs : List Aff) : Jac :=
  (bs.reverse.foldl (fun ra b =>
    let running := jadd cfg ra.1 (toJac cfg b)
    (running, jadd cfg ra.2 running)) (jacZero, jacZero)).2

/-- So many doublings (rule R180). -/
def jdblTimes (cfg : Config) : Nat → Jac → Jac
  | 0, p => p
  | n + 1, p => jdblTimes cfg n (jdbl cfg p)

/-- `roundFold` (rule R180). -/
def roundFold (cfg : Config) (c : Nat) (rounds : List Jac) : Jac :=
  rounds.reverse.foldl (fun res p => jadd cfg (jdblTimes cfg c res) p) jacZero

/-- The entries `off[b−1] .. off[b]−1` of bucket `b = j + 1` (rules R160, R177). -/
def bucketSlice (ss : List EntryWord) (off : List Nat) (j : Nat) : List EntryWord :=
  (ss.drop (off.getD j 0)).take (off.getD (j + 1) 0 - off.getD j 0)

/-- The point lists `L[1 .. nb]` of a sorted round (rules R177, R193). -/
def bucketLists (cfg : Config) (nb : Nat) (ps : List Aff) (ss : List EntryWord) (off : List Nat) :
    List (List Aff) :=
  (List.range nb).map fun j => (bucketSlice ss off j).map (signedPoint cfg ps)

/-- Is the offset table well formed: `off[0] = 0` and never decreasing (rule R177)? -/
def offsetsOk (off : List Nat) : Bool :=
  decide (off.getD 0 0 = 0) &&
    (List.range (off.length - 1)).all fun j => decide (off.getD j 0 ≤ off.getD (j + 1) 0)

/-- Is every sorted entry in its bucket, with a point index below `n` (rule R177)? -/
def sortedOk (nb n : Nat) (ss : List EntryWord) (off : List Nat) : Bool :=
  (List.range nb).all fun j => (bucketSlice ss off j).all fun e =>
    decide (e ≠ skipEntry) && decide (bucketIndex e = j + 1) && decide (pointIndex e < n)

/-- The sum of one round of a chunk task (rule R193). -/
def roundSum (cfg : Config) (c : Nat) (ps : List Aff) (es : List EntryWord) : Jac :=
  let nb := bucketCount cfg c
  bucketSum cfg (chainReduce cfg
    (bucketLists cfg nb ps (sortedEntries nb es) (bucketOffsets nb es)))

/-- The bucket method on one list of points and scalars (rules R193, R182). -/
def bucketMethod (cfg : Config) (c bits : Nat) (ps : List Aff) (ks : List Nat) : Jac :=
  roundFold cfg c ((scheduleRounds cfg c (roundCount cfg bits c) ks).map (roundSum cfg c ps))

/-- `alloc(n)` on an arena whose bump pointer is `ap` (rule R30): the new bump pointer. -/
def arenaAlloc (arenaSize ap n : Nat) : Except Cause Nat :=
  if arenaSize < ap + n then .error .arenaExhausted else .ok (ap + n)

/-- The points and scalars that enter scheduling (rule R193). -/
def taskInputs (cfg : Config) (pks : List (Aff × Nat)) : List (Aff × Nat) :=
  if cfg.glvEnabled then glvExpand cfg pks else pks

/-- The scalar width of a chunk task (rule R193). -/
def taskBits (cfg : Config) : Nat := if cfg.glvEnabled then cfg.glvBits else 8 * cfg.scalarBytes

/-- `m'`, the count that enters scheduling (rule R193). -/
def taskCount (cfg : Config) (m : Nat) : Nat := if cfg.glvEnabled then 2 * m else m

/-- The window width of a chunk task (rules R156, R193). -/
def taskWidth (cfg : Config) (m : Nat) : Nat := windowWidth cfg (taskCount cfg m).log2

/-- The arena bytes a chunk task over `m` points allocates (rules R31, R193). -/
def taskDemand (cfg : Config) (m : Nat) : Nat :=
  arenaDemand cfg (taskCount cfg m) (taskWidth cfg m)
    (roundCount cfg (taskBits cfg) (taskWidth cfg m))

/-- `chunkTask` (rule R193): the arena first, reset and then asked for the task's demand, then the GLV
magnitudes, then the bucket method. -/
def chunkTask (cfg : Config) (pks : List (Aff × Nat)) : Except Cause Jac :=
  match arenaAlloc cfg.arenaSize 0 (taskDemand cfg pks.length) with
  | .error e => .error e
  | .ok _ =>
    if cfg.glvEnabled = true ∧ ∃ pk ∈ pks, glvFits cfg pk.2 = false then .error .glvBasis
    else
      .ok (bucketMethod cfg (taskWidth cfg pks.length) (taskBits cfg)
        ((taskInputs cfg pks).map Prod.fst) ((taskInputs cfg pks).map Prod.snd))

/-- `chunkSize` (rule R192).  That the quotient by a `CONCURRENCY` of 0 is 0 is the model's choice for an instance
that rule R242 excludes (log entry 24). -/
def chunkSize (cfg : Config) (n : Nat) : Nat :=
  min cfg.maxChunk (max cfg.minChunk (ceilDiv n cfg.concurrency))

/-- A list cut into contiguous chunks of a size, at most so many (rule R192). -/
def chunksOf {α : Type} (size : Nat) : Nat → List α → List (List α)
  | 0, _ => []
  | _ + 1, [] => []
  | n + 1, x :: xs => (x :: xs).take size :: chunksOf size n ((x :: xs).drop size)

/-- Every chunk task's result, or the fault of the lowest failing chunk (rule R196). -/
def runTasks (cfg : Config) : List (List (Aff × Nat)) → Except Cause (List Jac)
  | [] => .ok []
  | t :: ts =>
    match chunkTask cfg t with
    | .error e => .error e
    | .ok r =>
      match runTasks cfg ts with
      | .error e => .error e
      | .ok rs => .ok (r :: rs)

/-- The fold of the chunk results, in chunk-index order (rule R194). -/
def foldChunks (cfg : Config) (rs : List Jac) : Jac := rs.foldl (jadd cfg) jacZero

/-- The chunk tasks of a multi-exponentiation and their fold (rules R192 to R196). -/
def multiExp (cfg : Config) (pks : List (Aff × Nat)) : Except Cause Jac :=
  match runTasks cfg (chunksOf (chunkSize cfg pks.length) pks.length pks) with
  | .error e => .error e
  | .ok rs => .ok (foldChunks cfg rs)

/-- The naive oracle's sum (rule R197). -/
def naiveMultiExp (cfg : Config) (pks : List (Aff × Nat)) : Jac :=
  pks.foldl (fun res pk => jadd cfg res (jmul cfg (toJac cfg pk.1) pk.2)) jacZero

/-- Do all points that enter the group law stand for elements of the group (rule R127)? -/
def allOnCurve (cfg : Config) (ps : List Aff) : Bool := ps.all (onCurveA cfg)

end Sys2Proof.Machine
end

