-- ==== Sys2Proof/Machine/Operands.lean ====
section
/-! DEFINITION. The operand forms of rule R68: the checks of rule R43, the objects of rule R29 read from
and written to operand memory, and the canonical check of rule R46. -/

namespace Sys2Proof.Machine

/-! ### Checks: each goes on if its condition holds and raises its cause if not (rule R217) -/

/-- One check. -/
def check {α : Type} (p : Prop) [Decidable p] (c : Cause) (k : Except Cause α) : Except Cause α :=
  if p then k else .error c

/-- `UNKNOWN_GROUP` (rule R69). -/
def checkGroup {α : Type} (grp : Byte) (k : Except Cause α) : Except Cause α :=
  check (groupOk grp = true) .unknownGroup k

/-- `ILLEGAL_OPCODE` of a GLV command on an instance without GLV (rule R64). -/
def checkGlv {α : Type} (cfg : Config) (k : Except Cause α) : Except Cause α :=
  check (cfg.glvEnabled = true) .illegalOpcode k

/-- `BAD_PARAM` of a window width (rule R68). -/
def checkWidth {α : Type} (c : Word) (k : Except Cause α) : Except Cause α :=
  check (widthOk c = true) .badParam k

/-- `BAD_PARAM` of a scalar bit count (rule R68). -/
def checkBits {α : Type} (cfg : Config) (bits : Word) (k : Except Cause α) : Except Cause α :=
  check (bitsOk cfg bits = true) .badParam k

/-- Is an address a multiple of an alignment (rule R42)? -/
abbrev Aligned (align : Nat) (a : Word) : Prop := a.toNat % align = 0

/-- Does an array of `count` objects of `size` bytes at an address fit operand memory, without
wrap-around (rule R41)? -/
abbrev InRange (cfg : Config) (a : Word) (count size : Nat) : Prop :=
  count = 0 ∨ a.toNat + count * size ≤ cfg.memSize

/-- The address check of one operand: alignment, then range (rule R43). -/
def checkArray {α : Type} (cfg : Config) (align : Nat) (a : Word) (count size : Nat)
    (k : Except Cause α) : Except Cause α :=
  check (Aligned align a) .misaligned (check (InRange cfg a count size) .outOfRange k)

/-- An operand `F[count]` (rule R68). -/
def checkF {α : Type} (cfg : Config) (a : Word) (count : Nat) (k : Except Cause α) :
    Except Cause α := checkArray cfg 8 a count (n8 cfg) k

/-- An operand `A[count]` (rule R68). -/
def checkA {α : Type} (cfg : Config) (a : Word) (count : Nat) (k : Except Cause α) :
    Except Cause α := checkArray cfg 8 a count (2 * n8 cfg) k

/-- An operand `J[count]` (rule R68). -/
def checkJ {α : Type} (cfg : Config) (a : Word) (count : Nat) (k : Except Cause α) :
    Except Cause α := checkArray cfg 8 a count (3 * n8 cfg) k

/-- An operand `K[count]` (rule R68). -/
def checkK {α : Type} (cfg : Config) (a : Word) (count : Nat) (k : Except Cause α) :
    Except Cause α := checkArray cfg 8 a count cfg.scalarBytes k

/-- An operand `E[count]` (rule R68). -/
def checkE {α : Type} (cfg : Config) (a : Word) (count : Nat) (k : Except Cause α) :
    Except Cause α := checkArray cfg 8 a count 8 k

/-- An operand `U[count]` (rule R68). -/
def checkU {α : Type} (cfg : Config) (a : Word) (count : Nat) (k : Except Cause α) :
    Except Cause α := checkArray cfg 4 a count 4 k

/-- A buffer of `len` bytes (rule R68). -/
def checkBuffer {α : Type} (cfg : Config) (a : Word) (len : Nat) (k : Except Cause α) :
    Except Cause α := checkArray cfg 8 a len 1 k

/-- `NONCANONICAL`: every coordinate read must be below `M` (rule R46). -/
def checkCanonical {α : Type} (cfg : Config) (vs : List Nat) (k : Except Cause α) :
    Except Cause α := check (∀ v ∈ vs, v < cfg.modulus) .nonCanonical k

/-! ### Objects read (rules R18, R29) -/

/-- The field element, or plain integer, at an address. -/
def fieldAt (s : State) (a : Nat) : Nat := readInt s.mem a (n8 s.cfg)

/-- The affine point at an address. -/
def affAt (s : State) (a : Nat) : Aff := ⟨fieldAt s a, fieldAt s (a + n8 s.cfg)⟩

/-- The Jacobian point at an address. -/
def jacAt (s : State) (a : Nat) : Jac :=
  ⟨fieldAt s a, fieldAt s (a + n8 s.cfg), fieldAt s (a + 2 * n8 s.cfg)⟩

/-- The scalar at an address. -/
def scalarAt (s : State) (a : Nat) : Nat := readInt s.mem a s.cfg.scalarBytes

/-- The schedule entry at an address. -/
def entryAt (s : State) (a : Nat) : EntryWord := .ofNat 64 (readInt s.mem a 8)

/-- The `u32` at an address. -/
def countAt (s : State) (a : Nat) : Nat := readInt s.mem a 4

/-- An array: element `i` at `a + i·size` (rule R71). -/
def arrayAt {α : Type} (read : Nat → α) (a size n : Nat) : List α :=
  (List.range n).map fun i => read (a + i * size)

/-- An array `F[n]`. -/
def fieldsAt (s : State) (a : Word) (n : Nat) : List Nat :=
  arrayAt (fieldAt s) a.toNat (n8 s.cfg) n

/-- An array `A[n]`. -/
def affsAt (s : State) (a : Word) (n : Nat) : List Aff :=
  arrayAt (affAt s) a.toNat (2 * n8 s.cfg) n

/-- An array `J[n]`. -/
def jacsAt (s : State) (a : Word) (n : Nat) : List Jac :=
  arrayAt (jacAt s) a.toNat (3 * n8 s.cfg) n

/-- An array `K[n]`. -/
def scalarsAt (s : State) (a : Word) (n : Nat) : List Nat :=
  arrayAt (scalarAt s) a.toNat s.cfg.scalarBytes n

/-- An array `E[n]`. -/
def entriesAt (s : State) (a : Word) (n : Nat) : List EntryWord :=
  arrayAt (entryAt s) a.toNat 8 n

/-- An array `U[n]`. -/
def countsAt (s : State) (a : Word) (n : Nat) : List Nat := arrayAt (countAt s) a.toNat 4 n

/-- The coordinates of a list of affine points, in the order they are checked (rule R217). -/
def affsCoords (ps : List Aff) : List Nat := ps.flatMap affCoords

/-- The coordinates of a list of Jacobian points, in the order they are checked (rule R217). -/
def jacsCoords (ps : List Jac) : List Nat := ps.flatMap jacCoords

/-! ### Objects written (rules R18, R29) -/

/-- The bytes of a field element. -/
def fieldBytes (cfg : Config) (v : Nat) : List Byte := leBytes (n8 cfg) v

/-- The bytes of an affine point. -/
def affBytes (cfg : Config) (p : Aff) : List Byte := fieldBytes cfg p.x ++ fieldBytes cfg p.y

/-- The bytes of a Jacobian point. -/
def jacBytes (cfg : Config) (p : Jac) : List Byte :=
  fieldBytes cfg p.x ++ fieldBytes cfg p.y ++ fieldBytes cfg p.z

/-- The bytes of a scalar. -/
def scalarBytes (cfg : Config) (k : Nat) : List Byte := leBytes cfg.scalarBytes k

/-- The bytes of a schedule entry. -/
def entryBytes (e : EntryWord) : List Byte := leBytes 8 e.toNat

/-- The bytes of a count or offset. -/
def countBytes (n : Nat) : List Byte := leBytes 4 n

/-- `WrF`. -/
def storeField (s : State) (a : Word) (v : Nat) : State :=
  storeBytes s a.toNat (fieldBytes s.cfg v)

/-- An array `F[n]` written. -/
def storeFields (s : State) (a : Word) (vs : List Nat) : State :=
  storeBytes s a.toNat (vs.flatMap (fieldBytes s.cfg))

/-- `WrA`. -/
def storeAff (s : State) (a : Word) (p : Aff) : State :=
  storeBytes s a.toNat (affBytes s.cfg p)

/-- An array `A[n]` written. -/
def storeAffs (s : State) (a : Word) (ps : List Aff) : State :=
  storeBytes s a.toNat (ps.flatMap (affBytes s.cfg))

/-- `WrJ`. -/
def storeJac (s : State) (a : Word) (p : Jac) : State :=
  storeBytes s a.toNat (jacBytes s.cfg p)

/-- An array `K[n]` written. -/
def storeScalars (s : State) (a : Word) (ks : List Nat) : State :=
  storeBytes s a.toNat (ks.flatMap (scalarBytes s.cfg))

/-- A Jacobian result written: the triple is `jacResult`'s (rules R115, R127). -/
def storeJacResult (s : State) (a : Word) (onCurve : Bool) (p : Jac) : State :=
  drawn (storeJac s a (jacResult s.cfg s.draws onCurve p))

end Sys2Proof.Machine
end

