-- ==== Sys2Proof/Machine/Flags.lean ====
section
/-! DEFINITION. What commands write to `RES`, the only flag-like state (rule R22). -/

namespace Sys2Proof.Machine

/-- A predicate's `RES`: 1 for true, 0 for false (rule R22). -/
def boolRes (b : Bool) : Word := if b then 1#32 else 0#32

/-- `GLVSPLIT`'s `RES`: bit 0 is the sign of `k1`, bit 1 that of `k2`, 1 meaning negative (rule R143). -/
def signRes (k1 k2 : Int) : Word :=
  .ofNat 32 ((if k1 < 0 then 1 else 0) + 2 * (if k2 < 0 then 1 else 0))

end Sys2Proof.Machine
end

