-- ==== Sys2Proof/Machine/CurveCommands.lean ====
section
/-! DEFINITION. The CurveGroup commands (`41_curve.md`). -/

namespace Sys2Proof.Machine

/-- `PADDA` (rule R114). -/
def execPadda (grp : Byte) (dst p q : Word) (s : State) : Host.Outcome State Fault Refusal :=
  runCommand 0x20#8 s <|
    checkGroup grp <| checkA s.cfg dst 1 <| checkA s.cfg p 1 <| checkA s.cfg q 1 <|
    checkCanonical s.cfg (affsCoords [affAt s p.toNat, affAt s q.toNat]) <|
    .ok (storeAff s dst (addAffine s.cfg (affAt s p.toNat) (affAt s q.toNat)))

/-- `PADD` (rule R117). -/
def execPadd (grp : Byte) (dst p q : Word) (s : State) : Host.Outcome State Fault Refusal :=
  runCommand 0x21#8 s <|
    checkGroup grp <| checkJ s.cfg dst 1 <| checkJ s.cfg p 1 <| checkJ s.cfg q 1 <|
    checkCanonical s.cfg (jacsCoords [jacAt s p.toNat, jacAt s q.toNat]) <|
    .ok (storeJacResult s dst
      (onCurveJ s.cfg (jacAt s p.toNat) && onCurveJ s.cfg (jacAt s q.toNat))
      (jadd s.cfg (jacAt s p.toNat) (jacAt s q.toNat)))

/-- `PDBL` (rule R118). -/
def execPdbl (grp : Byte) (dst p : Word) (s : State) : Host.Outcome State Fault Refusal :=
  runCommand 0x22#8 s <|
    checkGroup grp <| checkJ s.cfg dst 1 <| checkJ s.cfg p 1 <|
    checkCanonical s.cfg (jacsCoords [jacAt s p.toNat]) <|
    .ok (storeJacResult s dst (onCurveJ s.cfg (jacAt s p.toNat))
      (jdbl s.cfg (jacAt s p.toNat)))

/-- `PNEG` (rule R119): exact, no draw. -/
def execPneg (grp : Byte) (dst p : Word) (s : State) : Host.Outcome State Fault Refusal :=
  runCommand 0x23#8 s <|
    checkGroup grp <| checkJ s.cfg dst 1 <| checkJ s.cfg p 1 <|
    checkCanonical s.cfg (jacsCoords [jacAt s p.toNat]) <|
    .ok (storeJac s dst (negJac s.cfg (jacAt s p.toNat)))

/-- `PNEGA` (rule R120). -/
def execPnega (grp : Byte) (dst p : Word) (s : State) : Host.Outcome State Fault Refusal :=
  runCommand 0x24#8 s <|
    checkGroup grp <| checkA s.cfg dst 1 <| checkA s.cfg p 1 <|
    checkCanonical s.cfg (affsCoords [affAt s p.toNat]) <|
    .ok (storeAff s dst (negAffine s.cfg (affAt s p.toNat)))

/-- `PMUL` (rule R121): the scalar has no canonical range. -/
def execPmul (grp : Byte) (dst p k : Word) (s : State) : Host.Outcome State Fault Refusal :=
  runCommand 0x25#8 s <|
    checkGroup grp <| checkJ s.cfg dst 1 <| checkJ s.cfg p 1 <| checkK s.cfg k 1 <|
    checkCanonical s.cfg (jacsCoords [jacAt s p.toNat]) <|
    .ok (storeJacResult s dst (onCurveJ s.cfg (jacAt s p.toNat))
      (jmul s.cfg (jacAt s p.toNat) (scalarAt s k.toNat)))

/-- `PTOAFF` (rule R122). -/
def execPtoaff (grp : Byte) (dst p : Word) (s : State) : Host.Outcome State Fault Refusal :=
  runCommand 0x26#8 s <|
    checkGroup grp <| checkA s.cfg dst 1 <| checkJ s.cfg p 1 <|
    checkCanonical s.cfg (jacsCoords [jacAt s p.toNat]) <|
    .ok (storeAff s dst (toAffine s.cfg (jacAt s p.toNat)))

/-- `PEQ` (rule R123). -/
def execPeq (grp : Byte) (p q : Word) (s : State) : Host.Outcome State Fault Refusal :=
  runCommand 0x27#8 s <|
    checkGroup grp <| checkJ s.cfg p 1 <| checkJ s.cfg q 1 <|
    checkCanonical s.cfg (jacsCoords [jacAt s p.toNat, jacAt s q.toNat]) <|
    .ok (setRes s (boolRes (jacEq s.cfg (jacAt s p.toNat) (jacAt s q.toNat))))

/-- `PISZ` (rule R124). -/
def execPisz (grp : Byte) (p : Word) (s : State) : Host.Outcome State Fault Refusal :=
  runCommand 0x28#8 s <|
    checkGroup grp <| checkJ s.cfg p 1 <|
    checkCanonical s.cfg (jacsCoords [jacAt s p.toNat]) <|
    .ok (setRes s (boolRes (decide ((jacAt s p.toNat).z = 0))))

/-- `PBADD` (rule R125): each result is exactly that of `PADDA`. -/
def execPbadd (grp : Byte) (dst ps qs n : Word) (s : State) : Host.Outcome State Fault Refusal :=
  runCommand 0x29#8 s <|
    checkGroup grp <|
    checkA s.cfg dst n.toNat <| checkA s.cfg ps n.toNat <| checkA s.cfg qs n.toNat <|
    checkCanonical s.cfg (affsCoords (affsAt s ps n.toNat ++ affsAt s qs n.toNat)) <|
    .ok (storeAffs s dst
      (List.zipWith (addAffine s.cfg) (affsAt s ps n.toNat) (affsAt s qs n.toNat)))

/-- `PBTOAFF` (rule R126): the inverses of `z` come from the batch inverse. -/
def execPbtoaff (grp : Byte) (dst src n : Word) (s : State) : Host.Outcome State Fault Refusal :=
  runCommand 0x2A#8 s <|
    checkGroup grp <| checkA s.cfg dst n.toNat <| checkJ s.cfg src n.toNat <|
    checkCanonical s.cfg (jacsCoords (jacsAt s src n.toNat)) <|
    .ok (storeAffs s dst ((jacsAt s src n.toNat).map fun p =>
      toAffineBatched s.cfg p (finvOrZero s.cfg p.z)))

end Sys2Proof.Machine
end

