-- ==== Sys2Proof/Machine/FieldCommands.lean ====
section
/-! DEFINITION. The PrimeField commands (`40_field.md`). -/

namespace Sys2Proof.Machine

/-- A command that reads two field elements and writes one (rule R81). -/
def fieldBinary (op : Byte) (f : Nat → Nat → Nat) (grp : Byte) (dst x y : Word) (s : State) :
    Host.Outcome State Fault Refusal :=
  runCommand op s <|
    checkGroup grp <| checkF s.cfg dst 1 <| checkF s.cfg x 1 <| checkF s.cfg y 1 <|
    checkCanonical s.cfg [fieldAt s x.toNat, fieldAt s y.toNat] <|
    .ok (storeField s dst (f (fieldAt s x.toNat) (fieldAt s y.toNat)))

/-- A command that reads one field element, may raise a cause of its own, and writes one (rule R81). -/
def fieldUnary (op : Byte) (f : Nat → Except Cause Nat) (grp : Byte) (dst x : Word) (s : State) :
    Host.Outcome State Fault Refusal :=
  runCommand op s <|
    checkGroup grp <| checkF s.cfg dst 1 <| checkF s.cfg x 1 <|
    checkCanonical s.cfg [fieldAt s x.toNat] <|
    match f (fieldAt s x.toNat) with
    | .ok v => .ok (storeField s dst v)
    | .error c => .error c

/-- `FADD` (rule R82). -/
def execFadd (grp : Byte) (dst x y : Word) (s : State) : Host.Outcome State Fault Refusal :=
  fieldBinary 0x10#8 (fadd s.cfg) grp dst x y s

/-- `FSUB` (rule R83). -/
def execFsub (grp : Byte) (dst x y : Word) (s : State) : Host.Outcome State Fault Refusal :=
  fieldBinary 0x11#8 (fsub s.cfg) grp dst x y s

/-- `FNEG` (rule R84). -/
def execFneg (grp : Byte) (dst x : Word) (s : State) : Host.Outcome State Fault Refusal :=
  fieldUnary 0x12#8 (fun v => .ok (fneg s.cfg v)) grp dst x s

/-- `FMUL` (rule R85). -/
def execFmul (grp : Byte) (dst x y : Word) (s : State) : Host.Outcome State Fault Refusal :=
  fieldBinary 0x13#8 (fmul s.cfg) grp dst x y s

/-- `FSQR` (rule R87). -/
def execFsqr (grp : Byte) (dst x : Word) (s : State) : Host.Outcome State Fault Refusal :=
  fieldUnary 0x14#8 (fun v => .ok (fsqr s.cfg v)) grp dst x s

/-- `FTOM` (rule R88). -/
def execFtom (grp : Byte) (dst x : Word) (s : State) : Host.Outcome State Fault Refusal :=
  fieldUnary 0x15#8 (fun v => .ok (toMontgomery s.cfg v)) grp dst x s

/-- `FFROMM` (rule R89). -/
def execFfromm (grp : Byte) (dst x : Word) (s : State) : Host.Outcome State Fault Refusal :=
  fieldUnary 0x16#8 (fun v => .ok (fromMontgomery s.cfg v)) grp dst x s

/-- `FINV` (rule R90): zero raises `INVERSE_OF_ZERO`. -/
def execFinv (grp : Byte) (dst x : Word) (s : State) : Host.Outcome State Fault Refusal :=
  fieldUnary 0x17#8 (fun v => check (v ≠ 0) .inverseOfZero (.ok (finv s.cfg v))) grp dst x s

/-- `FISSQ` (rule R91). -/
def execFissq (grp : Byte) (x : Word) (s : State) : Host.Outcome State Fault Refusal :=
  runCommand 0x18#8 s <|
    checkGroup grp <| checkF s.cfg x 1 <|
    checkCanonical s.cfg [fieldAt s x.toNat] <|
    .ok (setRes s (boolRes (eulerOne s.cfg (val s.cfg (fieldAt s x.toNat)))))

/-- `FSQRT` (rule R92): zero gives zero, a non-zero nonresidue raises `SQRT_OF_NONRESIDUE`. -/
def execFsqrt (grp : Byte) (dst x : Word) (s : State) : Host.Outcome State Fault Refusal :=
  fieldUnary 0x19#8 (fun v =>
    if v = 0 then .ok 0
    else check (eulerOne s.cfg (val s.cfg v) = true) .sqrtOfNonresidue (.ok (fsqrt s.cfg v)))
    grp dst x s

/-- `FBINV` (rule R94). -/
def execFbinv (grp : Byte) (dst src n : Word) (s : State) : Host.Outcome State Fault Refusal :=
  runCommand 0x1A#8 s <|
    checkGroup grp <| checkF s.cfg dst n.toNat <| checkF s.cfg src n.toNat <|
    checkCanonical s.cfg (fieldsAt s src n.toNat) <|
    .ok (storeFields s dst ((fieldsAt s src n.toNat).map (finvOrZero s.cfg)))

end Sys2Proof.Machine
end

