-- ==== Sys2Proof/Machine/GlvCommands.lean ====
section
/-! DEFINITION. The EndomorphismSplitter commands (`42_glv.md`). -/

namespace Sys2Proof.Machine

/-- `GLVSPLIT` (rule R143). -/
def execGlvsplit (grp : Byte) (dst k : Word) (s : State) : Host.Outcome State Fault Refusal :=
  runCommand 0x30#8 s <|
    checkGlv s.cfg <| checkGroup grp <| checkK s.cfg dst 2 <| checkK s.cfg k 1 <|
    check (glvFits s.cfg (scalarAt s k.toNat) = true) .glvBasis <|
    .ok (setRes
      (storeScalars s dst [(glvSplit s.cfg (scalarAt s k.toNat)).1.natAbs,
        (glvSplit s.cfg (scalarAt s k.toNat)).2.natAbs])
      (signRes (glvSplit s.cfg (scalarAt s k.toNat)).1 (glvSplit s.cfg (scalarAt s k.toNat)).2))

/-- The points and scalars of a batch, paired by index (rule R29). -/
def pointScalars (s : State) (ps ks : Word) (n : Nat) : List (Aff × Nat) :=
  (affsAt s ps n).zip (scalarsAt s ks n)

/-- `GLVEXP` (rule R145). -/
def execGlvexp (grp : Byte) (dstP dstK ps ks n : Word) (s : State) :
    Host.Outcome State Fault Refusal :=
  runCommand 0x31#8 s <|
    checkGlv s.cfg <| checkGroup grp <|
    checkA s.cfg dstP (2 * n.toNat) <| checkK s.cfg dstK (2 * n.toNat) <|
    checkA s.cfg ps n.toNat <| checkK s.cfg ks n.toNat <|
    checkCanonical s.cfg (affsCoords (affsAt s ps n.toNat)) <|
    check (∀ k ∈ scalarsAt s ks n.toNat, glvFits s.cfg k = true) .glvBasis <|
    .ok (storeTwo s
      dstP.toNat ((glvExpand s.cfg (pointScalars s ps ks n.toNat)).flatMap fun e =>
        affBytes s.cfg e.1)
      dstK.toNat ((glvExpand s.cfg (pointScalars s ps ks n.toNat)).flatMap fun e =>
        scalarBytes s.cfg e.2))

end Sys2Proof.Machine
end

