-- ==== Sys2Proof/Machine/MultiexpCommands.lean ====
section
/-! DEFINITION. The ParallelDispatcher commands (`45_multiexp.md`). -/

namespace Sys2Proof.Machine

/-- The address checks and the entry checks that `MEXP` and `MEXPN` share (rules R190, R197).
What remainders and quotients by an element size of 0 are is the model's choice for an instance that rule R242
excludes (log entry 24). -/
def checkEntry (grp : Byte) (dst ps psLen ks ksLen n : Word) (s : State)
    (k : Except Cause State) : Except Cause State :=
  checkGroup grp <|
  checkJ s.cfg dst 1 <| checkBuffer s.cfg ps psLen.toNat <| checkBuffer s.cfg ks ksLen.toNat <|
  check (psLen.toNat % (2 * n8 s.cfg) = 0 ∧ ksLen.toNat % s.cfg.scalarBytes = 0)
    .lengthNotMultiple <|
  check (psLen.toNat / (2 * n8 s.cfg) = n.toNat ∧ ksLen.toNat / s.cfg.scalarBytes = n.toNat)
    .countMismatch <|
  checkCanonical s.cfg (affsCoords (affsAt s ps n.toNat)) k

/-- `MEXP` with no points writes `O` and touches no arena (rule R191); with points, the chunk tasks run and
their workers are idle again afterwards (rules R30, R195). -/
def finishMexp (s : State) (dst : Word) (pks : List (Aff × Nat)) (sum : Jac) : State :=
  storeJacResult (if pks = [] then s else retireWorkers s) dst
    (allOnCurve s.cfg (pks.map Prod.fst) &&
      allOnCurve s.cfg ((taskInputs s.cfg pks).map Prod.fst)) sum

/-- `MEXP` (rules R190 to R196). -/
def execMexp (grp : Byte) (dst ps psLen ks ksLen n : Word) (s : State) :
    Host.Outcome State Fault Refusal :=
  runCommand 0x50#8 s <|
    checkEntry grp dst ps psLen ks ksLen n s <|
    match multiExp s.cfg (pointScalars s ps ks n.toNat) with
    | .error c => .error c
    | .ok sum => .ok (finishMexp s dst (pointScalars s ps ks n.toNat) sum)

/-- `MEXPN` (rule R197): no chunk, no worker, no GLV split. -/
def execMexpn (grp : Byte) (dst ps psLen ks ksLen n : Word) (s : State) :
    Host.Outcome State Fault Refusal :=
  runCommand 0x51#8 s <|
    checkEntry grp dst ps psLen ks ksLen n s <|
    .ok (storeJacResult s dst (allOnCurve s.cfg (affsAt s ps n.toNat))
      (naiveMultiExp s.cfg (pointScalars s ps ks n.toNat)))

end Sys2Proof.Machine
end

