-- ==== Sys2Proof/Machine/StageCommands.lean ====
section
/-! DEFINITION. The stage commands: ScheduleBuilder and BucketOrganizer (`43_schedule_sort.md`),
AdditionChainEngine and BucketReducer (`44_chain_reduce.md`). -/

namespace Sys2Proof.Machine

/-- `SCHED` (rule R159). -/
def execSched (grp : Byte) (dstE dstC ks n c bits : Word) (s : State) :
    Host.Outcome State Fault Refusal :=
  let m := roundCount s.cfg bits.toNat c.toNat
  let rounds := scheduleRounds s.cfg c.toNat m (scalarsAt s ks n.toNat)
  runCommand 0x40#8 s <|
    checkGroup grp <| checkWidth c <| checkBits s.cfg bits <|
    checkE s.cfg dstE (m * n.toNat) <| checkU s.cfg dstC m <| checkK s.cfg ks n.toNat <|
    check (∀ k ∈ scalarsAt s ks n.toNat, k < 2 ^ bits.toNat) .scalarRange <|
    .ok (storeTwo s dstE.toNat (rounds.flatten.flatMap entryBytes)
      dstC.toNat (rounds.flatMap fun es => countBytes (liveCount es)))

/-- `BSORT` (rule R161): only the live entries are written to `dstS`. -/
def execBsort (grp : Byte) (dstS dstO es n c : Word) (s : State) :
    Host.Outcome State Fault Refusal :=
  let nb := bucketCount s.cfg c.toNat
  let entries := entriesAt s es n.toNat
  runCommand 0x41#8 s <|
    checkGroup grp <| checkWidth c <|
    checkE s.cfg dstS n.toNat <| checkU s.cfg dstO (nb + 1) <| checkE s.cfg es n.toNat <|
    check (entries.all (entryOk s.cfg c.toNat) = true) .badEntry <|
    .ok (storeTwo s dstS.toNat ((sortedEntries nb entries).flatMap entryBytes)
      dstO.toNat ((bucketOffsets nb entries).flatMap countBytes))

/-- `CHAIN` (rule R177): the size of `ss` is known once the offset table is read (rule R43). -/
def execChain (grp : Byte) (dstB ss os ps n c : Word) (s : State) :
    Host.Outcome State Fault Refusal :=
  let nb := bucketCount s.cfg c.toNat
  let off := countsAt s os (nb + 1)
  let live := off.getD nb 0
  let sorted := entriesAt s ss live
  let points := affsAt s ps n.toNat
  runCommand 0x42#8 s <|
    checkGroup grp <| checkWidth c <|
    checkA s.cfg dstB nb <| check (Aligned 8 ss) .misaligned <| checkU s.cfg os (nb + 1) <|
    checkA s.cfg ps n.toNat <|
    check (offsetsOk off = true) .badEntry <|
    check (InRange s.cfg ss live 8) .outOfRange <|
    check (sortedOk nb n.toNat sorted off = true) .badEntry <|
    checkCanonical s.cfg (affsCoords points) <|
    .ok (storeAffs s dstB (chainReduce s.cfg (bucketLists s.cfg nb points sorted off)))

/-- `BRED` (rule R179). -/
def execBred (grp : Byte) (dst bs c : Word) (s : State) : Host.Outcome State Fault Refusal :=
  let buckets := affsAt s bs (bucketCount s.cfg c.toNat)
  runCommand 0x43#8 s <|
    checkGroup grp <| checkWidth c <|
    checkJ s.cfg dst 1 <| checkA s.cfg bs (bucketCount s.cfg c.toNat) <|
    checkCanonical s.cfg (affsCoords buckets) <|
    .ok (storeJacResult s dst (allOnCurve s.cfg buckets) (bucketSum s.cfg buckets))

/-- `RFOLD` (rule R181). -/
def execRfold (grp : Byte) (dst rs m c : Word) (s : State) : Host.Outcome State Fault Refusal :=
  let rounds := jacsAt s rs m.toNat
  runCommand 0x44#8 s <|
    checkGroup grp <| checkWidth c <|
    checkJ s.cfg dst 1 <| checkJ s.cfg rs m.toNat <|
    checkCanonical s.cfg (jacsCoords rounds) <|
    .ok (storeJacResult s dst (rounds.all (onCurveJ s.cfg)) (roundFold s.cfg c.toNat rounds))

end Sys2Proof.Machine
end

