-- ==== Sys2Proof/Machine/Dispatch.lean ====
section
/-! DEFINITION. The dispatch: what a command does once the descriptor checks of decoding are past. -/

namespace Sys2Proof.Machine

def exec (i : Instr) (s : State) : Host.Outcome State Fault Refusal :=
  match i with
  | .fadd grp dst x y => Sys2Proof.Machine.execFadd grp dst x y s
  | .fsub grp dst x y => Sys2Proof.Machine.execFsub grp dst x y s
  | .fneg grp dst x => Sys2Proof.Machine.execFneg grp dst x s
  | .fmul grp dst x y => Sys2Proof.Machine.execFmul grp dst x y s
  | .fsqr grp dst x => Sys2Proof.Machine.execFsqr grp dst x s
  | .ftom grp dst x => Sys2Proof.Machine.execFtom grp dst x s
  | .ffromm grp dst x => Sys2Proof.Machine.execFfromm grp dst x s
  | .finv grp dst x => Sys2Proof.Machine.execFinv grp dst x s
  | .fissq grp x => Sys2Proof.Machine.execFissq grp x s
  | .fsqrt grp dst x => Sys2Proof.Machine.execFsqrt grp dst x s
  | .fbinv grp dst src n => Sys2Proof.Machine.execFbinv grp dst src n s
  | .padda grp dst p q => Sys2Proof.Machine.execPadda grp dst p q s
  | .padd grp dst p q => Sys2Proof.Machine.execPadd grp dst p q s
  | .pdbl grp dst p => Sys2Proof.Machine.execPdbl grp dst p s
  | .pneg grp dst p => Sys2Proof.Machine.execPneg grp dst p s
  | .pnega grp dst p => Sys2Proof.Machine.execPnega grp dst p s
  | .pmul grp dst p k => Sys2Proof.Machine.execPmul grp dst p k s
  | .ptoaff grp dst p => Sys2Proof.Machine.execPtoaff grp dst p s
  | .peq grp p q => Sys2Proof.Machine.execPeq grp p q s
  | .pisz grp p => Sys2Proof.Machine.execPisz grp p s
  | .pbadd grp dst ps qs n => Sys2Proof.Machine.execPbadd grp dst ps qs n s
  | .pbtoaff grp dst src n => Sys2Proof.Machine.execPbtoaff grp dst src n s
  | .glvsplit grp dst k => Sys2Proof.Machine.execGlvsplit grp dst k s
  | .glvexp grp dstP dstK ps ks n => Sys2Proof.Machine.execGlvexp grp dstP dstK ps ks n s
  | .sched grp dstE dstC ks n c bits => Sys2Proof.Machine.execSched grp dstE dstC ks n c bits s
  | .bsort grp dstS dstO es n c => Sys2Proof.Machine.execBsort grp dstS dstO es n c s
  | .chain grp dstB ss os ps n c => Sys2Proof.Machine.execChain grp dstB ss os ps n c s
  | .bred grp dst bs c => Sys2Proof.Machine.execBred grp dst bs c s
  | .rfold grp dst rs m c => Sys2Proof.Machine.execRfold grp dst rs m c s
  | .mexp grp dst ps psLen ks ksLen n => Sys2Proof.Machine.execMexp grp dst ps psLen ks ksLen n s
  | .mexpn grp dst ps psLen ks ksLen n => Sys2Proof.Machine.execMexpn grp dst ps psLen ks ksLen n s

end Sys2Proof.Machine
end

