-- ==== Sys2Proof/Machine/Issue.lean ====
section
/-! DEFINITION. How the block answers the host's moves: a descriptor issued, bytes written or read, a
register read, reset. -/

namespace Sys2Proof.Machine

/-- The host issues a descriptor: refused with no effect while faulted (rule R220), else decoded and run,
or ended by the fault entry of the decode check that fails (rule R69). -/
def issue (d : Descriptor) (s : State) : Host.Outcome State Fault Refusal :=
  if faulted s = true then .next s
  else
    match decodeIssued s d with
    | .ok i => exec i s
    | .error c => .next (raiseFault s c (opcodeField d))

/-- The host makes a move. Reset is heeded (rule R240) and the register port read (rule R55) at any time; the
host reaches operand memory and issues descriptors only while `BUSY = 0` (rules R21, R55).  That a write takes effect while `FAULTED = 1` is the model's choice: rule R35 calls that
state quiescent and rule R55 asks only for `BUSY = 0` (log entry 21). -/
def makeMove (m : HostMove) (s : State) : Host.Outcome State Fault Refusal :=
  match m with
  | .reset contents => .next (resetMachine s contents)
  | .readRegister number => .next (hostReadRegister s number)
  | .read a n => if busy s = true then .refused .hostMoveWhileBusy else hostRead s a n
  | .write a bs => if busy s = true then .refused .hostMoveWhileBusy else hostWrite s a bs
  | .issue d => if busy s = true then .refused .hostMoveWhileBusy else issue d s

end Sys2Proof.Machine
end

