-- ==== Sys2Proof/Machine/Step.lean ====
section
/-! DEFINITION. One step: the host's next move. -/

namespace Sys2Proof.Machine

/-- One step: the host's next move is made; with none waiting the block stays idle (rules R21, R35). -/
def step (s : State) : Host.Outcome State Fault Refusal :=
  match s.host with
  | [] => .next s
  | m :: rest => makeMove m (hostAdvanced s rest)

/-- The state with an instruction's bits as the descriptor the host issues next (rule R60). -/
def State.withFetchWord (s : State) (nbits w : Nat) : State :=
  { s with host := .issue (descriptorOfNat (w % 2 ^ nbits)) :: s.host }

end Sys2Proof.Machine
end

