-- ==== Sys2Proof/Machine/Algorithms.lean ====
section
/-! DEFINITION. The algorithms the spec writes out beside the contracts the commands are defined by: CIOS
multiplication (rule R86), the batch inverse (rule R95), the three-pass batched affine addition (rule
R125) and the two-pass counting sort (rule R160). No command calls them; statements say that they meet
the contracts. -/

namespace Sys2Proof.Machine

/-- One pass of the CIOS loop over limb `i` of `y` (rule R86). -/
def ciosPass (c : Config) (x y i t : Nat) : Nat :=
  let t' := t + x * (y / 2 ^ (c.limbBits * i) % 2 ^ c.limbBits)
  let m := t' % 2 ^ c.limbBits * montMInv c % 2 ^ c.limbBits
  (t' + m * c.modulus) / 2 ^ c.limbBits

/-- The accumulator after the first `i` passes (rule R86). -/
def ciosPasses (c : Config) (x y : Nat) : Nat → Nat
  | 0 => 0
  | i + 1 => ciosPass c x y i (ciosPasses c x y i)

/-- CIOS-style Montgomery multiplication (rule R86). -/
def ciosMul (c : Config) (x y : Nat) : Nat :=
  let t := ciosPasses c x y (limbCount c)
  if c.modulus ≤ t then t - c.modulus else t

/-- The running products `pre[i]` and the final product (rule R95). -/
def prefixProducts (c : Config) : (acc : Nat) → List Nat → List Nat × Nat
  | acc, [] => ([], acc)
  | acc, x :: xs =>
    let r := prefixProducts c (if x = 0 then acc else fmul c acc x) xs
    (acc :: r.1, r.2)

/-- The back-substitution pass over the pairs `(x[i], pre[i])`: the outputs, and the inverse still to be
used for the elements before (rule R95). -/
def backSubstitute (c : Config) (inv : Nat) : List (Nat × Nat) → List Nat × Nat
  | [] => ([], inv)
  | (x, pre) :: rest =>
    let r := backSubstitute c inv rest
    if x = 0 then (0 :: r.1, r.2) else (fmul c r.2 pre :: r.1, fmul c r.2 x)

/-- Montgomery's batch inversion (rule R95): one inversion for the whole list. -/
def batchInverse (c : Config) (xs : List Nat) : List Nat :=
  let p := prefixProducts c (montOne c) xs
  (backSubstitute c (finv c p.2) (xs.zip p.1)).1

/-- The denominator a pair brings to the shared inversion: 0 for a pair that needs no division
(rule R125). -/
def pairDenominator (c : Config) (p q : Aff) : Nat :=
  if p = affZero ∨ q = affZero then 0
  else if p.x = q.x then (if fadd c p.y q.y = 0 then 0 else fadd c p.y p.y)
  else fsub c q.x p.x

/-- A pair finished with its own inverted denominator (rule R125). -/
def finishPair (c : Config) (p q : Aff) (inv : Nat) : Aff :=
  if p = affZero then q
  else if q = affZero then p
  else if p.x = q.x then
    if fadd c p.y q.y = 0 then affZero
    else chordPoint c p.x p.y q.x (fmul c (fmul c (mont c 3) (fsqr c p.x)) inv)
  else chordPoint c p.x p.y q.x (fmul c (fsub c q.y p.y) inv)

/-- The batched affine addition that shares one inversion (rule R125). -/
def batchAffineAdd (c : Config) (pqs : List (Aff × Aff)) : List Aff :=
  (pqs.zip (batchInverse c (pqs.map fun pq => pairDenominator c pq.1 pq.2))).map fun e =>
    finishPair c e.1.1 e.1.2 e.2

/-- The counting pass: `count[0 .. nb]` (rule R160). -/
def countingPass (nb : Nat) (es : List EntryWord) : List Nat :=
  es.foldl (fun count e =>
    if e = skipEntry then count
    else count.set (bucketIndex e) (count.getD (bucketIndex e) 0 + 1)) (List.replicate (nb + 1) 0)

/-- The prefix sums `off[0 .. nb]` of the counts (rule R160): `off[0]` is 0 whatever `count[0]` is. -/
def prefixSums : (acc : Nat) → List Nat → List Nat
  | acc, [] => [acc]
  | acc, n :: ns => acc :: prefixSums (acc + n) ns

/-- The scatter pass: the sorted array and the next free position of each bucket (rule R160). -/
def scatterPass (es : List EntryWord) (sorted : List EntryWord) (pos : List Nat) :
    List EntryWord × List Nat :=
  es.foldl (fun sp e =>
    if e = skipEntry then sp
    else
      (sp.1.set (sp.2.getD (bucketIndex e) 0) e,
        sp.2.set (bucketIndex e) (sp.2.getD (bucketIndex e) 0 + 1))) (sorted, pos)

/-- The two-pass counting sort (rule R160): count occurrences, prefix-sum offsets, scatter.  Bucket `b`
starts at `off[b−1]`, so the positions are the offsets one place later. -/
def countingSort (nb : Nat) (es : List EntryWord) : List EntryWord × List Nat :=
  let off := prefixSums 0 ((countingPass nb es).drop 1)
  ((scatterPass es (List.replicate (off.getD nb 0) skipEntry) (0 :: off)).1, off)

end Sys2Proof.Machine
end

