-- ==== Sys2Proof/Safety.lean ====
section
/-! DEFINITION. The terms claims are stated in: valid configurations (rules R141, R242), the operands of
each command as rule R68 lists them, what a fault or a result leaves in the state, the group of rule R110
as Mathlib has it, and the invariant every step keeps. -/

namespace Sys2Proof.Machine

/-! ### Configurations -/

/-- The field parameters of rule R242: an odd prime modulus. -/
abbrev FieldValid (c : Config) : Prop := c.modulus.Prime ∧ c.modulus % 2 = 1

/-- `B` is 32 or 64 (rule R11). -/
abbrev LimbValid (c : Config) : Prop := c.limbBits = 32 ∨ c.limbBits = 64

/-- `NR` is a quadratic nonresidue (rules R10, R242). -/
abbrev NonresidueValid (c : Config) : Prop :=
  c.nonresidue ^ ((c.modulus - 1) / 2) % c.modulus = c.modulus - 1

/-- The scheduling and dispatch parameters of rule R242. -/
abbrev DispatchValid (c : Config) : Prop :=
  (∀ l, l ≤ 33 → 1 ≤ windowWidth c l ∧ windowWidth c l ≤ 31) ∧
    1 ≤ c.minChunk ∧ c.minChunk ≤ c.maxChunk ∧ 1 ≤ c.concurrency ∧
    0 < c.scalarBytes ∧ c.scalarBytes % 8 = 0 ∧ c.memSize ≤ 2 ^ 32

/-- The curve parameter of rule R242: `b ≠ 0` (rule R110). -/
abbrev CurveValid (c : Config) : Prop := c.curveB % c.modulus ≠ 0

/-- The lattice conditions of rule R141 on the GLV parameters: `r ≥ 2` of (a), and (d) and (e). -/
abbrev LatticeValid (c : Config) : Prop :=
  2 ≤ c.groupOrder ∧ (c.v1 + c.v2 * c.lambda) % c.groupOrder = 0 ∧
    (c.u1 + c.u2 * c.lambda) % c.groupOrder = 0 ∧ glvDet c ≠ 0

/-- Condition (b) of rule R141: `β`, a canonical residue, has a value other than 1 whose cube is 1. -/
abbrev EndomorphismValid (c : Config) : Prop :=
  c.beta < c.modulus ∧ val c c.beta ^ 3 % c.modulus = 1 ∧ val c c.beta ≠ 1

/-- Condition (f) of rule R141: every split of a `k` below `r` fits `GLV_BITS`, which fit a scalar. -/
abbrev SplitsFit (c : Config) : Prop :=
  (∀ k, k < c.groupOrder → glvFits c k = true) ∧ c.glvBits ≤ 8 * c.scalarBytes

/-- A valid GLV parameter set (rule R141).  What its conditions (a) and (c) ask of the points the host gives is
`GlvPoint`. -/
abbrev GlvValid (c : Config) : Prop := LatticeValid c ∧ EndomorphismValid c ∧ SplitsFit c

/-- The configuration meets rule R242, item 1.  What is derived from `M` and `NR` there (`R1`, `R2`, `MINV`,
`S`, `T`, `NRT`) is computed, and `arenaDemand` meets rule R31 by its form. -/
abbrev ConfigValid (c : Config) : Prop :=
  FieldValid c ∧ LimbValid c ∧ NonresidueValid c ∧ CurveValid c ∧ DispatchValid c ∧
    (c.glvEnabled = true → GlvValid c)

/-! ### Descriptors -/

/-- The listed opcodes and how many operand words each command uses (rules R63, R68). -/
def operandCounts : List (Byte × Nat) :=
  [(0x10#8, 3), (0x11#8, 3), (0x12#8, 2), (0x13#8, 3), (0x14#8, 2), (0x15#8, 2),
    (0x16#8, 2), (0x17#8, 2), (0x18#8, 1), (0x19#8, 2), (0x1A#8, 3), (0x20#8, 3),
    (0x21#8, 3), (0x22#8, 2), (0x23#8, 2), (0x24#8, 2), (0x25#8, 3), (0x26#8, 2),
    (0x27#8, 2), (0x28#8, 1), (0x29#8, 4), (0x2A#8, 3), (0x30#8, 2), (0x31#8, 5),
    (0x40#8, 6), (0x41#8, 5), (0x42#8, 6), (0x43#8, 3), (0x44#8, 4), (0x50#8, 6),
    (0x51#8, 6)]

/-- The operand words `a0, a1, ...` of a descriptor (rule R61). -/
def operandWords (d : Descriptor) : List Word := [d.a0, d.a1, d.a2, d.a3, d.a4, d.a5]

/-- Is the opcode illegal on an instance: not listed, or a GLV opcode without GLV (rule R64)? -/
abbrev IllegalOpcode (glvEnabled : Bool) (op : Byte) : Prop :=
  operandCounts.lookup op = none ∨ (glvEnabled = false ∧ (op = 0x30#8 ∨ op = 0x31#8))

/-- Is a reserved bit set, or an operand word that the command does not use (rule R64)? -/
abbrev ReservedBitSet (d : Descriptor) : Prop :=
  reservedField d ≠ 0 ∨
    ((operandWords d).drop ((operandCounts.lookup (opcodeField d)).getD 6)).any (· != 0) = true

/-! ### Operands -/

/-- An address operand as rule R68 lists it: its alignment (rule R42), and how many objects of which size
stand at it. -/
structure AddressOperand where
  align : Nat
  addr : Word
  count : Nat
  size : Nat
deriving DecidableEq, Repr

/-- The address operands of a command in operand order (rule R68).  The size of `CHAIN`'s `ss` is not known
before its offset table is read, so it stands here with no objects (rule R43). -/
def addressOperands (cfg : Config) : Instr → List AddressOperand
  | .fadd _ dst x y => [⟨8, dst, 1, n8 cfg⟩, ⟨8, x, 1, n8 cfg⟩, ⟨8, y, 1, n8 cfg⟩]
  | .fsub _ dst x y => [⟨8, dst, 1, n8 cfg⟩, ⟨8, x, 1, n8 cfg⟩, ⟨8, y, 1, n8 cfg⟩]
  | .fneg _ dst x => [⟨8, dst, 1, n8 cfg⟩, ⟨8, x, 1, n8 cfg⟩]
  | .fmul _ dst x y => [⟨8, dst, 1, n8 cfg⟩, ⟨8, x, 1, n8 cfg⟩, ⟨8, y, 1, n8 cfg⟩]
  | .fsqr _ dst x => [⟨8, dst, 1, n8 cfg⟩, ⟨8, x, 1, n8 cfg⟩]
  | .ftom _ dst x => [⟨8, dst, 1, n8 cfg⟩, ⟨8, x, 1, n8 cfg⟩]
  | .ffromm _ dst x => [⟨8, dst, 1, n8 cfg⟩, ⟨8, x, 1, n8 cfg⟩]
  | .finv _ dst x => [⟨8, dst, 1, n8 cfg⟩, ⟨8, x, 1, n8 cfg⟩]
  | .fissq _ x => [⟨8, x, 1, n8 cfg⟩]
  | .fsqrt _ dst x => [⟨8, dst, 1, n8 cfg⟩, ⟨8, x, 1, n8 cfg⟩]
  | .fbinv _ dst src n => [⟨8, dst, n.toNat, n8 cfg⟩, ⟨8, src, n.toNat, n8 cfg⟩]
  | .padda _ dst p q => [⟨8, dst, 1, 2 * n8 cfg⟩, ⟨8, p, 1, 2 * n8 cfg⟩, ⟨8, q, 1, 2 * n8 cfg⟩]
  | .padd _ dst p q => [⟨8, dst, 1, 3 * n8 cfg⟩, ⟨8, p, 1, 3 * n8 cfg⟩, ⟨8, q, 1, 3 * n8 cfg⟩]
  | .pdbl _ dst p => [⟨8, dst, 1, 3 * n8 cfg⟩, ⟨8, p, 1, 3 * n8 cfg⟩]
  | .pneg _ dst p => [⟨8, dst, 1, 3 * n8 cfg⟩, ⟨8, p, 1, 3 * n8 cfg⟩]
  | .pnega _ dst p => [⟨8, dst, 1, 2 * n8 cfg⟩, ⟨8, p, 1, 2 * n8 cfg⟩]
  | .pmul _ dst p k => [⟨8, dst, 1, 3 * n8 cfg⟩, ⟨8, p, 1, 3 * n8 cfg⟩, ⟨8, k, 1, cfg.scalarBytes⟩]
  | .ptoaff _ dst p => [⟨8, dst, 1, 2 * n8 cfg⟩, ⟨8, p, 1, 3 * n8 cfg⟩]
  | .peq _ p q => [⟨8, p, 1, 3 * n8 cfg⟩, ⟨8, q, 1, 3 * n8 cfg⟩]
  | .pisz _ p => [⟨8, p, 1, 3 * n8 cfg⟩]
  | .pbadd _ dst ps qs n =>
    [⟨8, dst, n.toNat, 2 * n8 cfg⟩,
      ⟨8, ps, n.toNat, 2 * n8 cfg⟩,
      ⟨8, qs, n.toNat, 2 * n8 cfg⟩]
  | .pbtoaff _ dst src n => [⟨8, dst, n.toNat, 2 * n8 cfg⟩, ⟨8, src, n.toNat, 3 * n8 cfg⟩]
  | .glvsplit _ dst k => [⟨8, dst, 2, cfg.scalarBytes⟩, ⟨8, k, 1, cfg.scalarBytes⟩]
  | .glvexp _ dstP dstK ps ks n =>
    [⟨8, dstP, (2 * n.toNat), 2 * n8 cfg⟩,
      ⟨8, dstK, (2 * n.toNat), cfg.scalarBytes⟩,
      ⟨8, ps, n.toNat, 2 * n8 cfg⟩,
      ⟨8, ks, n.toNat, cfg.scalarBytes⟩]
  | .sched _ dstE dstC ks n c bits =>
    [⟨8, dstE, (roundCount cfg bits.toNat c.toNat * n.toNat), 8⟩,
      ⟨4, dstC, (roundCount cfg bits.toNat c.toNat), 4⟩,
      ⟨8, ks, n.toNat, cfg.scalarBytes⟩]
  | .bsort _ dstS dstO es n c =>
    [⟨8, dstS, n.toNat, 8⟩,
      ⟨4, dstO, (bucketCount cfg c.toNat + 1), 4⟩,
      ⟨8, es, n.toNat, 8⟩]
  | .chain _ dstB ss os ps n c =>
    [⟨8, dstB, (bucketCount cfg c.toNat), 2 * n8 cfg⟩,
      ⟨8, ss, 0, 8⟩,
      ⟨4, os, (bucketCount cfg c.toNat + 1), 4⟩,
      ⟨8, ps, n.toNat, 2 * n8 cfg⟩]
  | .bred _ dst bs c => [⟨8, dst, 1, 3 * n8 cfg⟩, ⟨8, bs, (bucketCount cfg c.toNat), 2 * n8 cfg⟩]
  | .rfold _ dst rs m _ => [⟨8, dst, 1, 3 * n8 cfg⟩, ⟨8, rs, m.toNat, 3 * n8 cfg⟩]
  | .mexp _ dst ps psLen ks ksLen _ =>
    [⟨8, dst, 1, 3 * n8 cfg⟩,
      ⟨8, ps, psLen.toNat, 1⟩,
      ⟨8, ks, ksLen.toNat, 1⟩]
  | .mexpn _ dst ps psLen ks ksLen _ =>
    [⟨8, dst, 1, 3 * n8 cfg⟩,
      ⟨8, ps, psLen.toNat, 1⟩,
      ⟨8, ks, ksLen.toNat, 1⟩]

/-- The fault of the first address operand that fails its check, alignment before range (rule R43). -/
def firstAddressFault (cfg : Config) : List AddressOperand → Option Cause
  | [] => none
  | p :: rest =>
    if p.addr.toNat % p.align ≠ 0 then some .misaligned
    else if p.count ≠ 0 ∧ cfg.memSize < p.addr.toNat + p.count * p.size then some .outOfRange
    else firstAddressFault cfg rest

/-- Every address operand of the command passes its check. -/
abbrev OperandsOk (cfg : Config) (i : Instr) : Prop :=
  firstAddressFault cfg (addressOperands cfg i) = none

/-- The command passes every check of rule R69 that precedes its own. -/
abbrev Admitted (cfg : Config) (i : Instr) : Prop := i.wellFormed cfg = true ∧ OperandsOk cfg i

/-- Where a command writes: the first address and the length of each output, from the operands rule R68
marks `w`.  A command may write less of an output (`BSORT`, rule R161), never more. -/
def outputs (cfg : Config) : Instr → List (Nat × Nat)
  | .fadd _ dst _ _ => [(dst.toNat, n8 cfg)]
  | .fsub _ dst _ _ => [(dst.toNat, n8 cfg)]
  | .fneg _ dst _ => [(dst.toNat, n8 cfg)]
  | .fmul _ dst _ _ => [(dst.toNat, n8 cfg)]
  | .fsqr _ dst _ => [(dst.toNat, n8 cfg)]
  | .ftom _ dst _ => [(dst.toNat, n8 cfg)]
  | .ffromm _ dst _ => [(dst.toNat, n8 cfg)]
  | .finv _ dst _ => [(dst.toNat, n8 cfg)]
  | .fissq _ _ => []
  | .fsqrt _ dst _ => [(dst.toNat, n8 cfg)]
  | .fbinv _ dst _ n => [(dst.toNat, n.toNat * (n8 cfg))]
  | .padda _ dst _ _ => [(dst.toNat, 2 * n8 cfg)]
  | .padd _ dst _ _ => [(dst.toNat, 3 * n8 cfg)]
  | .pdbl _ dst _ => [(dst.toNat, 3 * n8 cfg)]
  | .pneg _ dst _ => [(dst.toNat, 3 * n8 cfg)]
  | .pnega _ dst _ => [(dst.toNat, 2 * n8 cfg)]
  | .pmul _ dst _ _ => [(dst.toNat, 3 * n8 cfg)]
  | .ptoaff _ dst _ => [(dst.toNat, 2 * n8 cfg)]
  | .peq _ _ _ => []
  | .pisz _ _ => []
  | .pbadd _ dst _ _ n => [(dst.toNat, n.toNat * (2 * n8 cfg))]
  | .pbtoaff _ dst _ n => [(dst.toNat, n.toNat * (2 * n8 cfg))]
  | .glvsplit _ dst _ => [(dst.toNat, 2 * (cfg.scalarBytes))]
  | .glvexp _ dstP dstK _ _ n =>
    [(dstP.toNat, (2 * n.toNat) * (2 * n8 cfg)),
      (dstK.toNat, (2 * n.toNat) * (cfg.scalarBytes))]
  | .sched _ dstE dstC _ n c bits =>
    [(dstE.toNat, (roundCount cfg bits.toNat c.toNat * n.toNat) * (8)),
      (dstC.toNat, (roundCount cfg bits.toNat c.toNat) * (4))]
  | .bsort _ dstS dstO _ n c =>
    [(dstS.toNat, n.toNat * (8)),
      (dstO.toNat, (bucketCount cfg c.toNat + 1) * (4))]
  | .chain _ dstB _ _ _ _ c => [(dstB.toNat, (bucketCount cfg c.toNat) * (2 * n8 cfg))]
  | .bred _ dst _ _ => [(dst.toNat, 3 * n8 cfg)]
  | .rfold _ dst _ _ _ => [(dst.toNat, 3 * n8 cfg)]
  | .mexp _ dst _ _ _ _ _ => [(dst.toNat, 3 * n8 cfg)]
  | .mexpn _ dst _ _ _ _ _ => [(dst.toNat, 3 * n8 cfg)]

/-- Does an address lie outside every one of the spans? -/
def Outside (a : Nat) (spans : List (Nat × Nat)) : Prop :=
  ∀ sp ∈ spans, a < sp.1 ∨ sp.1 + sp.2 ≤ a

end Sys2Proof.Machine

namespace Sys2Proof

/-- The families of the opcode map (rule R63). -/
inductive Family where
  | field
  | curve
  | glv
  | stage
  | multiexp
deriving DecidableEq, Repr

/-- The family of a command: the files `40_field.md` to `45_multiexp.md`. -/
def Instr.family : Instr → Family
  | .fadd _ _ _ _ => .field
  | .fsub _ _ _ _ => .field
  | .fneg _ _ _ => .field
  | .fmul _ _ _ _ => .field
  | .fsqr _ _ _ => .field
  | .ftom _ _ _ => .field
  | .ffromm _ _ _ => .field
  | .finv _ _ _ => .field
  | .fissq _ _ => .field
  | .fsqrt _ _ _ => .field
  | .fbinv _ _ _ _ => .field
  | .padda _ _ _ _ => .curve
  | .padd _ _ _ _ => .curve
  | .pdbl _ _ _ => .curve
  | .pneg _ _ _ => .curve
  | .pnega _ _ _ => .curve
  | .pmul _ _ _ _ => .curve
  | .ptoaff _ _ _ => .curve
  | .peq _ _ _ => .curve
  | .pisz _ _ => .curve
  | .pbadd _ _ _ _ _ => .curve
  | .pbtoaff _ _ _ _ => .curve
  | .glvsplit _ _ _ => .glv
  | .glvexp _ _ _ _ _ _ => .glv
  | .sched _ _ _ _ _ _ _ => .stage
  | .bsort _ _ _ _ _ _ => .stage
  | .chain _ _ _ _ _ _ _ => .stage
  | .bred _ _ _ _ => .stage
  | .rfold _ _ _ _ _ => .stage
  | .mexp _ _ _ _ _ _ _ => .multiexp
  | .mexpn _ _ _ _ _ _ _ => .multiexp

/-- The commands that write `RES` (rule R22). -/
def Instr.writesRes : Instr → Bool
  | .fadd _ _ _ _ => false
  | .fsub _ _ _ _ => false
  | .fneg _ _ _ => false
  | .fmul _ _ _ _ => false
  | .fsqr _ _ _ => false
  | .ftom _ _ _ => false
  | .ffromm _ _ _ => false
  | .finv _ _ _ => false
  | .fissq _ _ => true
  | .fsqrt _ _ _ => false
  | .fbinv _ _ _ _ => false
  | .padda _ _ _ _ => false
  | .padd _ _ _ _ => false
  | .pdbl _ _ _ => false
  | .pneg _ _ _ => false
  | .pnega _ _ _ => false
  | .pmul _ _ _ _ => false
  | .ptoaff _ _ _ => false
  | .peq _ _ _ => true
  | .pisz _ _ => true
  | .pbadd _ _ _ _ _ => false
  | .pbtoaff _ _ _ _ => false
  | .glvsplit _ _ _ => true
  | .glvexp _ _ _ _ _ _ => false
  | .sched _ _ _ _ _ _ _ => false
  | .bsort _ _ _ _ _ _ => false
  | .chain _ _ _ _ _ _ _ => false
  | .bred _ _ _ _ => false
  | .rfold _ _ _ _ _ => false
  | .mexp _ _ _ _ _ _ _ => false
  | .mexpn _ _ _ _ _ _ _ => false

end Sys2Proof

namespace Sys2Proof.Machine

/-- Every number of a list is a canonical residue (rule R80). -/
abbrev Canonical (c : Config) (vs : List Nat) : Prop := ∀ v ∈ vs, v < c.modulus

/-! ### Values and classes -/

/-- The value a residue stands for (rule R80). -/
def residueValue (c : Config) (x : Nat) : ZMod c.modulus := (val c x : ZMod c.modulus)

/-- Two Jacobian triples of one class: both stand for `O`, or `X/Z²` and `Y/Z³` agree, cleared of their
denominators (rule R112). -/
def SameClass (c : Config) (p q : Jac) : Prop :=
  (p.z = 0 ∧ q.z = 0) ∨
    (p.z ≠ 0 ∧ q.z ≠ 0 ∧
      residueValue c p.x * residueValue c q.z ^ 2 = residueValue c q.x * residueValue c p.z ^ 2 ∧
      residueValue c p.y * residueValue c q.z ^ 3 = residueValue c q.y * residueValue c p.z ^ 3)

/-- The affine pair spells `O` or its values satisfy `y² = x³ + b` (rules R110, R111). -/
def OnCurveAff (c : Config) (p : Aff) : Prop :=
  p = affZero ∨ residueValue c p.y ^ 2 = residueValue c p.x ^ 3 + (c.curveB : ZMod c.modulus)

/-- The triple stands for `O` or for a point on the curve, the equation cleared of the powers of `Z`
(rules R110, R112). -/
def OnCurveJac (c : Config) (p : Jac) : Prop :=
  p.z = 0 ∨ residueValue c p.y ^ 2 =
    residueValue c p.x ^ 3 + (c.curveB : ZMod c.modulus) * residueValue c p.z ^ 6

/-! ### What a command leaves -/

/-- The command ends by the fault entry of rule R222 with this cause. -/
def Faults (i : Instr) (s : State) (c : Cause) : Prop :=
  exec i s = .next (raiseFault s c i.opcode)

/-- All registers, the configuration, the host's moves and what it has read are as they were; only operand memory, the workers
and the model's draw counter may differ. -/
def KeepsRegisters (s t : State) : Prop :=
  t.cfg = s.cfg ∧ t.status = s.status ∧ t.err = s.err ∧ t.res = s.res ∧ t.host = s.host ∧
    t.answer = s.answer

/-- Three canonical coordinates have been written at `dst`, and no other byte and no register has changed;
where the operands stand for elements of the group, the triple is of the class of `p` (rules R115,
R127). -/
def WroteClassOf (s t : State) (dst : Word) (onCurve : Prop) (p : Jac) : Prop :=
  KeepsRegisters s t ∧ ∃ q, Canonical s.cfg (jacCoords q) ∧
    t.mem = writeBytes s.mem dst.toNat (jacBytes s.cfg q) ∧ (onCurve → SameClass s.cfg q p)

/-- Two byte strings have been written, and no other byte, no register and no worker has changed; nothing is
said of a byte that lies in both (rule R47). -/
def WroteTwo (s t : State) (a : Nat) (bs : List Byte) (a' : Nat) (bs' : List Byte) : Prop :=
  KeepsRegisters s t ∧ t.workers = s.workers ∧
    ∀ b, ¬((a ≤ b ∧ b < a + bs.length) ∧ (a' ≤ b ∧ b < a' + bs'.length)) →
      readByte t.mem b = readByte (writeBytes (writeBytes s.mem a bs) a' bs') b

/-- What a command of opcode `op` may do to a state: it ends in the fault entry, or `STATUS` and `ERR` stay;
`RES` changes only if the command writes it, memory only inside the given spans, and the configuration,
the host's moves and what it has read never. -/
def Framed (s t : State) (op : Byte) (writesRes : Bool) (spans : List (Nat × Nat)) : Prop :=
  (∃ c, t = raiseFault s c op) ∨
    (t.cfg = s.cfg ∧ t.status = s.status ∧ t.err = s.err ∧ t.host = s.host ∧
      t.answer = s.answer ∧ (writesRes = false → t.res = s.res) ∧
      ∀ a, Outside a spans → readByte t.mem a = readByte s.mem a)

/-! ### The group (rule R110), as Mathlib's group of points of a Weierstrass curve -/

/-- `E: y² = x³ + b` over the integers modulo `M`. -/
abbrev curveOf (c : Config) : WeierstrassCurve.Affine (ZMod c.modulus) :=
  { a₁ := 0, a₂ := 0, a₃ := 0, a₄ := 0, a₆ := (c.curveB : ZMod c.modulus) }

/-- The stored affine pair stands for this group element (rule R111). -/
def AffStandsFor (c : Config) (p : Aff) (P : (curveOf c).Point) : Prop :=
  (p = affZero ∧ P = .zero) ∨
    (p ≠ affZero ∧ ∃ h, P = .some (residueValue c p.x) (residueValue c p.y) h)

/-- The stored Jacobian triple stands for this group element (rule R112). -/
def JacStandsFor (c : Config) [Fact c.modulus.Prime] (p : Jac) (P : (curveOf c).Point) : Prop :=
  (p.z = 0 ∧ P = .zero) ∨
    (p.z ≠ 0 ∧ ∃ h, P = .some (residueValue c p.x / residueValue c p.z ^ 2)
      (residueValue c p.y / residueValue c p.z ^ 3) h)

/-- `Σ k·P` over a list of scalars and the group elements they multiply. -/
def weightedSum (c : Config) [Fact c.modulus.Prime] (ks : List Nat)
    (Ps : List (curveOf c).Point) : (curveOf c).Point :=
  (List.zipWith (fun k P => k • P) ks Ps).sum

/-- What rule R141 asks of a point that enters a GLV command: its order divides `r`, and `φ` multiplies it
by `λ`. -/
def GlvPoint (c : Config) [Fact c.modulus.Prime] (p : Aff) (P : (curveOf c).Point) : Prop :=
  AffStandsFor c p P ∧ c.groupOrder • P = 0 ∧
    AffStandsFor c (endomorphism c p) (c.lambda • P)

/-! ### Chunk tasks -/

/-- `numChunks` (rule R192). -/
def chunkCount (cfg : Config) (n : Nat) : Nat := ceilDiv n (chunkSize cfg n)

/-- Chunk `j`: the indices `[j·chunkSize, min(n, (j+1)·chunkSize))` (rule R192). -/
def chunkAt (cfg : Config) (pks : List (Aff × Nat)) (j : Nat) : List (Aff × Nat) :=
  (pks.drop (j * chunkSize cfg pks.length)).take (chunkSize cfg pks.length)

/-- What a chunk task raises, if it raises: `ARENA_EXHAUSTED` before `GLV_BASIS` (rules R193, R196). -/
def taskFault (cfg : Config) (pks : List (Aff × Nat)) : Option Cause :=
  if cfg.arenaSize < taskDemand cfg pks.length then some .arenaExhausted
  else if cfg.glvEnabled && pks.any (fun pk => !glvFits cfg pk.2) then some .glvBasis
  else none

/-- Every chunk task of a multi-exponentiation runs to its end. -/
abbrev TasksFit (cfg : Config) (pks : List (Aff × Nat)) : Prop :=
  ∀ j, j < chunkCount cfg pks.length → taskFault cfg (chunkAt cfg pks j) = none

/-! ### The invariant -/

/-- `ERR` holds 0 or a cause code and an opcode (rule R24). -/
def ErrorWordOk (w : Word) : Prop :=
  w = 0 ∨ ∃ (c : Cause) (op : Byte), w = .ofNat 32 ((causeCode c).toNat + 256 * op.toNat)

/-- What holds in every state between two moves of the host: memory is in canonical form and below
`MEM_SIZE` (rule R28), `BUSY` and the reserved bits are 0 and `FAULTED` goes with `ERR` (rules R23, R24),
`RES` holds a predicate or two signs (rule R22), and every worker is idle (rules R30, R198). -/
def Inv (s : State) : Prop :=
  (Memory.wf s.mem ∧ ∀ c ∈ s.mem, c.1 < s.cfg.memSize) ∧
    (s.status = 0 ∨ s.status = 2) ∧ (s.status = 0 ↔ s.err = 0) ∧ ErrorWordOk s.err ∧
    s.res.toNat < 4 ∧
    s.workers.length = s.cfg.concurrency ∧ ∀ w ∈ s.workers, w.ap = 0

end Sys2Proof.Machine
end

