-- ==== Sys2Proof/Certificates/Slice0/Obligations.lean ====
section
/-! DEFINITION. The statements for the provers, each a proposition named after what it states. -/

open Sys2Proof Sys2Proof.Machine

/-! ### Encoding and the host's moves -/

/-- Decode and encode agree (rules R60 to R63): every command an instance has, with every operand and every
group selector, is read back from its descriptor and from its 28 bytes. -/
def Obligations.DecodeOfEncode : Prop :=
  ∀ (glv : Bool) (i : Instr), (glv || !i.isGlv) = true →
    decode glv (encode i) = .ok i ∧ decodeBytes glv (encodeBytes i) = .ok i

/-- A descriptor, or a byte string, that decodes is the one encoding of what it decodes to (rules R60 to
R65). -/
def Obligations.EncodeOfDecode : Prop :=
  ∀ (glv : Bool) (i : Instr),
    (∀ d, decode glv d = .ok i → encode i = d ∧ (glv || !i.isGlv) = true) ∧
    ∀ bs, decodeBytes glv bs = .ok i → encodeBytes i = bs

/-- Rule R64: an unlisted opcode (0x00 too) and a GLV opcode without GLV raise `ILLEGAL_OPCODE`; any other
descriptor with a reserved bit or an unused operand word that is not 0 raises `RESERVED_NONZERO`; every
other descriptor is a command, and no other exists. -/
def Obligations.IllegalEncodingsFault : Prop :=
  operandCounts.lookup 0x00#8 = none ∧
  ∀ (s : State) (d : Descriptor) (rest : List HostMove),
    s.host = .issue d :: rest → busy s = false → faulted s = false →
      (IllegalOpcode s.cfg.glvEnabled (opcodeField d) →
        step s = .next (raiseFault (hostAdvanced s rest) .illegalOpcode (opcodeField d))) ∧
      (¬IllegalOpcode s.cfg.glvEnabled (opcodeField d) → ReservedBitSet d →
        step s = .next (raiseFault (hostAdvanced s rest) .reservedNonzero (opcodeField d))) ∧
      (¬IllegalOpcode s.cfg.glvEnabled (opcodeField d) → ¬ReservedBitSet d →
        ∃ i, encode i = d ∧ step s = exec i (hostAdvanced s rest))

/-- Words written out from the encoding tables of rules R61 and R63, one of each family, decode to the
command they stand for; the first is the `FADD` of `95_test_vectors.md` program P4. -/
def Obligations.SampleWordsDecode : Prop :=
  decode false ⟨0x00000010#32, 0x18#32, 0x08#32, 0x10#32, 0, 0, 0⟩
      = .ok (.fadd 0 0x18#32 0x08#32 0x10#32) ∧
  decode false ⟨0x00000025#32, 0x90#32, 0x20#32, 0x88#32, 0, 0, 0⟩
      = .ok (.pmul 0 0x90#32 0x20#32 0x88#32) ∧
  decode true ⟨0x00000031#32, 0x80#32, 0x100#32, 0#32, 0x30#32, 3#32, 0⟩
      = .ok (.glvexp 0 0x80#32 0x100#32 0#32 0x30#32 3#32) ∧
  decode false ⟨0x00000042#32, 0x1E0#32, 0x1A0#32, 0x1D0#32, 0#32, 6#32, 2#32⟩
      = .ok (.chain 0 0x1E0#32 0x1A0#32 0x1D0#32 0#32 6#32 2#32) ∧
  decode false ⟨0x00000050#32, 0x280#32, 0#32, 0x60#32, 0x60#32, 0x30#32, 6#32⟩
      = .ok (.mexp 0 0x280#32 0#32 0x60#32 0x60#32 0x30#32 6#32) ∧
  descriptorBytes ⟨0x00000015#32, 0x20#32, 0, 0, 0, 0, 0⟩
      = [0x15#8, 0, 0, 0, 0x20#8, 0, 0, 0] ++ List.replicate 20 0

/-- A step runs the command the host's descriptor decodes to (rules R21, R69): when the host's next move
issues a descriptor, and the block is neither busy nor faulted, the step is the command's meaning in the
state whose waiting moves have lost that one. -/
def Obligations.StepRunsDecoded : Prop :=
  ∀ (s : State) (d : Descriptor) (rest : List HostMove) (i : Instr),
    s.host = .issue d :: rest → busy s = false → faulted s = false →
    decode s.cfg.glvEnabled d = .ok i → step s = exec i (hostAdvanced s rest)

/-- The host's other moves (rules R21, R25, R28, R45, R55): a write stores its bytes; a read of memory gives the
host the bytes there, one of the register port the register, at any time, and neither changes anything else.
The model's choices are the idle step (log entry 1), the stop of an access beyond `MEM_SIZE` (entry 3), the
refusal while busy (entry 4), that a write takes effect while `FAULTED = 1` too (entry 21), and where the host
keeps what it reads (entry 23). -/
def Obligations.HostMoves : Prop :=
  ∀ (s : State) (rest : List HostMove),
    (s.host = [] → step s = .next s) ∧
    (∀ a bs, s.host = .write a bs :: rest → busy s = false →
      (a + bs.length ≤ s.cfg.memSize → step s = .next (storeBytes (hostAdvanced s rest) a bs)) ∧
      (s.cfg.memSize < a + bs.length → step s = .fault .hostAccessOutsideMemory)) ∧
    (∀ a n, s.host = .read a n :: rest → busy s = false →
      (a + n ≤ s.cfg.memSize → step s = .next { s with
        host := rest, answer := .bytes ((List.range n).map fun i => readByte s.mem (a + i)) }) ∧
      (s.cfg.memSize < a + n → step s = .fault .hostAccessOutsideMemory)) ∧
    (∀ number, s.host = .readRegister number :: rest → step s = .next { s with
      host := rest, answer := .register (match number with
        | 0 => s.status &&& 0x3#32
        | 1 => s.err &&& 0xFFFF#32
        | 2 => s.res
        | _ => 0#32) }) ∧
    (∀ m, s.host = m :: rest → busy s = true → (∀ contents, m ≠ .reset contents) →
      (∀ number, m ≠ .readRegister number) → step s = .refused .hostMoveWhileBusy)

/-! ### Faults and reset -/

/-- Rule R220: while `FAULTED = 1` a descriptor is refused: it is not decoded and changes nothing; only the
host's list of moves has lost it. -/
def Obligations.FaultedRefusesCommands : Prop :=
  ∀ (s : State) (d : Descriptor) (rest : List HostMove),
    s.host = .issue d :: rest → busy s = false → faulted s = true →
    step s = .next (hostAdvanced s rest)

/-- The first fault is sticky (rules R24, R220, R223, R224): along every run without a reset, `STATUS`, `ERR`
and `RES` keep the values they had when `FAULTED` was set. -/
def Obligations.FaultIsSticky : Prop :=
  ∀ (k : Nat) (s t : State), faulted s = true →
    (∀ m ∈ s.host, ∀ contents, m ≠ .reset contents) →
    Host.Core.run Sys2Proof.core k s = .next t →
    faulted t = true ∧ t.status = s.status ∧ t.err = s.err ∧ t.res = s.res

/-- Rule R241: reset, applied in any state, clears `STATUS`, `ERR`, `RES` and every worker's `AP` and leaves the
configuration; operand memory may then hold any bytes at all. -/
def Obligations.ResetMoveClears : Prop :=
  ∀ (s : State) (rest : List HostMove),
    (∀ contents, s.host = .reset contents :: rest → ∃ t, step s = .next t ∧
      t.status = 0 ∧ t.err = 0 ∧ t.res = 0 ∧ t.cfg = s.cfg ∧ t.host = rest ∧
      t.workers.length = s.cfg.concurrency ∧ ∀ w ∈ t.workers, w.ap = 0) ∧
    ∀ m : Memory, Memory.wf m → (∀ c ∈ m, c.1 < s.cfg.memSize) →
      ∃ contents t, step { s with host := .reset contents :: rest } = .next t ∧ t.mem = m

/-- The reset state (rule R33): the three registers read 0 and every `AP` is 0.  That no byte of operand memory
is listed is the model's choice (log entry 2). -/
def Obligations.ResetState : Prop :=
  readPort State.reset 0 = 0 ∧ readPort State.reset 1 = 0 ∧ readPort State.reset 2 = 0 ∧
    State.reset.workers.length = State.reset.cfg.concurrency ∧
    (∀ w ∈ State.reset.workers, w.ap = 0) ∧ State.reset.mem = []

/-- Every step keeps the invariant (rules R22 to R24, R28, R30, R198): memory in canonical form and below
`MEM_SIZE`, `FAULTED` together with a recorded cause, reserved bits 0, `BUSY` 0 and every worker idle
between two moves of the host.  That no step leaves `BUSY` set is the model's inference (log entry 4). -/
def Obligations.StepKeepsInvariant : Prop :=
  ∀ s t : State, Inv s → step s = .next t → Inv t

/-- The reset state meets the invariant (rule R33).  That memory lists nothing there is the model's choice (log
entry 2). -/
def Obligations.ResetMeetsInvariant : Prop := Inv State.reset

/-- Every command ends in a next state, by its effect or by the fault entry (rules R35, R219, R222): it never
stops the machine, and without a fault `STATUS` and `ERR` stay. -/
def Obligations.EveryCommandEnds : Prop :=
  ∀ (i : Instr) (s : State), ∃ t, exec i s = .next t ∧
    ((∃ c, t = raiseFault s c i.opcode) ∨
      (t.cfg = s.cfg ∧ t.status = s.status ∧ t.err = s.err ∧ t.host = s.host ∧
        t.answer = s.answer))

/-- Rule R22: `FISSQ`, `PEQ` and `PISZ` write 1 or 0 to `RES`, `GLVSPLIT` two sign bits; no other command
writes it, and a command that faults does not: without the fault entry `STATUS` and `ERR` stay. -/
def Obligations.OnlyPredicatesWriteRes : Prop :=
  ∀ (i : Instr) (s t : State), exec i s = .next t →
    (i.opcode ∉ [0x18#8, 0x27#8, 0x28#8, 0x30#8] → t.res = s.res) ∧
    (i.opcode ∈ [0x18#8, 0x27#8, 0x28#8] →
      (∃ c, t = raiseFault s c i.opcode ∧ t.res = s.res) ∨
        (t.status = s.status ∧ t.err = s.err ∧ (t.res = 0#32 ∨ t.res = 1#32))) ∧
    (i.opcode = 0x30#8 →
      (∃ c, t = raiseFault s c i.opcode ∧ t.res = s.res) ∨
        (t.status = s.status ∧ t.err = s.err ∧ t.res.toNat < 4))

/-- What the fault entry of rule R222 leaves, as the register port shows it (rules R23 to R25, R211):
`FAULTED` without `BUSY`, the cause code with its kind in the high nibble, the opcode of the command,
reserved bits 0; memory, `RES` and every other part of the state as before. -/
def Obligations.FaultEntry : Prop :=
  ∀ (s : State) (c : Cause) (op : Byte),
    let t := raiseFault s c op
    readPort t 0 = 2#32 ∧ (readPort t 1).extractLsb' 0 8 = causeCode c ∧
      (readPort t 1).extractLsb' 8 8 = op ∧ (readPort t 1).extractLsb' 16 16 = 0#16 ∧
      (readPort t 1).extractLsb' 4 4 = (match causeKind c with
        | .configurationError => 1#4
        | .domainError => 2#4
        | .resourceError => 3#4) ∧
      readPort t 2 = readPort s 2 ∧ (∀ n, 2 < n → readPort t n = 0) ∧
      t = { s with err := t.err, status := t.status }

/-- The order of the static checks that follow the reserved bits (rules R43, R69, R217): the group selector,
the ranges of the small parameters, then every address operand in operand order, alignment before range.
The first that fails decides the fault, whatever memory holds.  That an empty array must be aligned too, and
that `CHAIN`'s `ss` is aligned in its place, is the model's inference (log entry 18). -/
def Obligations.StaticChecksInOrder : Prop :=
  ∀ (i : Instr) (s : State), (s.cfg.glvEnabled || !i.isGlv) = true →
    (groupOk i.grp = false → Faults i s .unknownGroup) ∧
    (groupOk i.grp = true → i.paramsOk s.cfg = false → Faults i s .badParam) ∧
    (groupOk i.grp = true → i.paramsOk s.cfg = true →
      ∀ c, firstAddressFault s.cfg (addressOperands s.cfg i) = some c → Faults i s c)

/-! ### Frames -/

/-- The frame of the field commands `FADD` to `FBINV`: outside the destination's bytes, computed from the
operand, memory is as before; only `FISSQ`, which stores nothing, may change `RES`; without a fault
`STATUS` and `ERR` stay; no arena changes. -/
def Obligations.FieldFrame : Prop :=
  ∀ (i : Instr) (s t : State), i.family = .field → exec i s = .next t →
    Framed s t i.opcode i.writesRes (outputs s.cfg i) ∧ t.workers = s.workers

/-- The frame of the curve commands `PADDA` to `PBTOAFF`: outside the destination's bytes memory is as
before; only `PEQ` and `PISZ`, which store nothing, may change `RES`; no arena changes. -/
def Obligations.CurveFrame : Prop :=
  ∀ (i : Instr) (s t : State), i.family = .curve → exec i s = .next t →
    Framed s t i.opcode i.writesRes (outputs s.cfg i) ∧ t.workers = s.workers

/-- The frame of `GLVSPLIT`, `GLVEXP`, `SCHED`, `BSORT`, `CHAIN`, `BRED` and `RFOLD`: outside the bytes of
their one or two destinations memory is as before; only `GLVSPLIT` may change `RES`; no arena changes. -/
def Obligations.GlvAndStageFrame : Prop :=
  ∀ (i : Instr) (s t : State), i.family = .glv ∨ i.family = .stage → exec i s = .next t →
    Framed s t i.opcode i.writesRes (outputs s.cfg i) ∧ t.workers = s.workers

/-- The frame of `MEXP` and `MEXPN`: outside the one point at the destination memory is as before, and `RES`
stays; `MEXPN` leaves the workers alone, `MEXP` leaves them alone or leaves all of them idle. -/
def Obligations.MultiexpFrame : Prop :=
  ∀ (i : Instr) (s t : State), i.family = .multiexp → exec i s = .next t →
    Framed s t i.opcode false (outputs s.cfg i) ∧
    (t.workers = s.workers ∨
      (i.opcode = 0x50#8 ∧ t.workers.length = s.cfg.concurrency ∧ ∀ w ∈ t.workers, w.ap = 0))

/-! ### Field commands -/

/-- `FADD`, `FSUB`, `FNEG` (rules R82 to R84) complete on canonical operands with the sum, the difference and
the negative modulo `M`, and trap on others (rule R46). -/
def Obligations.AddSubNegResults : Prop :=
  ∀ (s : State) (grp : Byte) (dst x y : Word),
    (Admitted s.cfg (.fadd grp dst x y) →
      (Canonical s.cfg [fieldAt s x.toNat, fieldAt s y.toNat] →
        exec (.fadd grp dst x y) s = .next (storeBytes s dst.toNat (leBytes (n8 s.cfg)
          ((fieldAt s x.toNat + fieldAt s y.toNat) % s.cfg.modulus)))) ∧
      (¬Canonical s.cfg [fieldAt s x.toNat, fieldAt s y.toNat] →
        Faults (.fadd grp dst x y) s .nonCanonical)) ∧
    (Admitted s.cfg (.fsub grp dst x y) →
      (Canonical s.cfg [fieldAt s x.toNat, fieldAt s y.toNat] →
        exec (.fsub grp dst x y) s = .next (storeBytes s dst.toNat (leBytes (n8 s.cfg)
          ((fieldAt s x.toNat + s.cfg.modulus - fieldAt s y.toNat) % s.cfg.modulus)))) ∧
      (¬Canonical s.cfg [fieldAt s x.toNat, fieldAt s y.toNat] →
        Faults (.fsub grp dst x y) s .nonCanonical)) ∧
    (Admitted s.cfg (.fneg grp dst x) →
      (Canonical s.cfg [fieldAt s x.toNat] →
        exec (.fneg grp dst x) s = .next (storeBytes s dst.toNat (leBytes (n8 s.cfg)
          ((s.cfg.modulus - fieldAt s x.toNat) % s.cfg.modulus)))) ∧
      (¬Canonical s.cfg [fieldAt s x.toNat] → Faults (.fneg grp dst x) s .nonCanonical))

/-- `FMUL`, `FSQR` (rules R85, R87) complete on canonical operands with the one residue `v` for which
`v·R ≡ x·y (mod M)`, and trap on others. -/
def Obligations.MultiplyResults : Prop :=
  ∀ (s : State) (grp : Byte) (dst x y : Word), FieldValid s.cfg →
    (Admitted s.cfg (.fmul grp dst x y) →
      (Canonical s.cfg [fieldAt s x.toNat, fieldAt s y.toNat] →
        ∃ v, v < s.cfg.modulus ∧
          v * montR s.cfg % s.cfg.modulus
            = fieldAt s x.toNat * fieldAt s y.toNat % s.cfg.modulus ∧
          exec (.fmul grp dst x y) s =
            .next (storeBytes s dst.toNat (leBytes (n8 s.cfg) v))) ∧
      (¬Canonical s.cfg [fieldAt s x.toNat, fieldAt s y.toNat] →
        Faults (.fmul grp dst x y) s .nonCanonical)) ∧
    (Admitted s.cfg (.fsqr grp dst x) →
      (Canonical s.cfg [fieldAt s x.toNat] →
        ∃ v, v < s.cfg.modulus ∧
          v * montR s.cfg % s.cfg.modulus
            = fieldAt s x.toNat * fieldAt s x.toNat % s.cfg.modulus ∧
          exec (.fsqr grp dst x) s =
            .next (storeBytes s dst.toNat (leBytes (n8 s.cfg) v))) ∧
      (¬Canonical s.cfg [fieldAt s x.toNat] → Faults (.fsqr grp dst x) s .nonCanonical))

/-- `FTOM` (rule R88) completes with `v·R mod M`, and `FFROMM` (rule R89) with the one integer `v` for which
`v·R ≡ x (mod M)`; both trap on an integer of at least `M`. -/
def Obligations.ConversionResults : Prop :=
  ∀ (s : State) (grp : Byte) (dst x : Word), FieldValid s.cfg →
    (Admitted s.cfg (.ftom grp dst x) →
      (Canonical s.cfg [fieldAt s x.toNat] →
        exec (.ftom grp dst x) s = .next (storeBytes s dst.toNat (leBytes (n8 s.cfg)
          (fieldAt s x.toNat * montR s.cfg % s.cfg.modulus)))) ∧
      (¬Canonical s.cfg [fieldAt s x.toNat] → Faults (.ftom grp dst x) s .nonCanonical)) ∧
    (Admitted s.cfg (.ffromm grp dst x) →
      (Canonical s.cfg [fieldAt s x.toNat] →
        ∃ v, v < s.cfg.modulus ∧ v * montR s.cfg % s.cfg.modulus = fieldAt s x.toNat ∧
          exec (.ffromm grp dst x) s =
            .next (storeBytes s dst.toNat (leBytes (n8 s.cfg) v))) ∧
      (¬Canonical s.cfg [fieldAt s x.toNat] → Faults (.ffromm grp dst x) s .nonCanonical))

/-- `FINV` (rule R90) completes on a non-zero canonical element with the residue `w` for which
`w·x ≡ R² (mod M)`, which stands for the inverse value; zero raises `INVERSE_OF_ZERO`. -/
def Obligations.InverseResult : Prop :=
  ∀ (s : State) (grp : Byte) (dst x : Word), FieldValid s.cfg →
    Admitted s.cfg (.finv grp dst x) →
    (¬Canonical s.cfg [fieldAt s x.toNat] → Faults (.finv grp dst x) s .nonCanonical) ∧
    (fieldAt s x.toNat = 0 → Faults (.finv grp dst x) s .inverseOfZero) ∧
    (Canonical s.cfg [fieldAt s x.toNat] → fieldAt s x.toNat ≠ 0 →
      ∃ w, 0 < w ∧ w < s.cfg.modulus ∧
        w * fieldAt s x.toNat % s.cfg.modulus = montR s.cfg * montR s.cfg % s.cfg.modulus ∧
        exec (.finv grp dst x) s = .next (storeBytes s dst.toNat (leBytes (n8 s.cfg) w)))

/-- `FISSQ` (rule R91) completes with `RES = 1` where Euler's power of the value is 1, and with `RES = 0`
elsewhere, zero included. -/
def Obligations.IsSquareResult : Prop :=
  ∀ (s : State) (grp : Byte) (x : Word), FieldValid s.cfg → Admitted s.cfg (.fissq grp x) →
    (¬Canonical s.cfg [fieldAt s x.toNat] → Faults (.fissq grp x) s .nonCanonical) ∧
    (Canonical s.cfg [fieldAt s x.toNat] →
      ∃ v, v < s.cfg.modulus ∧ v * montR s.cfg % s.cfg.modulus = fieldAt s x.toNat ∧
        exec (.fissq grp x) s = .next (setRes s
          (if v ^ ((s.cfg.modulus - 1) / 2) % s.cfg.modulus = 1 then 1#32 else 0#32)))

/-- `FSQRT` (rules R92, R98) completes on zero with zero and on a non-zero square with the one root whose
value is at most `(M−1)/2`; any other canonical element raises `SQRT_OF_NONRESIDUE`. -/
def Obligations.SquareRootResult : Prop :=
  ∀ (s : State) (grp : Byte) (dst x : Word), FieldValid s.cfg →
    Admitted s.cfg (.fsqrt grp dst x) →
    (¬Canonical s.cfg [fieldAt s x.toNat] → Faults (.fsqrt grp dst x) s .nonCanonical) ∧
    (fieldAt s x.toNat = 0 →
      exec (.fsqrt grp dst x) s = .next (storeBytes s dst.toNat (leBytes (n8 s.cfg) 0))) ∧
    (Canonical s.cfg [fieldAt s x.toNat] → fieldAt s x.toNat ≠ 0 →
      ∃ v, v < s.cfg.modulus ∧ v * montR s.cfg % s.cfg.modulus = fieldAt s x.toNat ∧
        (v ^ ((s.cfg.modulus - 1) / 2) % s.cfg.modulus ≠ 1 →
          Faults (.fsqrt grp dst x) s .sqrtOfNonresidue) ∧
        (v ^ ((s.cfg.modulus - 1) / 2) % s.cfg.modulus = 1 →
          ∃ r, 1 ≤ r ∧ r ≤ (s.cfg.modulus - 1) / 2 ∧ r * r % s.cfg.modulus = v ∧
            (∀ r', 1 ≤ r' → r' ≤ (s.cfg.modulus - 1) / 2 →
              r' * r' % s.cfg.modulus = v → r' = r) ∧
            exec (.fsqrt grp dst x) s = .next (storeBytes s dst.toNat
              (leBytes (n8 s.cfg) (r * montR s.cfg % s.cfg.modulus)))))

/-- `FBINV` (rule R94) completes on canonical elements: a zero stays zero, every other element becomes the
residue `FINV` writes; one element of at least `M` traps, and nothing is written. -/
def Obligations.BatchInverseResult : Prop :=
  ∀ (s : State) (grp : Byte) (dst src n : Word), FieldValid s.cfg →
    Admitted s.cfg (.fbinv grp dst src n) →
    (¬Canonical s.cfg (fieldsAt s src n.toNat) → Faults (.fbinv grp dst src n) s .nonCanonical) ∧
    (Canonical s.cfg (fieldsAt s src n.toNat) →
      ∃ ws : List Nat,
        List.Forall₂ (fun x w => (x = 0 → w = 0) ∧ (x ≠ 0 → w < s.cfg.modulus ∧
          w * x % s.cfg.modulus = montR s.cfg * montR s.cfg % s.cfg.modulus))
          (fieldsAt s src n.toNat) ws ∧
        exec (.fbinv grp dst src n) s = .next (storeBytes s dst.toNat
          (ws.flatMap (leBytes (n8 s.cfg)))))

/-- The laws of rule R97, on the functions the commands compute. -/
def Obligations.FieldLaws : Prop :=
  ∀ (c : Config), FieldValid c → ∀ x y z : Nat, x < c.modulus → y < c.modulus → z < c.modulus →
    fromMontgomery c (toMontgomery c x) = x ∧ fsub c (fadd c x y) y = x ∧
    fmul c x y = fmul c y x ∧ fmul c (fmul c x y) z = fmul c x (fmul c y z) ∧
    fmul c x (montOne c) = x ∧ (x ≠ 0 → fmul c x (finv c x) = montOne c) ∧
    (eulerOne c (val c x) = true → fsqr c (fsqrt c x) = x) ∧
    ((∀ r, r * r % c.modulus ≠ val c x) → eulerOne c (val c x) = false) ∧
    finvOrZero c 0 = 0 ∧ (x ≠ 0 → finvOrZero c x = finv c x)

/-- The limb loop of rule R86 meets the contract of rule R85 for either limb width, and its accumulator stays
below `2M`. -/
def Obligations.CiosMeetsContract : Prop :=
  ∀ (c : Config), FieldValid c → LimbValid c → ∀ x y : Nat, x < c.modulus → y < c.modulus →
    ciosMul c x y = fmul c x y ∧ ∀ i, i ≤ limbCount c → ciosPasses c x y i < 2 * c.modulus

/-- The batch algorithms with one inversion give what the rules define element by element: the batch inverse
(rules R94, R95), and the batched affine addition on points of the curve (rules R113, R125). -/
def Obligations.BatchAlgorithmsRefine : Prop :=
  ∀ (c : Config), FieldValid c →
    (∀ xs : List Nat, Canonical c xs → batchInverse c xs = xs.map (finvOrZero c)) ∧
    ∀ pqs : List (Aff × Aff),
      (∀ pq ∈ pqs, Canonical c (affCoords pq.1 ++ affCoords pq.2) ∧ OnCurveAff c pq.1 ∧
        OnCurveAff c pq.2) →
      batchAffineAdd c pqs = pqs.map fun pq => addAffine c pq.1 pq.2

/-- Tonelli–Shanks as rule R93 writes it ends within `S` passes in the canonical root of rule R92, for every
non-zero square value and every nonresidue `NR`. -/
def Obligations.TonelliFindsRoot : Prop :=
  ∀ (c : Config), FieldValid c → NonresidueValid c → ∀ v : Nat, v < c.modulus →
    v ^ ((c.modulus - 1) / 2) % c.modulus = 1 →
    1 ≤ tonelliRoot c v ∧ tonelliRoot c v ≤ (c.modulus - 1) / 2 ∧
      tonelliRoot c v * tonelliRoot c v % c.modulus = v

/-! ### Curve commands -/

/-- `PADDA` (rules R113, R114) completes on canonical operands, on the curve or not, case by case: an
infinity gives the other operand, opposite points give `(0,0)`, two points of different `x` give the third
point of the chord, whose slope `m` satisfies `m·(x2−x1) = y2−y1`, and otherwise, as for a point added to
itself, that of the tangent, whose slope satisfies `m·2·y1 = 3·x1²`.  Only where `2·y1` is 0 there, which no
two points on the curve bring about, is the result left open (log entry 8). -/
def Obligations.AffineAddResult : Prop :=
  ∀ (s : State) (grp : Byte) (dst p q : Word), FieldValid s.cfg →
    Admitted s.cfg (.padda grp dst p q) →
    let a := affAt s p.toNat
    let b := affAt s q.toNat
    let c := s.cfg
    (¬Canonical c (affCoords a ++ affCoords b) → Faults (.padda grp dst p q) s .nonCanonical) ∧
    (Canonical c (affCoords a ++ affCoords b) →
      ∃ r : Aff, Canonical c (affCoords r) ∧
        exec (.padda grp dst p q) s =
          .next (storeBytes s dst.toNat (leBytes (n8 c) r.x ++ leBytes (n8 c) r.y)) ∧
        (if a = affZero then r = b
        else if b = affZero then r = a
        else if a.x = b.x ∧ (a.y + b.y) % c.modulus = 0 then r = affZero
        else if a.x ≠ b.x then
          ∃ m, m < c.modulus ∧ fmul c m (fsub c b.x a.x) = fsub c b.y a.y ∧
            r = chordPoint c a.x a.y b.x m
        else (a.y + a.y) % c.modulus ≠ 0 →
          ∃ m, m < c.modulus ∧
            fmul c m (fadd c a.y a.y) = fmul c (mont c 3) (fsqr c a.x) ∧
            r = chordPoint c a.x a.y b.x m))

/-- `PNEG` (rule R119) and `PNEGA` (rule R120) complete on canonical operands with `y` replaced by `−y mod M`
and the other coordinates copied. -/
def Obligations.NegationResults : Prop :=
  ∀ (s : State) (grp : Byte) (dst p : Word),
    (Admitted s.cfg (.pneg grp dst p) →
      (Canonical s.cfg (jacCoords (jacAt s p.toNat)) →
        exec (.pneg grp dst p) s = .next (storeBytes s dst.toNat
          (leBytes (n8 s.cfg) (jacAt s p.toNat).x ++
            leBytes (n8 s.cfg) ((s.cfg.modulus - (jacAt s p.toNat).y) % s.cfg.modulus) ++
            leBytes (n8 s.cfg) (jacAt s p.toNat).z))) ∧
      (¬Canonical s.cfg (jacCoords (jacAt s p.toNat)) →
        Faults (.pneg grp dst p) s .nonCanonical)) ∧
    (Admitted s.cfg (.pnega grp dst p) →
      (Canonical s.cfg (affCoords (affAt s p.toNat)) →
        exec (.pnega grp dst p) s = .next (storeBytes s dst.toNat
          (leBytes (n8 s.cfg) (affAt s p.toNat).x ++
            leBytes (n8 s.cfg) ((s.cfg.modulus - (affAt s p.toNat).y) % s.cfg.modulus)))) ∧
      (¬Canonical s.cfg (affCoords (affAt s p.toNat)) →
        Faults (.pnega grp dst p) s .nonCanonical))

/-- `PADD` (rule R117) and `PDBL` (rule R118) complete on canonical operands with three canonical
coordinates; on the curve they are some triple of the class the formulas of rule R116 give, which
`JacobianFormulasAdd` says is that of the sum; off the curve they are unspecified (rules R115, R127). -/
def Obligations.JacobianAddDoubleResults : Prop :=
  ∀ (s : State) (grp : Byte) (dst p q : Word), FieldValid s.cfg →
    (Admitted s.cfg (.padd grp dst p q) →
      (Canonical s.cfg (jacCoords (jacAt s p.toNat) ++ jacCoords (jacAt s q.toNat)) →
        ∃ t, exec (.padd grp dst p q) s = .next t ∧ t.workers = s.workers ∧
          WroteClassOf s t dst
            (OnCurveJac s.cfg (jacAt s p.toNat) ∧ OnCurveJac s.cfg (jacAt s q.toNat))
            (jadd s.cfg (jacAt s p.toNat) (jacAt s q.toNat))) ∧
      (¬Canonical s.cfg (jacCoords (jacAt s p.toNat) ++ jacCoords (jacAt s q.toNat)) →
        Faults (.padd grp dst p q) s .nonCanonical)) ∧
    (Admitted s.cfg (.pdbl grp dst p) →
      (Canonical s.cfg (jacCoords (jacAt s p.toNat)) →
        ∃ t, exec (.pdbl grp dst p) s = .next t ∧ t.workers = s.workers ∧
          WroteClassOf s t dst (OnCurveJac s.cfg (jacAt s p.toNat))
            (jdbl s.cfg (jacAt s p.toNat))) ∧
      (¬Canonical s.cfg (jacCoords (jacAt s p.toNat)) → Faults (.pdbl grp dst p) s .nonCanonical))

/-- `PMUL` (rule R121) completes on a canonical point and any scalar with a triple of the class the
double-and-add loop gives, which `ScalarMultipleLoop` says is that of `k·P`. -/
def Obligations.ScalarMultipleResult : Prop :=
  ∀ (s : State) (grp : Byte) (dst p k : Word), FieldValid s.cfg →
    Admitted s.cfg (.pmul grp dst p k) →
    (Canonical s.cfg (jacCoords (jacAt s p.toNat)) →
      ∃ t, exec (.pmul grp dst p k) s = .next t ∧ t.workers = s.workers ∧
        WroteClassOf s t dst (OnCurveJac s.cfg (jacAt s p.toNat))
          (jmul s.cfg (jacAt s p.toNat) (scalarAt s k.toNat))) ∧
    (¬Canonical s.cfg (jacCoords (jacAt s p.toNat)) → Faults (.pmul grp dst p k) s .nonCanonical)

/-- `PTOAFF` (rule R122) completes on a canonical triple: `z = 0` gives `(0,0)`, any other `z` the one pair
with `x·z² = X` and `y·z³ = Y`; it never inverts zero. -/
def Obligations.NormaliseResult : Prop :=
  ∀ (s : State) (grp : Byte) (dst p : Word), FieldValid s.cfg →
    Admitted s.cfg (.ptoaff grp dst p) →
    let c := s.cfg
    let j := jacAt s p.toNat
    (¬Canonical c (jacCoords j) → Faults (.ptoaff grp dst p) s .nonCanonical) ∧
    (Canonical c (jacCoords j) → ∃ r : Aff, Canonical c (affCoords r) ∧
      exec (.ptoaff grp dst p) s =
        .next (storeBytes s dst.toNat (leBytes (n8 c) r.x ++ leBytes (n8 c) r.y)) ∧
      (j.z = 0 → r = affZero) ∧
      (j.z ≠ 0 → fmul c r.x (fsqr c j.z) = j.x ∧
        fmul c r.y (fmul c (fsqr c j.z) j.z) = j.y))

/-- `PEQ` (rule R123) completes with `RES = 1` exactly where the two triples are of one class, `PISZ` (rule
R124) exactly where `z = 0`; a coordinate of at least `M` traps. -/
def Obligations.PointPredicateResults : Prop :=
  ∀ (s : State) (grp : Byte) (p q : Word), FieldValid s.cfg →
    (Admitted s.cfg (.peq grp p q) →
      (¬Canonical s.cfg (jacCoords (jacAt s p.toNat) ++ jacCoords (jacAt s q.toNat)) →
        Faults (.peq grp p q) s .nonCanonical) ∧
      (Canonical s.cfg (jacCoords (jacAt s p.toNat) ++ jacCoords (jacAt s q.toNat)) →
        (SameClass s.cfg (jacAt s p.toNat) (jacAt s q.toNat) →
          exec (.peq grp p q) s = .next (setRes s 1#32)) ∧
        (¬SameClass s.cfg (jacAt s p.toNat) (jacAt s q.toNat) →
          exec (.peq grp p q) s = .next (setRes s 0#32)))) ∧
    (Admitted s.cfg (.pisz grp p) →
      (¬Canonical s.cfg (jacCoords (jacAt s p.toNat)) → Faults (.pisz grp p) s .nonCanonical) ∧
      (Canonical s.cfg (jacCoords (jacAt s p.toNat)) →
        exec (.pisz grp p) s =
          .next (setRes s (if (jacAt s p.toNat).z = 0 then 1#32 else 0#32))))

/-- `PBADD` (rule R125) completes with exactly what `PADDA` gives for every pair, and `PBTOAFF` (rule R126)
with exactly what `PTOAFF` gives for every triple; one coordinate of at least `M` traps. -/
def Obligations.PointBatchResults : Prop :=
  ∀ (s : State) (grp : Byte) (dst ps qs n : Word),
    (Admitted s.cfg (.pbadd grp dst ps qs n) →
      (Canonical s.cfg (affsCoords (affsAt s ps n.toNat ++ affsAt s qs n.toNat)) →
        exec (.pbadd grp dst ps qs n) s = .next (storeBytes s dst.toNat
          ((List.range n.toNat).flatMap fun i => affBytes s.cfg
            (addAffine s.cfg (affAt s (ps.toNat + i * (2 * n8 s.cfg)))
              (affAt s (qs.toNat + i * (2 * n8 s.cfg))))))) ∧
      (¬Canonical s.cfg (affsCoords (affsAt s ps n.toNat ++ affsAt s qs n.toNat)) →
        Faults (.pbadd grp dst ps qs n) s .nonCanonical)) ∧
    (Admitted s.cfg (.pbtoaff grp dst ps n) →
      (Canonical s.cfg (jacsCoords (jacsAt s ps n.toNat)) →
        exec (.pbtoaff grp dst ps n) s = .next (storeBytes s dst.toNat
          ((List.range n.toNat).flatMap fun i => affBytes s.cfg
            (toAffine s.cfg (jacAt s (ps.toNat + i * (3 * n8 s.cfg))))))) ∧
      (¬Canonical s.cfg (jacsCoords (jacsAt s ps n.toNat)) →
        Faults (.pbtoaff grp dst ps n) s .nonCanonical))

/-- Scaling `(X, Y, Z)` to `(s²X, s³Y, sZ)` stays in the class, and `PTOAFF`, `PEQ` and `PISZ` give the same
answer for every triple of a class (rules R112, R115). -/
def Obligations.ClassesAreRespected : Prop :=
  ∀ (c : Config), FieldValid c → ∀ p p' q : Jac, Canonical c (jacCoords p) →
    Canonical c (jacCoords p') → Canonical c (jacCoords q) →
    (∀ k, 0 < k → k < c.modulus → SameClass c (scaleJac c k p) p) ∧
    (SameClass c p p' →
      toAffine c p = toAffine c p' ∧ jacEq c p q = jacEq c p' q ∧ jacEq c q p = jacEq c q p' ∧
        (p.z = 0 ↔ p'.z = 0))

/-- `addAffine` is the group law of `y² = x³ + b` on stored points (rules R110, R111, R113): what stands for
`P` and `Q` is added to what stands for `P + Q`, and it is canonical. -/
def Obligations.AddAffineIsGroupLaw : Prop :=
  ∀ (c : Config) [Fact c.modulus.Prime], c.modulus % 2 = 1 →
    ∀ (p q : Aff) (P Q : (curveOf c).Point),
      Canonical c (affCoords p ++ affCoords q) → AffStandsFor c p P → AffStandsFor c q Q →
      AffStandsFor c (addAffine c p q) (P + Q) ∧ Canonical c (affCoords (addAffine c p q)) ∧
        AffStandsFor c (negAffine c p) (-P)

/-- The formulas of rule R116 are the group law on Jacobian triples (rules R110, R112, R115). -/
def Obligations.JacobianFormulasAdd : Prop :=
  ∀ (c : Config) [Fact c.modulus.Prime], c.modulus % 2 = 1 →
    ∀ (p q : Jac) (P Q : (curveOf c).Point),
      Canonical c (jacCoords p ++ jacCoords q) → JacStandsFor c p P → JacStandsFor c q Q →
      JacStandsFor c (jadd c p q) (P + Q) ∧ JacStandsFor c (jdbl c p) (P + P) ∧
        JacStandsFor c (negJac c p) (-P) ∧
        Canonical c (jacCoords (jadd c p q) ++ jacCoords (jdbl c p))

/-- The double-and-add loop of rule R121 computes `k·P` for every scalar of the stored width, without reducing
it. -/
def Obligations.ScalarMultipleLoop : Prop :=
  ∀ (c : Config) [Fact c.modulus.Prime], c.modulus % 2 = 1 →
    ∀ (p : Jac) (P : (curveOf c).Point) (k : Nat),
      Canonical c (jacCoords p) → JacStandsFor c p P → k < 2 ^ (8 * c.scalarBytes) →
      JacStandsFor c (jmul c p k) (k • P)

/-! ### GLV commands -/

/-- The split of rule R142: the two coordinates are rounded to nearest, ties upward, in exact arithmetic, and
`k1 + k2·λ ≡ k (mod r)` (rule R141 (d)). -/
def Obligations.GlvSplitLaws : Prop :=
  ∀ (c : Config), LatticeValid c → ∀ k : Nat,
    (∃ c1 c2 : Int,
      c1 = ⌊((k % c.groupOrder : Nat) : ℚ) * c.u2 / (glvDet c : ℚ) + 1 / 2⌋ ∧
      c2 = ⌊-((k % c.groupOrder : Nat) : ℚ) * c.v2 / (glvDet c : ℚ) + 1 / 2⌋ ∧
      (glvSplit c k).1 = ((k % c.groupOrder : Nat) : Int) - c1 * c.v1 - c2 * c.u1 ∧
      (glvSplit c k).2 = -(c1 * c.v2 + c2 * c.u2)) ∧
    ((glvSplit c k).1 + (glvSplit c k).2 * c.lambda - k) % c.groupOrder = 0

/-- `GLVSPLIT` (rule R143) completes where both magnitudes fit `GLV_BITS`: it stores them and puts their signs
into `RES`; elsewhere it raises `GLV_BASIS`.  Where `GLV_BITS` exceeds `8·scalarBytes`, on no valid instance,
what is stored of a magnitude is the model's inference (log entry 19), and where `D` or `r` is 0, on no valid
instance either, what the split is is the model's choice (log entry 24). -/
def Obligations.GlvSplitResult : Prop :=
  ∀ (s : State) (grp : Byte) (dst k : Word), Admitted s.cfg (.glvsplit grp dst k) →
    let k1 := (glvSplit s.cfg (scalarAt s k.toNat)).1
    let k2 := (glvSplit s.cfg (scalarAt s k.toNat)).2
    (k1.natAbs < 2 ^ s.cfg.glvBits ∧ k2.natAbs < 2 ^ s.cfg.glvBits →
      exec (.glvsplit grp dst k) s = .next (setRes
        (storeBytes s dst.toNat
          (leBytes s.cfg.scalarBytes k1.natAbs ++ leBytes s.cfg.scalarBytes k2.natAbs))
        (.ofNat 32 ((if k1 < 0 then 1 else 0) + 2 * (if k2 < 0 then 1 else 0))))) ∧
    (2 ^ s.cfg.glvBits ≤ k1.natAbs ∨ 2 ^ s.cfg.glvBits ≤ k2.natAbs →
      Faults (.glvsplit grp dst k) s .glvBasis)

/-- `GLVEXP` (rule R145) completes on canonical points whose scalars' splits fit: entries `2i` and `2i+1` are
`±P` with `|k1|` and `±φ(P)` with `|k2|`, the sign folded into the point.  Bytes that the two outputs share
are left open (rule R47); magnitudes are split and stored as in `GlvSplitResult` (log entries 19
and 24). -/
def Obligations.GlvExpandResult : Prop :=
  ∀ (s : State) (grp : Byte) (dstP dstK ps ks n : Word),
    Admitted s.cfg (.glvexp grp dstP dstK ps ks n) →
    let c := s.cfg
    let point := fun i => affAt s (ps.toNat + i * (2 * n8 c))
    let split := fun i => glvSplit c (scalarAt s (ks.toNat + i * c.scalarBytes))
    let fits := ∀ i, i < n.toNat →
      (split i).1.natAbs < 2 ^ c.glvBits ∧ (split i).2.natAbs < 2 ^ c.glvBits
    let fold := fun (k : Int) (p : Aff) =>
      if k < 0 then (⟨p.x, (c.modulus - p.y) % c.modulus⟩ : Aff) else p
    (¬Canonical c (affsCoords (affsAt s ps n.toNat)) →
      Faults (.glvexp grp dstP dstK ps ks n) s .nonCanonical) ∧
    (Canonical c (affsCoords (affsAt s ps n.toNat)) →
      (¬fits → Faults (.glvexp grp dstP dstK ps ks n) s .glvBasis) ∧
      (fits → ∃ t, exec (.glvexp grp dstP dstK ps ks n) s = .next t ∧
        WroteTwo s t
          dstP.toNat ((List.range n.toNat).flatMap fun i =>
            affBytes c (fold (split i).1 (point i)) ++
              affBytes c (fold (split i).2 ⟨fmul c c.beta (point i).x, (point i).y⟩))
          dstK.toNat ((List.range n.toNat).flatMap fun i =>
            leBytes c.scalarBytes (split i).1.natAbs ++
              leBytes c.scalarBytes (split i).2.natAbs)))

/-- The law of rule R146: for a valid basis and points whose order divides `r` and on which `φ` is `λ`, the
expanded points and magnitudes have the sum of the points and scalars they come from. -/
def Obligations.GlvExpansionKeepsSum : Prop :=
  ∀ (c : Config) [Fact c.modulus.Prime], c.modulus % 2 = 1 → LatticeValid c →
    ∀ (pks : List (Aff × Nat)) (Ps : List (curveOf c).Point),
      Canonical c (affsCoords (pks.map Prod.fst)) →
      List.Forall₂ (fun pk P => GlvPoint c pk.1 P) pks Ps →
      ∃ Qs : List (curveOf c).Point,
        List.Forall₂ (fun e Q => AffStandsFor c e.1 Q) (glvExpand c pks) Qs ∧
        weightedSum c ((glvExpand c pks).map Prod.snd) Qs = weightedSum c (pks.map Prod.snd) Ps

/-! ### Stage commands -/

/-- `SCHED` (rule R159) completes where every scalar is below `2^bits`: round by round and point by point the
entry of the digit, and per round the number of entries that are not `SKIP`; elsewhere it raises
`SCALAR_RANGE`.  Bytes that the two outputs share are left open (rule R47). -/
def Obligations.ScheduleResult : Prop :=
  ∀ (s : State) (grp : Byte) (dstE dstC ks n c bits : Word),
    Admitted s.cfg (.sched grp dstE dstC ks n c bits) →
    let m := roundCount s.cfg bits.toNat c.toNat
    let digit := fun i r =>
      (scalarDigits s.cfg c.toNat m (scalarAt s (ks.toNat + i * s.cfg.scalarBytes))).getD r 0
    ((∃ i, i < n.toNat ∧ 2 ^ bits.toNat ≤ scalarAt s (ks.toNat + i * s.cfg.scalarBytes)) →
      Faults (.sched grp dstE dstC ks n c bits) s .scalarRange) ∧
    ((∀ i, i < n.toNat → scalarAt s (ks.toNat + i * s.cfg.scalarBytes) < 2 ^ bits.toNat) →
      ∃ t, exec (.sched grp dstE dstC ks n c bits) s = .next t ∧
        WroteTwo s t
          dstE.toNat ((List.range m).flatMap fun r => (List.range n.toNat).flatMap fun i =>
            leBytes 8 (if digit i r = 0 then 2 ^ 64 - 1
              else i + (digit i r).natAbs * 2 ^ 32 + (if digit i r < 0 then 2 ^ 63 else 0)))
          dstC.toNat ((List.range m).flatMap fun r =>
            leBytes 4 ((List.range n.toNat).countP fun i => digit i r ≠ 0)))

/-- The entries of rule R155 and the digits of rules R156 to R158: an entry holds its point index, the digit's
magnitude and its sign and is not `SKIP`; the digits of a scalar below `2^bits` add up to it, their
magnitudes lie in `1 .. NB(c)`, unsigned digits are the scalar's windows, and signed digits lie in
`−(2^(c−1) − 1) .. 2^(c−1)`, which leaves one choice of digits. -/
def Obligations.DigitsAndEntries : Prop :=
  ∀ (cfg : Config) (c : Nat), 1 ≤ c → c ≤ 31 →
    (∀ (i : Nat) (d : Int), i < 2 ^ 32 → d ≠ 0 → d.natAbs ≤ bucketCount cfg c →
      (d < 0 → cfg.signedDigits = true) →
      pointIndex (scheduleEntry i d) = i ∧ bucketIndex (scheduleEntry i d) = d.natAbs ∧
        entrySign (scheduleEntry i d) = decide (d < 0) ∧ scheduleEntry i d ≠ skipEntry) ∧
    (∀ bits k, k < 2 ^ bits →
      let m := roundCount cfg bits c
      let ds := scalarDigits cfg c m k
      ds.length = m ∧
        ((List.range m).map fun r => ds.getD r 0 * 2 ^ (r * c)).sum = (k : Int) ∧
        (∀ d ∈ ds, d ≠ 0 → 1 ≤ d.natAbs ∧ d.natAbs ≤ bucketCount cfg c) ∧
        (cfg.signedDigits = true → ∀ d ∈ ds, -((2 : Int) ^ (c - 1) - 1) ≤ d ∧ d ≤ 2 ^ (c - 1)) ∧
        (cfg.signedDigits = false → ∀ r, r < m → ds.getD r 0 = ((k / 2 ^ (r * c) % 2 ^ c : Nat) : Int)))

/-- `BSORT` (rule R161) completes where every entry is `SKIP` or names a bucket of the width: it writes the
sorted live entries, no more, and the offset table; elsewhere it raises `BAD_ENTRY`.  Bytes that the two
outputs share are left open (rule R47).  That offsets over the unwritten tail of `dstS` are stored, the output
being the live entries only, is the model's inference (log entry 7). -/
def Obligations.SortResult : Prop :=
  ∀ (s : State) (grp : Byte) (dstS dstO es n c : Word),
    Admitted s.cfg (.bsort grp dstS dstO es n c) →
    let nb := bucketCount s.cfg c.toNat
    let entries := entriesAt s es n.toNat
    let ok := ∀ e ∈ entries, e ≠ skipEntry → 1 ≤ bucketIndex e ∧ bucketIndex e ≤ nb
    (¬ok → Faults (.bsort grp dstS dstO es n c) s .badEntry) ∧
    (ok → ∃ t, exec (.bsort grp dstS dstO es n c) s = .next t ∧
      WroteTwo s t
        dstS.toNat ((List.range nb).flatMap fun b =>
          (entries.filter fun e => e ≠ skipEntry ∧ bucketIndex e = b + 1).flatMap fun e =>
            leBytes 8 e.toNat)
        dstO.toNat ((List.range (nb + 1)).flatMap fun b =>
          leBytes 4 (entries.countP fun e => e ≠ skipEntry ∧ bucketIndex e ≤ b)))

/-- The two-pass counting sort of rule R160 gives the sorted entries and the offsets; the sort is a
permutation of the live entries, in rising bucket order, stable within a bucket, and the last offset is the
round's live count (rule R162 (c), (d)). -/
def Obligations.CountingSortLaws : Prop :=
  ∀ (nb : Nat) (es : List EntryWord),
    (∀ e ∈ es, e ≠ skipEntry → 1 ≤ bucketIndex e ∧ bucketIndex e ≤ nb) →
    countingSort nb es = (sortedEntries nb es, bucketOffsets nb es) ∧
      (sortedEntries nb es).Perm (es.filter fun e => e ≠ skipEntry) ∧
      (sortedEntries nb es).Pairwise (fun e e' => bucketIndex e ≤ bucketIndex e') ∧
      (∀ b, (sortedEntries nb es).filter (fun e => bucketIndex e = b) =
        es.filter fun e => e ≠ skipEntry ∧ bucketIndex e = b) ∧
      (bucketOffsets nb es).getD nb 0 = liveCount es ∧ (bucketOffsets nb es).getD 0 0 = 0

/-- `CHAIN` (rule R177) completes on a well-formed offset table, `live` entries in range and in their buckets,
and canonical points, with one reduced point a bucket; else the first check that fails decides: the offset
table, the range of the entries, the entries, the points. -/
def Obligations.ChainResult : Prop :=
  ∀ (s : State) (grp : Byte) (dstB ss os ps n c : Word),
    Admitted s.cfg (.chain grp dstB ss os ps n c) →
    let i : Instr := .chain grp dstB ss os ps n c
    let nb := bucketCount s.cfg c.toNat
    let off := fun b => countAt s (os.toNat + b * 4)
    let entry := fun j => entryAt s (ss.toNat + j * 8)
    let bucket := fun b => (List.range (off (b + 1) - off b)).map fun j => entry (off b + j)
    if off 0 ≠ 0 ∨ ∃ b, b < nb ∧ off (b + 1) < off b then Faults i s .badEntry
    else if off nb ≠ 0 ∧ s.cfg.memSize < ss.toNat + off nb * 8 then Faults i s .outOfRange
    else if ∃ b, b < nb ∧ ∃ e ∈ bucket b,
        e = skipEntry ∨ bucketIndex e ≠ b + 1 ∨ n.toNat ≤ pointIndex e then
      Faults i s .badEntry
    else if ¬Canonical s.cfg (affsCoords (affsAt s ps n.toNat)) then Faults i s .nonCanonical
    else exec i s = .next (storeBytes s dstB.toNat
      ((chainReduce s.cfg ((List.range nb).map fun b => (bucket b).map fun e =>
        if entrySign e then negAffine s.cfg (affAt s (ps.toNat + pointIndex e * (2 * n8 s.cfg)))
        else affAt s (ps.toNat + pointIndex e * (2 * n8 s.cfg)))).flatMap (affBytes s.cfg)))

/-- `chainReduce` (rule R176) gives one point a bucket, which stands for the sum of the bucket's points,
infinity for an empty bucket. -/
def Obligations.ChainReduceSums : Prop :=
  ∀ (c : Config) [Fact c.modulus.Prime], c.modulus % 2 = 1 →
    ∀ (ls : List (List Aff)) (Ps : List (List (curveOf c).Point)),
      (∀ l ∈ ls, Canonical c (affsCoords l)) →
      List.Forall₂ (List.Forall₂ (AffStandsFor c)) ls Ps →
      List.Forall₂ (AffStandsFor c) (chainReduce c ls) (Ps.map List.sum)

/-- `BRED` (rule R179) and `RFOLD` (rule R181) complete on canonical points with a triple of the class the
sweep and the fold give, which `SweepAndFoldSums` says are the weighted sums. -/
def Obligations.SweepAndFoldResults : Prop :=
  ∀ (s : State) (grp : Byte) (dst src m c : Word), FieldValid s.cfg →
    (Admitted s.cfg (.bred grp dst src c) →
      let buckets := affsAt s src (bucketCount s.cfg c.toNat)
      (Canonical s.cfg (affsCoords buckets) →
        ∃ t, exec (.bred grp dst src c) s = .next t ∧ t.workers = s.workers ∧
          WroteClassOf s t dst (∀ b ∈ buckets, OnCurveAff s.cfg b) (bucketSum s.cfg buckets)) ∧
      (¬Canonical s.cfg (affsCoords buckets) → Faults (.bred grp dst src c) s .nonCanonical)) ∧
    (Admitted s.cfg (.rfold grp dst src m c) →
      let rounds := jacsAt s src m.toNat
      (Canonical s.cfg (jacsCoords rounds) →
        ∃ t, exec (.rfold grp dst src m c) s = .next t ∧ t.workers = s.workers ∧
          WroteClassOf s t dst (∀ r ∈ rounds, OnCurveJac s.cfg r)
            (roundFold s.cfg c.toNat rounds)) ∧
      (¬Canonical s.cfg (jacsCoords rounds) → Faults (.rfold grp dst src m c) s .nonCanonical))

/-- The sweep of rule R178 stands for `Σ b·bucket[b]`, `b` from 1, and the fold of rule R180 for
`Σ 2^(r·c)·round[r]`, `r` from 0. -/
def Obligations.SweepAndFoldSums : Prop :=
  ∀ (c : Config) [Fact c.modulus.Prime], c.modulus % 2 = 1 →
    (∀ (bs : List Aff) (Ps : List (curveOf c).Point), Canonical c (affsCoords bs) →
      List.Forall₂ (AffStandsFor c) bs Ps →
      JacStandsFor c (bucketSum c bs) (weightedSum c (List.range' 1 bs.length) Ps)) ∧
    ∀ (w : Nat) (rs : List Jac) (Ps : List (curveOf c).Point), Canonical c (jacsCoords rs) →
      List.Forall₂ (JacStandsFor c) rs Ps →
      JacStandsFor c (roundFold c w rs)
        (weightedSum c ((List.range rs.length).map fun r => 2 ^ (r * w)) Ps)

/-! ### Multi-exponentiation -/

/-- `MEXP` (rules R190 to R195) completes where the buffers hold `n` elements each, the points are canonical
and every chunk task fits its arena and the GLV width: it writes one triple, of the class the tasks and their
fold give for points on the curve, and its workers are idle again.  With GLV on and `D` or `r` 0, on no
valid instance, the splits are the model's choice (log entry 24). -/
def Obligations.MexpResult : Prop :=
  ∀ (s : State) (grp : Byte) (dst ps psLen ks ksLen n : Word), FieldValid s.cfg →
    DispatchValid s.cfg → Admitted s.cfg (.mexp grp dst ps psLen ks ksLen n) →
    psLen.toNat = n.toNat * (2 * n8 s.cfg) → ksLen.toNat = n.toNat * s.cfg.scalarBytes →
    Canonical s.cfg (affsCoords (affsAt s ps n.toNat)) →
    TasksFit s.cfg (pointScalars s ps ks n.toNat) →
    ∃ t sum, exec (.mexp grp dst ps psLen ks ksLen n) s = .next t ∧
      multiExp s.cfg (pointScalars s ps ks n.toNat) = .ok sum ∧
      WroteClassOf s t dst
        (∀ e ∈ pointScalars s ps ks n.toNat ++
          taskInputs s.cfg (pointScalars s ps ks n.toNat), OnCurveAff s.cfg e.1) sum ∧
      (n = 0 → sum = jacZero ∧ t.workers = s.workers) ∧
      (n ≠ 0 → t.workers.length = s.cfg.concurrency ∧ ∀ w ∈ t.workers, w.ap = 0)

/-- The entry checks that `MEXP` and `MEXPN` share, in their order (rules R190, R197): the lengths, the counts,
the points.  What they are for an element size of 0, on no valid instance, is the model's choice (log entry
24). -/
def Obligations.MexpEntryFaults : Prop :=
  ∀ (s : State) (grp : Byte) (dst ps psLen ks ksLen n : Word) (i : Instr),
    i = .mexp grp dst ps psLen ks ksLen n ∨ i = .mexpn grp dst ps psLen ks ksLen n →
    Admitted s.cfg i →
    (psLen.toNat % (2 * n8 s.cfg) ≠ 0 ∨ ksLen.toNat % s.cfg.scalarBytes ≠ 0 →
      Faults i s .lengthNotMultiple) ∧
    (psLen.toNat % (2 * n8 s.cfg) = 0 → ksLen.toNat % s.cfg.scalarBytes = 0 →
      (psLen.toNat / (2 * n8 s.cfg) ≠ n.toNat ∨ ksLen.toNat / s.cfg.scalarBytes ≠ n.toNat →
        Faults i s .countMismatch) ∧
      (psLen.toNat / (2 * n8 s.cfg) = n.toNat → ksLen.toNat / s.cfg.scalarBytes = n.toNat →
        ¬Canonical s.cfg (affsCoords (affsAt s ps n.toNat)) → Faults i s .nonCanonical))

/-- Faults inside tasks (rules R193, R196, R218): `MEXP` reports what the failing chunk of the lowest index
raises, and writes nothing.  Splits for `D` or `r` 0 are the model's choice (log entry 24). -/
def Obligations.MexpTaskFaults : Prop :=
  ∀ (s : State) (grp : Byte) (dst ps psLen ks ksLen n : Word), DispatchValid s.cfg →
    0 < n8 s.cfg → Admitted s.cfg (.mexp grp dst ps psLen ks ksLen n) →
    psLen.toNat = n.toNat * (2 * n8 s.cfg) → ksLen.toNat = n.toNat * s.cfg.scalarBytes →
    Canonical s.cfg (affsCoords (affsAt s ps n.toNat)) →
    ∀ j c, j < chunkCount s.cfg n.toNat →
      taskFault s.cfg (chunkAt s.cfg (pointScalars s ps ks n.toNat) j) = some c →
      (∀ j', j' < j → taskFault s.cfg (chunkAt s.cfg (pointScalars s ps ks n.toNat) j') = none) →
      Faults (.mexp grp dst ps psLen ks ksLen n) s c

/-- `MEXPN` (rule R197) completes where the buffers hold `n` elements each and the points are canonical, with a
triple of the class of the naive sum; it uses no worker. -/
def Obligations.MexpnResult : Prop :=
  ∀ (s : State) (grp : Byte) (dst ps psLen ks ksLen n : Word), FieldValid s.cfg →
    0 < s.cfg.scalarBytes → Admitted s.cfg (.mexpn grp dst ps psLen ks ksLen n) →
    psLen.toNat = n.toNat * (2 * n8 s.cfg) → ksLen.toNat = n.toNat * s.cfg.scalarBytes →
    Canonical s.cfg (affsCoords (affsAt s ps n.toNat)) →
    ∃ t, exec (.mexpn grp dst ps psLen ks ksLen n) s = .next t ∧ t.workers = s.workers ∧
      WroteClassOf s t dst (∀ p ∈ affsAt s ps n.toNat, OnCurveAff s.cfg p)
        (naiveMultiExp s.cfg (pointScalars s ps ks n.toNat))

/-- The result of a multi-exponentiation (rules R182, R195, R197, R199): for points of the curve the naive loop
gives `Σ k·P`, whatever the chunks, the arenas and the GLV parameters; and where the chunk tasks fit, the bucket
method over chunks gives it too, for points of order dividing `r` where GLV is on, whatever the concurrency, the
chunk bounds, the window table, the digit form and the splitter. -/
def Obligations.MultiExpIsSum : Prop :=
  ∀ (c : Config) [Fact c.modulus.Prime], c.modulus % 2 = 1 →
    ∀ (pks : List (Aff × Nat)) (Ps : List (curveOf c).Point),
      Canonical c (affsCoords (pks.map Prod.fst)) →
      (∀ pk ∈ pks, pk.2 < 2 ^ (8 * c.scalarBytes)) →
      List.Forall₂ (fun pk P => AffStandsFor c pk.1 P) pks Ps →
      JacStandsFor c (naiveMultiExp c pks) (weightedSum c (pks.map Prod.snd) Ps) ∧
        (DispatchValid c → pks.length < 2 ^ 31 →
          (c.glvEnabled = true → LatticeValid c ∧
            List.Forall₂ (fun pk P => GlvPoint c pk.1 P) pks Ps) →
          TasksFit c pks →
          ∃ sum, multiExp c pks = .ok sum ∧
            JacStandsFor c sum (weightedSum c (pks.map Prod.snd) Ps))

/-! ### Valid instances -/

/-- What a configuration that meets rule R242 with GLV on brings about (rules R110, R111, R141, R143, R144): no
pair on the curve is spelled `(0,0)`; `φ` maps the curve to itself; every split fits, so no chunk task raises
`GLV_BASIS`; and `GLVSPLIT` completes on every scalar without a fault, the magnitudes it stores, with the signs
in `RES`, adding up to the scalar modulo `r`. -/
def Obligations.ValidGlvInstance : Prop :=
  ∀ c : Config, ConfigValid c → c.glvEnabled = true →
    (∀ p : Aff, residueValue c p.y ^ 2 = residueValue c p.x ^ 3 + (c.curveB : ZMod c.modulus) →
      p ≠ affZero) ∧
    (∀ p : Aff, Canonical c (affCoords p) → OnCurveAff c p →
      OnCurveAff c (endomorphism c p) ∧ Canonical c (affCoords (endomorphism c p))) ∧
    (∀ pks : List (Aff × Nat), taskFault c pks ≠ some .glvBasis) ∧
    ∀ (s : State) (grp : Byte) (dst k : Word), s.cfg = c → Admitted c (.glvsplit grp dst k) →
      ∃ t, exec (.glvsplit grp dst k) s = .next t ∧ t.status = s.status ∧ t.err = s.err ∧
        let sign := fun i => if t.res.getLsbD i then (-1 : Int) else 1
        let m1 := scalarAt t dst.toNat
        let m2 := scalarAt t (dst.toNat + c.scalarBytes)
        m1 < 2 ^ c.glvBits ∧ m2 < 2 ^ c.glvBits ∧
          (sign 0 * m1 + sign 1 * m2 * c.lambda - scalarAt s k.toNat) % c.groupOrder = 0
end

