-- ==== Sys2Proof/Laws/Arith.lean ====
section
/-! SUPPORT. What the arithmetic helpers compute. -/

namespace Sys2Proof.Machine

theorem powModBits_eq (m n b e : Nat) (h : e < 2 ^ n) : powModBits m n b e % m = b ^ e % m := by
  induction n generalizing b e with
  | zero =>
    have : e = 0 := by simpa using h
    simp [powModBits, this]
  | succ n ih =>
    have hlt : e / 2 < 2 ^ n := by
      rw [pow_succ] at h
      omega
    have key : powModBits m n (b * b % m) (e / 2) % m = (b * b) ^ (e / 2) % m := by
      rw [ih _ _ hlt, ← Nat.pow_mod]
    have he := Nat.div_add_mod e 2
    have hsq : (b * b) ^ (e / 2) = b ^ (2 * (e / 2)) := by rw [pow_mul, pow_two]
    simp only [powModBits]
    split
    · rename_i hodd
      rw [Nat.mod_mod, Nat.mul_mod, key, ← Nat.mul_mod, hsq, ← pow_succ']
      congr 2
      omega
    · rename_i heven
      rw [key, hsq]
      congr 2
      omega

theorem powModBits_lt (m n b e : Nat) (hm : 0 < m) : powModBits m n b e < m := by
  induction n generalizing b e with
  | zero => exact Nat.mod_lt _ hm
  | succ n ih =>
    simp only [powModBits]
    split
    · exact Nat.mod_lt _ hm
    · exact ih _ _

/-- `powMod` is the power modulo `m`. -/
theorem powMod_eq (b e m : Nat) (hm : 0 < m) : powMod b e m = b ^ e % m := by
  have hbits : e < 2 ^ bitlength e := by
    unfold bitlength
    split
    · simp_all
    · exact Nat.lt_log2_self
  have hlt : powMod b e m < m := powModBits_lt _ _ _ _ hm
  rw [← Nat.mod_eq_of_lt hlt, powMod, powModBits_eq _ _ _ _ hbits, ← Nat.pow_mod]

/-- All `searchRoot` can give: 0 where no number of the range is a root, else a root. -/
theorem searchRoot_spec (m v k : Nat) :
    (searchRoot m v k = 0 ∧ ∀ r, 1 ≤ r → r ≤ k → r * r % m ≠ v) ∨
      (1 ≤ searchRoot m v k ∧ searchRoot m v k ≤ k ∧
        searchRoot m v k * searchRoot m v k % m = v) := by
  induction k with
  | zero => exact .inl ⟨rfl, fun r h1 h2 => absurd h2 (by omega)⟩
  | succ k ih =>
    simp only [searchRoot]
    split
    · rename_i h0
      split
      · rename_i hk
        exact .inr ⟨by omega, le_refl _, hk⟩
      · rename_i hk
        left
        refine ⟨rfl, fun r h1 h2 => ?_⟩
        rcases ih with ⟨-, ih⟩ | ⟨h, -, -⟩
        · rcases Nat.lt_or_ge k r with hr | hr
          · have : r = k + 1 := by omega
            exact this ▸ hk
          · exact ih r h1 hr
        · omega
    · rename_i r h0
      rcases ih with ⟨h, -⟩ | ⟨-, h2, h3⟩
      · omega
      · rw [h0] at h2 h3
        exact .inr ⟨by omega, by omega, h3⟩

end Sys2Proof.Machine
end

