-- ==== Sys2Proof/Laws/Bytes.lean ====
section
/-! SUPPORT. Little-endian byte strings (rules R17, R40) and the checks of operand forms. -/

namespace Sys2Proof

@[simp] theorem leBytes_length (n v : Nat) : (leBytes n v).length = n := by
  induction n generalizing v with
  | zero => rfl
  | succ n ih => simp [leBytes, ih]

/-- A byte string stands for a number below `256^length`. -/
theorem leValue_lt (bs : List Byte) : leValue bs < 256 ^ bs.length := by
  induction bs with
  | nil => simp [leValue]
  | cons b bs ih =>
    have hb : b.toNat < 256 := b.isLt
    simp only [leValue, List.length_cons, pow_succ]
    omega

/-- The byte string of a number stands for it, as far as its length reaches. -/
theorem leValue_leBytes (n v : Nat) : leValue (leBytes n v) = v % 256 ^ n := by
  induction n generalizing v with
  | zero => simp [leBytes, leValue, Nat.mod_one]
  | succ n ih =>
    have hb : (BitVec.ofNat 8 v).toNat = v % 256 := BitVec.toNat_ofNat v 8
    rw [leBytes, leValue, ih, hb, pow_succ', Nat.mod_mul]

/-- A number that fits is read back whole. -/
theorem leValue_leBytes_of_lt {n v : Nat} (h : v < 256 ^ n) : leValue (leBytes n v) = v := by
  rw [leValue_leBytes, Nat.mod_eq_of_lt h]

/-- A byte string is the byte string of the number it stands for. -/
theorem leBytes_leValue (bs : List Byte) : leBytes bs.length (leValue bs) = bs := by
  induction bs with
  | nil => rfl
  | cons b bs ih =>
    have hb : b.toNat < 256 := b.isLt
    have hd : (b.toNat + 256 * leValue bs) / 256 = leValue bs := by omega
    have hm : BitVec.ofNat 8 (b.toNat + 256 * leValue bs) = b := by
      apply BitVec.eq_of_toNat_eq
      simp only [BitVec.toNat_ofNat]
      omega
    simp only [List.length_cons, leBytes, leValue, hd, hm, ih]

namespace Machine

/-- A check that holds goes on. -/
theorem check_pos {α : Type} {p : Prop} [Decidable p] {c : Cause} {k : Except Cause α} (h : p) :
    check p c k = k := if_pos h

/-- A check that fails raises its cause. -/
theorem check_neg {α : Type} {p : Prop} [Decidable p] {c : Cause} {k : Except Cause α} (h : ¬p) :
    check p c k = .error c := if_neg h

/-- All a check can do: go on where it holds. -/
theorem check_eq_ok {α : Type} {p : Prop} [Decidable p] {c : Cause} {k : Except Cause α} {t : α} :
    check p c k = .ok t ↔ p ∧ k = .ok t := by
  unfold check
  split <;> simp_all

/-- All a check can do: raise its own cause where it fails, or let a later one raise. -/
theorem check_eq_error {α : Type} {p : Prop} [Decidable p] {c d : Cause} {k : Except Cause α} :
    check p c k = .error d ↔ (¬p ∧ d = c) ∨ (p ∧ k = .error d) := by
  unfold check
  split
  · simp_all
  · simp_all [eq_comm]

/-- All an address check can do: go on where the array is aligned and in range. -/
theorem checkArray_eq_ok {α : Type} {cfg : Config} {align : Nat} {a : Word} {count size : Nat}
    {k : Except Cause α} {t : α} :
    checkArray cfg align a count size k = .ok t ↔
      Aligned align a ∧ InRange cfg a count size ∧ k = .ok t := by
  simp only [checkArray, check_eq_ok]

/-- All an address check can do: `MISALIGNED` before `OUT_OF_RANGE` before what comes later. -/
theorem checkArray_eq_error {α : Type} {cfg : Config} {align : Nat} {a : Word} {count size : Nat}
    {k : Except Cause α} {d : Cause} :
    checkArray cfg align a count size k = .error d ↔
      (¬Aligned align a ∧ d = .misaligned) ∨
      (Aligned align a ∧ ¬InRange cfg a count size ∧ d = .outOfRange) ∨
      (Aligned align a ∧ InRange cfg a count size ∧ k = .error d) := by
  simp only [checkArray, check_eq_error]
  tauto

/-- A command always ends in a next state: its effect, or the fault entry. -/
theorem runCommand_cases {op : Byte} {s : State} {r : Except Cause State} :
    (∃ t, r = .ok t ∧ runCommand op s r = .next t) ∨
      (∃ c, r = .error c ∧ runCommand op s r = .next (raiseFault s c op)) := by
  cases r with
  | ok t => exact .inl ⟨t, rfl, rfl⟩
  | error c => exact .inr ⟨c, rfl, rfl⟩

/-- All a command can do, read from the state it ends in. -/
theorem runCommand_eq_next {op : Byte} {s t : State} {r : Except Cause State} :
    runCommand op s r = .next t ↔ r = .ok t ∨ ∃ c, r = .error c ∧ t = raiseFault s c op := by
  cases r with
  | ok u => simp [runCommand]
  | error c => simp [runCommand, eq_comm]

end Machine

end Sys2Proof
end

