-- ==== Sys2Proof/Laws/Field.lean ====
section
/-! SUPPORT. The field functions as arithmetic modulo `M`: every result is canonical, and the value of a result
is the field operation on the values of the operands (`40_field.md`). -/

namespace Sys2Proof.Machine

theorem modulus_pos {c : Config} (h : FieldValid c) : 0 < c.modulus := h.1.pos

theorem two_lt_modulus {c : Config} (h : FieldValid c) : 2 < c.modulus := by
  have h1 := h.1.two_le
  have h2 := h.2
  omega

theorem coprime_montR {c : Config} (h : FieldValid c) : Nat.Coprime (montR c) c.modulus := by
  unfold montR
  apply Nat.Coprime.pow_left
  rw [Nat.coprime_comm, Nat.Prime.coprime_iff_not_dvd h.1]
  intro hd
  have := Nat.le_of_dvd (by norm_num) hd
  have := two_lt_modulus h
  omega

/-- `R` as an element of the field of values is not 0. -/
theorem montR_ne_zero {c : Config} (h : FieldValid c) : (montR c : ZMod c.modulus) ≠ 0 := by
  intro h0
  have hd := (ZMod.natCast_eq_zero_iff _ _).1 h0
  have := Nat.Coprime.eq_one_of_dvd (coprime_montR h).symm hd
  have := two_lt_modulus h
  omega

/-- `R·R⁻¹ = 1` in the field of values. -/
theorem montR_mul_inv {c : Config} (h : FieldValid c) :
    (montR c : ZMod c.modulus) * (montRInv c : ZMod c.modulus) = 1 := by
  have : Fact c.modulus.Prime := ⟨h.1⟩
  have hp := ZMod.pow_card_sub_one_eq_one (montR_ne_zero h)
  have h2 := two_lt_modulus h
  rw [montRInv, powMod_eq _ _ _ (modulus_pos h), ZMod.natCast_mod, Nat.cast_pow, ← pow_succ']
  rw [show c.modulus - 2 + 1 = c.modulus - 1 by omega, hp]

/-- A residue's value is its product with `R⁻¹`. -/
theorem residueValue_eq (c : Config) (x : Nat) :
    residueValue c x = (x : ZMod c.modulus) * (montRInv c : ZMod c.modulus) := by
  simp [residueValue, val]

/-- A residue is its value times `R`. -/
theorem residue_eq {c : Config} (h : FieldValid c) (x : Nat) :
    (x : ZMod c.modulus) = residueValue c x * (montR c : ZMod c.modulus) := by
  rw [residueValue_eq, mul_assoc, mul_comm (montRInv c : ZMod c.modulus), montR_mul_inv h, mul_one]

/-- Canonical residues of one value are equal. -/
theorem residueValue_injective {c : Config} (h : FieldValid c) {x y : Nat} (hx : x < c.modulus)
    (hy : y < c.modulus) (he : residueValue c x = residueValue c y) : x = y := by
  have h1 : (x : ZMod c.modulus) = (y : ZMod c.modulus) := by
    rw [residue_eq h x, residue_eq h y, he]
  have h2 := (ZMod.natCast_eq_natCast_iff' _ _ _).1 h1
  rwa [Nat.mod_eq_of_lt hx, Nat.mod_eq_of_lt hy] at h2

/-- Only the residue 0 stands for 0. -/
theorem residueValue_eq_zero {c : Config} (h : FieldValid c) {x : Nat} (hx : x < c.modulus) :
    residueValue c x = 0 ↔ x = 0 := by
  constructor
  · intro h0
    exact residueValue_injective h hx (modulus_pos h) (by rw [h0]; simp [residueValue_eq])
  · rintro rfl
    simp [residueValue_eq]

/-! ### Results are canonical -/

theorem val_lt {c : Config} (h : 0 < c.modulus) (x : Nat) : val c x < c.modulus := Nat.mod_lt _ h
theorem mont_lt {c : Config} (h : 0 < c.modulus) (v : Nat) : mont c v < c.modulus := Nat.mod_lt _ h
theorem fmul_lt {c : Config} (h : 0 < c.modulus) (x y : Nat) : fmul c x y < c.modulus :=
  Nat.mod_lt _ h
theorem fsqr_lt {c : Config} (h : 0 < c.modulus) (x : Nat) : fsqr c x < c.modulus := Nat.mod_lt _ h
theorem finv_lt {c : Config} (h : 0 < c.modulus) (x : Nat) : finv c x < c.modulus := Nat.mod_lt _ h

theorem fadd_lt {c : Config} {x y : Nat} (hx : x < c.modulus) (hy : y < c.modulus) :
    fadd c x y < c.modulus := by
  unfold fadd
  split <;> omega

theorem fsub_lt {c : Config} {x y : Nat} (hx : x < c.modulus) (hy : y < c.modulus) :
    fsub c x y < c.modulus := by
  unfold fsub
  split <;> omega

theorem fneg_lt {c : Config} {x : Nat} (hx : x < c.modulus) : fneg c x < c.modulus := by
  unfold fneg
  split <;> omega

/-! ### Contracts of the conditional forms -/

/-- `FADD`'s conditional subtraction is the sum modulo `M` (rule R82). -/
theorem fadd_eq_mod {c : Config} {x y : Nat} (hx : x < c.modulus) (hy : y < c.modulus) :
    fadd c x y = (x + y) % c.modulus := by
  unfold fadd
  split
  · rw [Nat.mod_eq_sub_mod (by assumption), Nat.mod_eq_of_lt (by omega)]
  · rw [Nat.mod_eq_of_lt (by omega)]

/-! ### The value of a result -/

theorem residueValue_mont {c : Config} (h : FieldValid c) (v : Nat) :
    residueValue c (mont c v) = (v : ZMod c.modulus) := by
  rw [residueValue_eq, mont, ZMod.natCast_mod, Nat.cast_mul, mul_assoc, montR_mul_inv h, mul_one]

/-- Out of Montgomery form and back. -/
theorem val_mont {c : Config} (h : FieldValid c) (v : Nat) : val c (mont c v) = v % c.modulus := by
  have := (ZMod.natCast_eq_natCast_iff' _ _ _).1 (residueValue_mont h v)
  rwa [Nat.mod_eq_of_lt (val_lt (modulus_pos h) _)] at this

/-- The constant `NRT` stands for `NR^T` (rule R10). -/
theorem val_montNonresiduePower {c : Config} (h : FieldValid c) :
    val c (montNonresiduePower c) = c.nonresidue ^ oddPart c % c.modulus := by
  rw [montNonresiduePower, val_mont h, nonresiduePower, powMod_eq _ _ _ (modulus_pos h), Nat.mod_mod]

theorem residueValue_fadd (c : Config) (x y : Nat) :
    residueValue c (fadd c x y) = residueValue c x + residueValue c y := by
  have hc : ((fadd c x y : Nat) : ZMod c.modulus) = (x : ZMod c.modulus) + y := by
    unfold fadd
    split
    · rename_i hle
      rw [Nat.cast_sub hle, Nat.cast_add, ZMod.natCast_self, sub_zero]
    · rw [Nat.cast_add]
  simp only [residueValue_eq, hc]
  ring

theorem residueValue_fsub {c : Config} (x : Nat) {y : Nat} (hy : y < c.modulus) :
    residueValue c (fsub c x y) = residueValue c x - residueValue c y := by
  have hc : ((fsub c x y : Nat) : ZMod c.modulus) = (x : ZMod c.modulus) - y := by
    unfold fsub
    split
    · rename_i hle
      rw [Nat.cast_sub hle]
    · rw [Nat.cast_sub (by omega), Nat.cast_add, ZMod.natCast_self, add_zero]
  simp only [residueValue_eq, hc]
  ring

theorem residueValue_fneg {c : Config} {x : Nat} (hx : x < c.modulus) :
    residueValue c (fneg c x) = -residueValue c x := by
  have hc : ((fneg c x : Nat) : ZMod c.modulus) = -(x : ZMod c.modulus) := by
    unfold fneg
    split
    · rename_i h0
      simp [h0]
    · rw [Nat.cast_sub (by omega), ZMod.natCast_self, zero_sub]
  simp only [residueValue_eq, hc]
  ring

theorem residueValue_fmul (c : Config) (x y : Nat) :
    residueValue c (fmul c x y) = residueValue c x * residueValue c y := by
  simp only [residueValue_eq, fmul, ZMod.natCast_mod, Nat.cast_mul]
  ring

theorem residueValue_fsqr (c : Config) (x : Nat) :
    residueValue c (fsqr c x) = residueValue c x ^ 2 := by
  simp only [residueValue_eq, fsqr, ZMod.natCast_mod, Nat.cast_mul]
  ring

/-- `R1` stands for 1. -/
theorem residueValue_montOne {c : Config} (h : FieldValid c) : residueValue c (montOne c) = 1 := by
  rw [residueValue_eq, montOne, ZMod.natCast_mod, montR_mul_inv h]

theorem residueValue_finv {c : Config} [Fact c.modulus.Prime] (h : FieldValid c) {x : Nat}
    (hx : residueValue c x ≠ 0) : residueValue c (finv c x) = (residueValue c x)⁻¹ := by
  have hp := ZMod.pow_card_sub_one_eq_one hx
  have h2 := two_lt_modulus h
  rw [finv, residueValue_mont h, powMod_eq _ _ _ (modulus_pos h), ZMod.natCast_mod, Nat.cast_pow]
  change residueValue c x ^ (c.modulus - 2) = _
  refine eq_inv_of_mul_eq_one_left ?_
  rw [← pow_succ, show c.modulus - 2 + 1 = c.modulus - 1 by omega, hp]

end Sys2Proof.Machine
end

