-- ==== Sys2Proof/Laws/Curve.lean ====
section
/-! SUPPORT. Mathlib's group law on `y² = x³ + b`, with the slope given by its equation (rule R113). -/

namespace Sys2Proof.Machine

open WeierstrassCurve.Affine

variable {c : Config} [Fact c.modulus.Prime]

/-- A pair on the curve with `2y ≠ 0` is a point of the group. -/
theorem nonsingular_of_equation {x y : ZMod c.modulus} (h : y ^ 2 = x ^ 3 + (c.curveB : ZMod c.modulus))
    (hy : 2 * y ≠ 0) : (curveOf c).Nonsingular x y := by
  rw [nonsingular_iff, equation_iff]
  refine ⟨?_, .inr ?_⟩
  · change y ^ 2 + 0 * x * y + 0 * y = x ^ 3 + 0 * x ^ 2 + 0 * x + (c.curveB : ZMod _)
    linear_combination h
  · intro h0
    change y = -y - 0 * x - 0 at h0
    apply hy
    linear_combination h0

omit [Fact c.modulus.Prime] in
/-- Points of one curve with equal coordinates are equal. -/
theorem some_congr {x x' y y' : ZMod c.modulus} {h : (curveOf c).Nonsingular x y}
    {h' : (curveOf c).Nonsingular x' y'} (hx : x = x') (hy : y = y') :
    Point.some x y h = Point.some x' y' h' := by
  subst hx
  subst hy
  rfl

/-- The chord: two points of different `x` with the slope `m`. -/
theorem add_chord {x₁ y₁ x₂ y₂ x₃ y₃ m : ZMod c.modulus} (h₁ : (curveOf c).Nonsingular x₁ y₁)
    (h₂ : (curveOf c).Nonsingular x₂ y₂) (h₃ : (curveOf c).Nonsingular x₃ y₃) (hx : x₁ ≠ x₂)
    (hm : m * (x₂ - x₁) = y₂ - y₁) (hx₃ : x₃ = m ^ 2 - x₁ - x₂) (hy₃ : y₃ = m * (x₁ - x₃) - y₁) :
    Point.some x₁ y₁ h₁ + Point.some x₂ y₂ h₂ = Point.some x₃ y₃ h₃ := by
  have hs : (curveOf c).slope x₁ x₂ y₁ y₂ = m := by
    rw [slope_of_X_ne hx, div_eq_iff (sub_ne_zero.2 hx)]
    linear_combination hm
  rw [Point.add_of_X_ne hx]
  have hX : (curveOf c).addX x₁ x₂ m = x₃ := by
    rw [hx₃]
    simp only [addX]
    ring
  apply some_congr
  · rw [hs, hX]
  · rw [hs, addY, negAddY, hX, hy₃]
    simp only [negY]
    ring

/-- The tangent: a point with `2y ≠ 0` added to itself, with the slope `m`. -/
theorem add_tangent {x₁ y₁ x₃ y₃ m : ZMod c.modulus} (h₁ : (curveOf c).Nonsingular x₁ y₁)
    (h₃ : (curveOf c).Nonsingular x₃ y₃) (hy : 2 * y₁ ≠ 0)
    (hm : m * (2 * y₁) = 3 * x₁ ^ 2) (hx₃ : x₃ = m ^ 2 - x₁ - x₁)
    (hy₃ : y₃ = m * (x₁ - x₃) - y₁) :
    Point.some x₁ y₁ h₁ + Point.some x₁ y₁ h₁ = Point.some x₃ y₃ h₃ := by
  have hne : y₁ ≠ (curveOf c).negY x₁ y₁ := by
    intro h0
    apply hy
    simp only [negY] at h0
    linear_combination h0
  have hs : (curveOf c).slope x₁ x₁ y₁ y₁ = m := by
    rw [slope_of_Y_ne rfl hne, div_eq_iff (sub_ne_zero.2 hne)]
    simp only [negY]
    linear_combination -hm
  rw [Point.add_self_of_Y_ne hne]
  have hX : (curveOf c).addX x₁ x₁ m = x₃ := by
    rw [hx₃]
    simp only [addX]
    ring
  apply some_congr
  · rw [hs, hX]
  · rw [hs, addY, negAddY, hX, hy₃]
    simp only [negY]
    ring

/-- Opposite points have the sum `O`. -/
theorem opposite_sum {x y y' : ZMod c.modulus} (h : (curveOf c).Nonsingular x y)
    (h' : (curveOf c).Nonsingular x y') (hy : y + y' = 0) :
    Point.some x y h + Point.some x y' h' = 0 := by
  refine Point.add_of_Y_eq rfl ?_
  simp only [negY]
  linear_combination hy

end Sys2Proof.Machine
end

