-- ==== Sys2Proof/Laws/Memory.lean ====
section
/-! SUPPORT. The laws of operand memory: what a read gives after a write, and that every operation keeps
the canonical form. -/

namespace Sys2Proof.Machine

theorem readByte_insertCell (m : Memory) (a b : Nat) (v : Byte) (h : ∀ c ∈ m, c.1 ≠ a) :
    readByte (insertCell m a v) b = if b = a then v else readByte m b := by
  induction m with
  | nil => simp [insertCell, readByte]
  | cons c m ih =>
    have hc : c.1 ≠ a := h c (by simp)
    have hm : ∀ d ∈ m, d.1 ≠ a := fun d hd => h d (by simp [hd])
    simp only [insertCell]
    split
    · simp [readByte]
    · by_cases hb : b = c.1
      · subst hb
        simp [readByte, hc]
      · simp [readByte, hb, ih hm]

theorem readByte_filter_ne (m : Memory) (a b : Nat) :
    readByte (m.filter fun c => decide (c.1 ≠ a)) b =
      if b = a then unwrittenByte else readByte m b := by
  induction m with
  | nil => simp [readByte]
  | cons c m ih =>
    by_cases hc : c.1 = a
    · by_cases hb : b = a
      · simp_all
      · simp_all [readByte]
    · by_cases hb : b = a
      · subst hb
        simp_all [readByte, Ne.symm hc]
      · simp_all [readByte]

/-- A byte written is read back, and every other byte is left alone. -/
theorem readByte_writeByte (m : Memory) (a b : Nat) (v : Byte) :
    readByte (writeByte m a v) b = if b = a then v else readByte m b := by
  simp only [writeByte]
  split
  · rename_i h
    rw [readByte_filter_ne, h]
  · rw [readByte_insertCell _ _ _ _ (by simp), readByte_filter_ne]
    split <;> simp_all

/-- What a read gives after a string of bytes is written. -/
theorem readByte_writeBytes (m : Memory) (a b : Nat) (bs : List Byte) :
    readByte (writeBytes m a bs) b =
      if a ≤ b ∧ b < a + bs.length then bs.getD (b - a) 0 else readByte m b := by
  induction bs generalizing m a with
  | nil => simp [writeBytes]
  | cons v bs ih =>
    simp only [writeBytes, ih, readByte_writeByte, List.length_cons]
    by_cases h1 : a + 1 ≤ b ∧ b < a + 1 + bs.length
    · have h2 : a ≤ b ∧ b < a + (bs.length + 1) := by omega
      obtain ⟨k, rfl⟩ : ∃ k, b = a + 1 + k := ⟨b - (a + 1), by omega⟩
      rw [if_pos h1, if_pos h2, show a + 1 + k - a = k + 1 by omega,
        show a + 1 + k - (a + 1) = k by omega, List.getD_cons_succ]
    · by_cases hb : b = a
      · subst hb
        simp
      · have h2 : ¬(a ≤ b ∧ b < a + (bs.length + 1)) := by omega
        rw [if_neg h1, if_neg hb, if_neg h2]

/-- A write leaves every address outside it alone. -/
theorem readByte_writeBytes_outside {m : Memory} {a b : Nat} {bs : List Byte}
    (h : b < a ∨ a + bs.length ≤ b) : readByte (writeBytes m a bs) b = readByte m b := by
  rw [readByte_writeBytes, if_neg (by omega)]

/-- A string of bytes written is read back. -/
theorem readBytes_writeBytes (m : Memory) (a : Nat) (bs : List Byte) :
    readBytes (writeBytes m a bs) a bs.length = bs := by
  apply List.ext_getElem (by simp [readBytes])
  intro i h1 h2
  simp only [readBytes, List.getElem_map, List.getElem_range, readByte_writeBytes]
  rw [if_pos ⟨by omega, by omega⟩]
  simp [h2]

@[simp] theorem readBytes_length (m : Memory) (a n : Nat) : (readBytes m a n).length = n := by
  simp [readBytes]

/-! ### The canonical form -/

theorem mem_insertCell {m : Memory} {a : Nat} {v : Byte} {c : Host.Cell} :
    c ∈ insertCell m a v ↔ c = (a, v) ∨ c ∈ m := by
  induction m with
  | nil => simp [insertCell]
  | cons d m ih =>
    simp only [insertCell]
    split
    · simp
    · simp only [List.mem_cons, ih]
      tauto

theorem insertCell_pairwise {m : Memory} {a : Nat} {v : Byte}
    (hm : m.Pairwise fun c d => c.1 < d.1) (h : ∀ c ∈ m, c.1 ≠ a) :
    (insertCell m a v).Pairwise fun c d => c.1 < d.1 := by
  induction m with
  | nil => simp [insertCell]
  | cons d m ih =>
    have hd : d.1 ≠ a := h d (by simp)
    simp only [insertCell]
    rw [List.pairwise_cons] at hm
    split
    · rename_i hlt
      refine List.pairwise_cons.2 ⟨?_, List.pairwise_cons.2 hm⟩
      intro e he
      rcases List.mem_cons.1 he with rfl | he
      · exact hlt
      · exact lt_trans hlt (hm.1 e he)
    · refine List.pairwise_cons.2 ⟨?_, ih hm.2 fun c hc => h c (by simp [hc])⟩
      intro e he
      rcases mem_insertCell.1 he with rfl | he
      · show d.1 < a
        omega
      · exact hm.1 e he

/-- Writing a byte keeps the canonical form. -/
theorem writeByte_wf {m : Memory} (hm : Memory.wf m) (a : Nat) (v : Byte) :
    Memory.wf (writeByte m a v) := by
  have hf : Memory.wf (m.filter fun c => decide (c.1 ≠ a)) :=
    ⟨hm.1.filter _, fun c hc => hm.2 c (List.mem_filter.1 hc).1⟩
  simp only [writeByte]
  split
  · exact hf
  · rename_i hv
    refine ⟨insertCell_pairwise hf.1 (by simp), fun c hc => ?_⟩
    rcases mem_insertCell.1 hc with rfl | hc
    · exact hv
    · exact hf.2 c hc

/-- Writing a string of bytes keeps the canonical form. -/
theorem writeBytes_wf {m : Memory} (hm : Memory.wf m) (a : Nat) (bs : List Byte) :
    Memory.wf (writeBytes m a bs) := by
  induction bs generalizing m a with
  | nil => exact hm
  | cons v bs ih => exact ih (writeByte_wf hm a v) _

/-- The memory made from a list of cells is in canonical form. -/
theorem memoryOf_wf (n : Nat) (cells : List Host.Cell) : Memory.wf (memoryOf n cells) := by
  unfold memoryOf
  have h : ∀ (m : Memory), Memory.wf m →
      Memory.wf (cells.foldl (fun m c => if c.1 < n then writeByte m c.1 c.2 else m) m) := by
    induction cells with
    | nil => exact fun m hm => hm
    | cons c cells ih =>
      intro m hm
      apply ih
      by_cases hc : c.1 < n
      · simpa only [hc, if_true] using writeByte_wf hm _ _
      · simpa only [hc, if_false] using hm
  exact h [] ⟨List.Pairwise.nil, by simp⟩

/-- Memory in canonical form is determined by what it reads as. -/
theorem memory_ext {m m' : Memory} (hm : Memory.wf m) (hm' : Memory.wf m')
    (h : ∀ a, readByte m a = readByte m' a) : m = m' := by
  have not_listed : ∀ (m : Memory) (a : Nat), (∀ c ∈ m, a < c.1) → readByte m a = unwrittenByte := by
    intro m a
    induction m with
    | nil => exact fun _ => rfl
    | cons c m ih =>
      intro hc
      have : a ≠ c.1 := (hc c (by simp)).ne
      simp [readByte, this, ih fun d hd => hc d (by simp [hd])]
  induction m generalizing m' with
  | nil =>
    cases m' with
    | nil => rfl
    | cons c m' =>
      have := h c.1
      simp only [readByte, if_pos] at this
      exact absurd this.symm (hm'.2 c (by simp))
  | cons c m ih =>
    cases m' with
    | nil =>
      have := h c.1
      simp only [readByte, if_pos] at this
      exact absurd this (hm.2 c (by simp))
    | cons d m' =>
      have hp := List.pairwise_cons.1 hm.1
      have hp' := List.pairwise_cons.1 hm'.1
      have key : c.1 = d.1 := by
        rcases lt_trichotomy c.1 d.1 with hlt | heq | hgt
        · have h1 := h c.1
          rw [not_listed (d :: m') c.1 (by
            intro e he
            rcases List.mem_cons.1 he with rfl | he
            · exact hlt
            · exact lt_trans hlt (hp'.1 e he))] at h1
          simp only [readByte, if_pos] at h1
          exact absurd h1 (hm.2 c (by simp))
        · exact heq
        · have h1 := h d.1
          rw [not_listed (c :: m) d.1 (by
            intro e he
            rcases List.mem_cons.1 he with rfl | he
            · exact hgt
            · exact lt_trans hgt (hp.1 e he))] at h1
          simp only [readByte, if_pos] at h1
          exact absurd h1.symm (hm'.2 d (by simp))
      have hv : c = d := by
        have h1 := h c.1
        simp only [readByte, key, if_pos] at h1
        exact Prod.ext key h1
      subst hv
      congr 1
      refine ih ⟨hp.2, fun e he => hm.2 e (by simp [he])⟩ ⟨hp'.2, fun e he => hm'.2 e (by simp [he])⟩ ?_
      intro a
      by_cases ha : a = c.1
      · subst ha
        rw [not_listed m _ hp.1, not_listed m' _ hp'.1]
      · have h1 := h a
        simpa [readByte, ha] using h1

end Sys2Proof.Machine
end

