-- ==== Sys2Proof/Laws/PerInstr.lean ====
section
/-! SUPPORT. The family of per-instruction statements: what the header word of every command's encoding
holds. -/

namespace Sys2Proof.Laws

/-- The fields of a header word (rule R61). -/
theorem headerWord_fields (op grp : Byte) :
    (headerWord op grp).extractLsb' 0 8 = op ∧ (headerWord op grp).extractLsb' 8 8 = grp ∧
      (headerWord op grp).extractLsb' 16 16 = 0#16 := by
  have bit (i : Nat) : (headerWord op grp).getLsbD i =
      if i < 8 then op.getLsbD i else if i - 8 < 8 then grp.getLsbD (i - 8) else false := by
    have h : ((0#16 ++ grp) ++ op : BitVec (16 + 8 + 8)).getLsbD i =
        if i < 8 then op.getLsbD i else if i - 8 < 8 then grp.getLsbD (i - 8) else false := by
      simp only [BitVec.getLsbD_append, BitVec.getLsbD_zero]
    exact h
  refine ⟨?_, ?_, ?_⟩
  · ext i hi
    simp [bit, hi]
  · ext i hi
    simp [bit, hi]
  · ext i hi
    simp [bit, show ¬ 16 + i < 8 by omega, show ¬ 16 + i - 8 < 8 by omega]

end Sys2Proof.Laws

namespace Sys2Proof.Laws.EncodedHeader

/-- The header word of a command's encoding holds its opcode and its group selector, and a reserved half-word
of 0 (rule R61). -/
def Statement (i : Instr) : Prop :=
  opcodeField (encode i) = i.opcode ∧ groupField (encode i) = i.grp ∧ reservedField (encode i) = 0

theorem fadd (grp : Byte) (dst x y : Word) :
    Statement (.fadd grp dst x y) := headerWord_fields _ _

theorem fsub (grp : Byte) (dst x y : Word) :
    Statement (.fsub grp dst x y) := headerWord_fields _ _

theorem fneg (grp : Byte) (dst x : Word) :
    Statement (.fneg grp dst x) := headerWord_fields _ _

theorem fmul (grp : Byte) (dst x y : Word) :
    Statement (.fmul grp dst x y) := headerWord_fields _ _

theorem fsqr (grp : Byte) (dst x : Word) :
    Statement (.fsqr grp dst x) := headerWord_fields _ _

theorem ftom (grp : Byte) (dst x : Word) :
    Statement (.ftom grp dst x) := headerWord_fields _ _

theorem ffromm (grp : Byte) (dst x : Word) :
    Statement (.ffromm grp dst x) := headerWord_fields _ _

theorem finv (grp : Byte) (dst x : Word) :
    Statement (.finv grp dst x) := headerWord_fields _ _

theorem fissq (grp : Byte) (x : Word) :
    Statement (.fissq grp x) := headerWord_fields _ _

theorem fsqrt (grp : Byte) (dst x : Word) :
    Statement (.fsqrt grp dst x) := headerWord_fields _ _

theorem fbinv (grp : Byte) (dst src n : Word) :
    Statement (.fbinv grp dst src n) := headerWord_fields _ _

theorem padda (grp : Byte) (dst p q : Word) :
    Statement (.padda grp dst p q) := headerWord_fields _ _

theorem padd (grp : Byte) (dst p q : Word) :
    Statement (.padd grp dst p q) := headerWord_fields _ _

theorem pdbl (grp : Byte) (dst p : Word) :
    Statement (.pdbl grp dst p) := headerWord_fields _ _

theorem pneg (grp : Byte) (dst p : Word) :
    Statement (.pneg grp dst p) := headerWord_fields _ _

theorem pnega (grp : Byte) (dst p : Word) :
    Statement (.pnega grp dst p) := headerWord_fields _ _

theorem pmul (grp : Byte) (dst p k : Word) :
    Statement (.pmul grp dst p k) := headerWord_fields _ _

theorem ptoaff (grp : Byte) (dst p : Word) :
    Statement (.ptoaff grp dst p) := headerWord_fields _ _

theorem peq (grp : Byte) (p q : Word) :
    Statement (.peq grp p q) := headerWord_fields _ _

theorem pisz (grp : Byte) (p : Word) :
    Statement (.pisz grp p) := headerWord_fields _ _

theorem pbadd (grp : Byte) (dst ps qs n : Word) :
    Statement (.pbadd grp dst ps qs n) := headerWord_fields _ _

theorem pbtoaff (grp : Byte) (dst src n : Word) :
    Statement (.pbtoaff grp dst src n) := headerWord_fields _ _

theorem glvsplit (grp : Byte) (dst k : Word) :
    Statement (.glvsplit grp dst k) := headerWord_fields _ _

theorem glvexp (grp : Byte) (dstP dstK ps ks n : Word) :
    Statement (.glvexp grp dstP dstK ps ks n) := headerWord_fields _ _

theorem sched (grp : Byte) (dstE dstC ks n c bits : Word) :
    Statement (.sched grp dstE dstC ks n c bits) := headerWord_fields _ _

theorem bsort (grp : Byte) (dstS dstO es n c : Word) :
    Statement (.bsort grp dstS dstO es n c) := headerWord_fields _ _

theorem chain (grp : Byte) (dstB ss os ps n c : Word) :
    Statement (.chain grp dstB ss os ps n c) := headerWord_fields _ _

theorem bred (grp : Byte) (dst bs c : Word) :
    Statement (.bred grp dst bs c) := headerWord_fields _ _

theorem rfold (grp : Byte) (dst rs m c : Word) :
    Statement (.rfold grp dst rs m c) := headerWord_fields _ _

theorem mexp (grp : Byte) (dst ps psLen ks ksLen n : Word) :
    Statement (.mexp grp dst ps psLen ks ksLen n) := headerWord_fields _ _

theorem mexpn (grp : Byte) (dst ps psLen ks ksLen n : Word) :
    Statement (.mexpn grp dst ps psLen ks ksLen n) := headerWord_fields _ _

end Sys2Proof.Laws.EncodedHeader
end

