-- ==== Sys2Proof/Laws/State.lean ====
section
/-! SUPPORT. One lemma per field per update of the state, so that no proof unfolds a record update. -/

namespace Sys2Proof.Machine

@[simp] theorem storeBytes_cfg (s : State) (a : Nat) (bs : List Byte) :
    (storeBytes s a bs).cfg = s.cfg := rfl
@[simp] theorem storeBytes_status (s : State) (a : Nat) (bs : List Byte) :
    (storeBytes s a bs).status = s.status := rfl
@[simp] theorem storeBytes_err (s : State) (a : Nat) (bs : List Byte) :
    (storeBytes s a bs).err = s.err := rfl
@[simp] theorem storeBytes_res (s : State) (a : Nat) (bs : List Byte) :
    (storeBytes s a bs).res = s.res := rfl
@[simp] theorem storeBytes_mem (s : State) (a : Nat) (bs : List Byte) :
    (storeBytes s a bs).mem = writeBytes s.mem a bs := rfl
@[simp] theorem storeBytes_workers (s : State) (a : Nat) (bs : List Byte) :
    (storeBytes s a bs).workers = s.workers := rfl
@[simp] theorem storeBytes_draws (s : State) (a : Nat) (bs : List Byte) :
    (storeBytes s a bs).draws = s.draws := rfl
@[simp] theorem storeBytes_host (s : State) (a : Nat) (bs : List Byte) :
    (storeBytes s a bs).host = s.host := rfl
@[simp] theorem storeBytes_answer (s : State) (a : Nat) (bs : List Byte) :
    (storeBytes s a bs).answer = s.answer := rfl

@[simp] theorem drawn_cfg (s : State) : (drawn s).cfg = s.cfg := rfl
@[simp] theorem drawn_status (s : State) : (drawn s).status = s.status := rfl
@[simp] theorem drawn_err (s : State) : (drawn s).err = s.err := rfl
@[simp] theorem drawn_res (s : State) : (drawn s).res = s.res := rfl
@[simp] theorem drawn_mem (s : State) : (drawn s).mem = s.mem := rfl
@[simp] theorem drawn_workers (s : State) : (drawn s).workers = s.workers := rfl
@[simp] theorem drawn_draws (s : State) : (drawn s).draws = s.draws + 1 := rfl
@[simp] theorem drawn_host (s : State) : (drawn s).host = s.host := rfl
@[simp] theorem drawn_answer (s : State) : (drawn s).answer = s.answer := rfl

@[simp] theorem setRes_cfg (s : State) (v : Word) : (setRes s v).cfg = s.cfg := rfl
@[simp] theorem setRes_status (s : State) (v : Word) : (setRes s v).status = s.status := rfl
@[simp] theorem setRes_err (s : State) (v : Word) : (setRes s v).err = s.err := rfl
@[simp] theorem setRes_res (s : State) (v : Word) : (setRes s v).res = v := rfl
@[simp] theorem setRes_mem (s : State) (v : Word) : (setRes s v).mem = s.mem := rfl
@[simp] theorem setRes_workers (s : State) (v : Word) : (setRes s v).workers = s.workers := rfl
@[simp] theorem setRes_draws (s : State) (v : Word) : (setRes s v).draws = s.draws := rfl
@[simp] theorem setRes_host (s : State) (v : Word) : (setRes s v).host = s.host := rfl
@[simp] theorem setRes_answer (s : State) (v : Word) : (setRes s v).answer = s.answer := rfl

@[simp] theorem setAnswer_cfg (s : State) (v : HostAnswer) : (setAnswer s v).cfg = s.cfg := rfl
@[simp] theorem setAnswer_status (s : State) (v : HostAnswer) : (setAnswer s v).status = s.status := rfl
@[simp] theorem setAnswer_err (s : State) (v : HostAnswer) : (setAnswer s v).err = s.err := rfl
@[simp] theorem setAnswer_res (s : State) (v : HostAnswer) : (setAnswer s v).res = s.res := rfl
@[simp] theorem setAnswer_mem (s : State) (v : HostAnswer) : (setAnswer s v).mem = s.mem := rfl
@[simp] theorem setAnswer_workers (s : State) (v : HostAnswer) : (setAnswer s v).workers = s.workers := rfl
@[simp] theorem setAnswer_draws (s : State) (v : HostAnswer) : (setAnswer s v).draws = s.draws := rfl
@[simp] theorem setAnswer_host (s : State) (v : HostAnswer) : (setAnswer s v).host = s.host := rfl
@[simp] theorem setAnswer_answer (s : State) (v : HostAnswer) : (setAnswer s v).answer = v := rfl

@[simp] theorem hostAdvanced_cfg (s : State) (rest : List HostMove) :
    (hostAdvanced s rest).cfg = s.cfg := rfl
@[simp] theorem hostAdvanced_status (s : State) (rest : List HostMove) :
    (hostAdvanced s rest).status = s.status := rfl
@[simp] theorem hostAdvanced_err (s : State) (rest : List HostMove) :
    (hostAdvanced s rest).err = s.err := rfl
@[simp] theorem hostAdvanced_res (s : State) (rest : List HostMove) :
    (hostAdvanced s rest).res = s.res := rfl
@[simp] theorem hostAdvanced_mem (s : State) (rest : List HostMove) :
    (hostAdvanced s rest).mem = s.mem := rfl
@[simp] theorem hostAdvanced_workers (s : State) (rest : List HostMove) :
    (hostAdvanced s rest).workers = s.workers := rfl
@[simp] theorem hostAdvanced_draws (s : State) (rest : List HostMove) :
    (hostAdvanced s rest).draws = s.draws := rfl
@[simp] theorem hostAdvanced_host (s : State) (rest : List HostMove) :
    (hostAdvanced s rest).host = rest := rfl
@[simp] theorem hostAdvanced_answer (s : State) (rest : List HostMove) :
    (hostAdvanced s rest).answer = s.answer := rfl

@[simp] theorem raiseFault_cfg (s : State) (c : Cause) (op : Byte) :
    (raiseFault s c op).cfg = s.cfg := rfl
@[simp] theorem raiseFault_status (s : State) (c : Cause) (op : Byte) :
    (raiseFault s c op).status = 2#32 := rfl
@[simp] theorem raiseFault_err (s : State) (c : Cause) (op : Byte) :
    (raiseFault s c op).err = .ofNat 32 ((causeCode c).toNat + 256 * op.toNat) := rfl
@[simp] theorem raiseFault_res (s : State) (c : Cause) (op : Byte) :
    (raiseFault s c op).res = s.res := rfl
@[simp] theorem raiseFault_mem (s : State) (c : Cause) (op : Byte) :
    (raiseFault s c op).mem = s.mem := rfl
@[simp] theorem raiseFault_workers (s : State) (c : Cause) (op : Byte) :
    (raiseFault s c op).workers = s.workers := rfl
@[simp] theorem raiseFault_draws (s : State) (c : Cause) (op : Byte) :
    (raiseFault s c op).draws = s.draws := rfl
@[simp] theorem raiseFault_host (s : State) (c : Cause) (op : Byte) :
    (raiseFault s c op).host = s.host := rfl
@[simp] theorem raiseFault_answer (s : State) (c : Cause) (op : Byte) :
    (raiseFault s c op).answer = s.answer := rfl

@[simp] theorem retireWorkers_cfg (s : State) : (retireWorkers s).cfg = s.cfg := rfl
@[simp] theorem retireWorkers_status (s : State) : (retireWorkers s).status = s.status := rfl
@[simp] theorem retireWorkers_err (s : State) : (retireWorkers s).err = s.err := rfl
@[simp] theorem retireWorkers_res (s : State) : (retireWorkers s).res = s.res := rfl
@[simp] theorem retireWorkers_mem (s : State) : (retireWorkers s).mem = s.mem := rfl
@[simp] theorem retireWorkers_workers (s : State) : (retireWorkers s).workers = idleWorkers s := rfl
@[simp] theorem retireWorkers_draws (s : State) : (retireWorkers s).draws = s.draws + 1 := rfl
@[simp] theorem retireWorkers_host (s : State) : (retireWorkers s).host = s.host := rfl
@[simp] theorem retireWorkers_answer (s : State) : (retireWorkers s).answer = s.answer := rfl

@[simp] theorem resetMachine_cfg (s : State) (m : List Host.Cell) :
    (resetMachine s m).cfg = s.cfg := rfl
@[simp] theorem resetMachine_status (s : State) (m : List Host.Cell) :
    (resetMachine s m).status = 0 := rfl
@[simp] theorem resetMachine_err (s : State) (m : List Host.Cell) :
    (resetMachine s m).err = 0 := rfl
@[simp] theorem resetMachine_res (s : State) (m : List Host.Cell) :
    (resetMachine s m).res = 0 := rfl
@[simp] theorem resetMachine_mem (s : State) (m : List Host.Cell) :
    (resetMachine s m).mem = memoryOf s.cfg.memSize m := rfl
@[simp] theorem resetMachine_workers (s : State) (m : List Host.Cell) :
    (resetMachine s m).workers = idleWorkers s := rfl
@[simp] theorem resetMachine_draws (s : State) (m : List Host.Cell) :
    (resetMachine s m).draws = s.draws + 1 := rfl
@[simp] theorem resetMachine_host (s : State) (m : List Host.Cell) :
    (resetMachine s m).host = s.host := rfl
@[simp] theorem resetMachine_answer (s : State) (m : List Host.Cell) :
    (resetMachine s m).answer = s.answer := rfl

@[simp] theorem storeField_cfg (s : State) (a : Word) (v : Nat) :
    (storeField s a v).cfg = s.cfg := rfl
@[simp] theorem storeField_status (s : State) (a : Word) (v : Nat) :
    (storeField s a v).status = s.status := rfl
@[simp] theorem storeField_err (s : State) (a : Word) (v : Nat) :
    (storeField s a v).err = s.err := rfl
@[simp] theorem storeField_res (s : State) (a : Word) (v : Nat) :
    (storeField s a v).res = s.res := rfl
@[simp] theorem storeField_mem (s : State) (a : Word) (v : Nat) :
    (storeField s a v).mem = writeBytes s.mem a.toNat (fieldBytes s.cfg v) := rfl
@[simp] theorem storeField_workers (s : State) (a : Word) (v : Nat) :
    (storeField s a v).workers = s.workers := rfl
@[simp] theorem storeField_draws (s : State) (a : Word) (v : Nat) :
    (storeField s a v).draws = s.draws := rfl
@[simp] theorem storeField_host (s : State) (a : Word) (v : Nat) :
    (storeField s a v).host = s.host := rfl
@[simp] theorem storeField_answer (s : State) (a : Word) (v : Nat) :
    (storeField s a v).answer = s.answer := rfl

@[simp] theorem storeFields_cfg (s : State) (a : Word) (vs : List Nat) :
    (storeFields s a vs).cfg = s.cfg := rfl
@[simp] theorem storeFields_status (s : State) (a : Word) (vs : List Nat) :
    (storeFields s a vs).status = s.status := rfl
@[simp] theorem storeFields_err (s : State) (a : Word) (vs : List Nat) :
    (storeFields s a vs).err = s.err := rfl
@[simp] theorem storeFields_res (s : State) (a : Word) (vs : List Nat) :
    (storeFields s a vs).res = s.res := rfl
@[simp] theorem storeFields_mem (s : State) (a : Word) (vs : List Nat) :
    (storeFields s a vs).mem = writeBytes s.mem a.toNat (vs.flatMap (fieldBytes s.cfg)) := rfl
@[simp] theorem storeFields_workers (s : State) (a : Word) (vs : List Nat) :
    (storeFields s a vs).workers = s.workers := rfl
@[simp] theorem storeFields_draws (s : State) (a : Word) (vs : List Nat) :
    (storeFields s a vs).draws = s.draws := rfl
@[simp] theorem storeFields_host (s : State) (a : Word) (vs : List Nat) :
    (storeFields s a vs).host = s.host := rfl
@[simp] theorem storeFields_answer (s : State) (a : Word) (vs : List Nat) :
    (storeFields s a vs).answer = s.answer := rfl

@[simp] theorem storeAff_cfg (s : State) (a : Word) (p : Aff) : (storeAff s a p).cfg = s.cfg := rfl
@[simp] theorem storeAff_status (s : State) (a : Word) (p : Aff) :
    (storeAff s a p).status = s.status := rfl
@[simp] theorem storeAff_err (s : State) (a : Word) (p : Aff) : (storeAff s a p).err = s.err := rfl
@[simp] theorem storeAff_res (s : State) (a : Word) (p : Aff) : (storeAff s a p).res = s.res := rfl
@[simp] theorem storeAff_mem (s : State) (a : Word) (p : Aff) :
    (storeAff s a p).mem = writeBytes s.mem a.toNat (affBytes s.cfg p) := rfl
@[simp] theorem storeAff_workers (s : State) (a : Word) (p : Aff) :
    (storeAff s a p).workers = s.workers := rfl
@[simp] theorem storeAff_draws (s : State) (a : Word) (p : Aff) :
    (storeAff s a p).draws = s.draws := rfl
@[simp] theorem storeAff_host (s : State) (a : Word) (p : Aff) :
    (storeAff s a p).host = s.host := rfl
@[simp] theorem storeAff_answer (s : State) (a : Word) (p : Aff) :
    (storeAff s a p).answer = s.answer := rfl

@[simp] theorem storeAffs_cfg (s : State) (a : Word) (ps : List Aff) :
    (storeAffs s a ps).cfg = s.cfg := rfl
@[simp] theorem storeAffs_status (s : State) (a : Word) (ps : List Aff) :
    (storeAffs s a ps).status = s.status := rfl
@[simp] theorem storeAffs_err (s : State) (a : Word) (ps : List Aff) :
    (storeAffs s a ps).err = s.err := rfl
@[simp] theorem storeAffs_res (s : State) (a : Word) (ps : List Aff) :
    (storeAffs s a ps).res = s.res := rfl
@[simp] theorem storeAffs_mem (s : State) (a : Word) (ps : List Aff) :
    (storeAffs s a ps).mem = writeBytes s.mem a.toNat (ps.flatMap (affBytes s.cfg)) := rfl
@[simp] theorem storeAffs_workers (s : State) (a : Word) (ps : List Aff) :
    (storeAffs s a ps).workers = s.workers := rfl
@[simp] theorem storeAffs_draws (s : State) (a : Word) (ps : List Aff) :
    (storeAffs s a ps).draws = s.draws := rfl
@[simp] theorem storeAffs_host (s : State) (a : Word) (ps : List Aff) :
    (storeAffs s a ps).host = s.host := rfl
@[simp] theorem storeAffs_answer (s : State) (a : Word) (ps : List Aff) :
    (storeAffs s a ps).answer = s.answer := rfl

@[simp] theorem storeJac_cfg (s : State) (a : Word) (p : Jac) : (storeJac s a p).cfg = s.cfg := rfl
@[simp] theorem storeJac_status (s : State) (a : Word) (p : Jac) :
    (storeJac s a p).status = s.status := rfl
@[simp] theorem storeJac_err (s : State) (a : Word) (p : Jac) : (storeJac s a p).err = s.err := rfl
@[simp] theorem storeJac_res (s : State) (a : Word) (p : Jac) : (storeJac s a p).res = s.res := rfl
@[simp] theorem storeJac_mem (s : State) (a : Word) (p : Jac) :
    (storeJac s a p).mem = writeBytes s.mem a.toNat (jacBytes s.cfg p) := rfl
@[simp] theorem storeJac_workers (s : State) (a : Word) (p : Jac) :
    (storeJac s a p).workers = s.workers := rfl
@[simp] theorem storeJac_draws (s : State) (a : Word) (p : Jac) :
    (storeJac s a p).draws = s.draws := rfl
@[simp] theorem storeJac_host (s : State) (a : Word) (p : Jac) :
    (storeJac s a p).host = s.host := rfl
@[simp] theorem storeJac_answer (s : State) (a : Word) (p : Jac) :
    (storeJac s a p).answer = s.answer := rfl

@[simp] theorem storeScalars_cfg (s : State) (a : Word) (ks : List Nat) :
    (storeScalars s a ks).cfg = s.cfg := rfl
@[simp] theorem storeScalars_status (s : State) (a : Word) (ks : List Nat) :
    (storeScalars s a ks).status = s.status := rfl
@[simp] theorem storeScalars_err (s : State) (a : Word) (ks : List Nat) :
    (storeScalars s a ks).err = s.err := rfl
@[simp] theorem storeScalars_res (s : State) (a : Word) (ks : List Nat) :
    (storeScalars s a ks).res = s.res := rfl
@[simp] theorem storeScalars_mem (s : State) (a : Word) (ks : List Nat) :
    (storeScalars s a ks).mem = writeBytes s.mem a.toNat (ks.flatMap (scalarBytes s.cfg)) := rfl
@[simp] theorem storeScalars_workers (s : State) (a : Word) (ks : List Nat) :
    (storeScalars s a ks).workers = s.workers := rfl
@[simp] theorem storeScalars_draws (s : State) (a : Word) (ks : List Nat) :
    (storeScalars s a ks).draws = s.draws := rfl
@[simp] theorem storeScalars_host (s : State) (a : Word) (ks : List Nat) :
    (storeScalars s a ks).host = s.host := rfl
@[simp] theorem storeScalars_answer (s : State) (a : Word) (ks : List Nat) :
    (storeScalars s a ks).answer = s.answer := rfl

@[simp] theorem storeJacResult_cfg (s : State) (a : Word) (b : Bool) (p : Jac) :
    (storeJacResult s a b p).cfg = s.cfg := rfl
@[simp] theorem storeJacResult_status (s : State) (a : Word) (b : Bool) (p : Jac) :
    (storeJacResult s a b p).status = s.status := rfl
@[simp] theorem storeJacResult_err (s : State) (a : Word) (b : Bool) (p : Jac) :
    (storeJacResult s a b p).err = s.err := rfl
@[simp] theorem storeJacResult_res (s : State) (a : Word) (b : Bool) (p : Jac) :
    (storeJacResult s a b p).res = s.res := rfl
@[simp] theorem storeJacResult_mem (s : State) (a : Word) (b : Bool) (p : Jac) :
    (storeJacResult s a b p).mem =
      writeBytes s.mem a.toNat (jacBytes s.cfg (jacResult s.cfg s.draws b p)) := rfl
@[simp] theorem storeJacResult_workers (s : State) (a : Word) (b : Bool) (p : Jac) :
    (storeJacResult s a b p).workers = s.workers := rfl
@[simp] theorem storeJacResult_draws (s : State) (a : Word) (b : Bool) (p : Jac) :
    (storeJacResult s a b p).draws = s.draws + 1 := rfl
@[simp] theorem storeJacResult_host (s : State) (a : Word) (b : Bool) (p : Jac) :
    (storeJacResult s a b p).host = s.host := rfl
@[simp] theorem storeJacResult_answer (s : State) (a : Word) (b : Bool) (p : Jac) :
    (storeJacResult s a b p).answer = s.answer := rfl

end Sys2Proof.Machine
end

