-- ==== Sys2Proof/Laws/Steps.lean ====
section
/-! SUPPORT. What the shared operations of a step can do: two outputs stored, a descriptor issued, a move
made. -/

namespace Sys2Proof.Machine

/-! ### Two outputs stored (rule R47) -/

@[simp] theorem freeBytes_length (draw lo n : Nat) : (freeBytes draw lo n).length = n := by
  simp [freeBytes]

/-- Everything storing two outputs can do: one memory after the other, and where they share bytes, free bytes
over those and one draw. -/
theorem storeTwo_cases (s : State) (a : Nat) (bs : List Byte) (a' : Nat) (bs' : List Byte) :
    (overlapEnd a bs a' bs' ≤ overlapStart a a' ∧
        storeTwo s a bs a' bs' = storeBytes (storeBytes s a bs) a' bs') ∨
      (overlapStart a a' < overlapEnd a bs a' bs' ∧
        ∃ free : List Byte, free.length = overlapEnd a bs a' bs' - overlapStart a a' ∧
          storeTwo s a bs a' bs' =
            drawn (storeBytes (storeBytes (storeBytes s a bs) a' bs') (overlapStart a a') free)) := by
  unfold storeTwo
  split
  · rename_i h
    exact .inr ⟨h, _, freeBytes_length _ _ _, rfl⟩
  · rename_i h
    exact .inl ⟨by omega, rfl⟩

@[simp] theorem storeTwo_cfg (s : State) (a : Nat) (bs : List Byte) (a' : Nat) (bs' : List Byte) :
    (storeTwo s a bs a' bs').cfg = s.cfg := by
  unfold storeTwo; split <;> rfl
@[simp] theorem storeTwo_status (s : State) (a : Nat) (bs : List Byte) (a' : Nat) (bs' : List Byte) :
    (storeTwo s a bs a' bs').status = s.status := by
  unfold storeTwo; split <;> rfl
@[simp] theorem storeTwo_err (s : State) (a : Nat) (bs : List Byte) (a' : Nat) (bs' : List Byte) :
    (storeTwo s a bs a' bs').err = s.err := by
  unfold storeTwo; split <;> rfl
@[simp] theorem storeTwo_res (s : State) (a : Nat) (bs : List Byte) (a' : Nat) (bs' : List Byte) :
    (storeTwo s a bs a' bs').res = s.res := by
  unfold storeTwo; split <;> rfl
@[simp] theorem storeTwo_workers (s : State) (a : Nat) (bs : List Byte) (a' : Nat)
    (bs' : List Byte) : (storeTwo s a bs a' bs').workers = s.workers := by
  unfold storeTwo; split <;> rfl
@[simp] theorem storeTwo_host (s : State) (a : Nat) (bs : List Byte) (a' : Nat) (bs' : List Byte) :
    (storeTwo s a bs a' bs').host = s.host := by
  unfold storeTwo; split <;> rfl

@[simp] theorem storeTwo_answer (s : State) (a : Nat) (bs : List Byte) (a' : Nat)
    (bs' : List Byte) : (storeTwo s a bs a' bs').answer = s.answer := by
  unfold storeTwo; split <;> rfl

/-- A byte that does not lie in both outputs reads as if they were stored one after the other. -/
theorem readByte_storeTwo (s : State) (a : Nat) (bs : List Byte) (a' : Nat) (bs' : List Byte)
    (b : Nat) (h : ¬((a ≤ b ∧ b < a + bs.length) ∧ (a' ≤ b ∧ b < a' + bs'.length))) :
    readByte (storeTwo s a bs a' bs').mem b =
      readByte (writeBytes (writeBytes s.mem a bs) a' bs') b := by
  rcases storeTwo_cases s a bs a' bs' with ⟨-, h2⟩ | ⟨-, free, hl, h2⟩
  · rw [h2]
    rfl
  · rw [h2]
    simp only [drawn_mem, storeBytes_mem]
    refine readByte_writeBytes_outside ?_
    unfold overlapStart overlapEnd at *
    omega

/-! ### Moves -/

/-- A step makes the host's next move. -/
theorem step_of_host {s : State} {m : HostMove} {rest : List HostMove} (h : s.host = m :: rest) :
    step s = makeMove m (hostAdvanced s rest) := by
  unfold step
  rw [h]

/-- All a step that answers a next state can do. -/
theorem step_eq_next {s t : State} (h : step s = .next t) :
    (s.host = [] ∧ t = s) ∨
      ∃ m rest, s.host = m :: rest ∧ makeMove m (hostAdvanced s rest) = .next t := by
  unfold step at h
  split at h
  · rename_i h0
    exact .inl ⟨h0, by cases h; rfl⟩
  · rename_i m rest h0
    exact .inr ⟨m, rest, h0, h⟩

/-- All an access by the host that answers a next state can do. -/
theorem hostAccess_eq_next {s t u : State} {a n : Nat} (h : hostAccess s a n t = .next u) :
    a + n ≤ s.cfg.memSize ∧ u = t := by
  unfold hostAccess at h
  split at h
  · rename_i hf
    exact ⟨hf, by cases h; rfl⟩
  · cases h

/-- All a move that answers a next state can do. -/
theorem makeMove_eq_next {m : HostMove} {s t : State} (h : makeMove m s = .next t) :
    (∃ contents, m = .reset contents ∧ t = resetMachine s contents) ∨
      (∃ a bs, m = .write a bs ∧ busy s = false ∧ a + bs.length ≤ s.cfg.memSize ∧
        t = storeBytes s a bs) ∨
      (∃ a n, m = .read a n ∧ busy s = false ∧ a + n ≤ s.cfg.memSize ∧
        t = setAnswer s (.bytes (readBytes s.mem a n))) ∨
      (∃ number, m = .readRegister number ∧ t = setAnswer s (.register (readPort s number))) ∨
      ∃ d, m = .issue d ∧ busy s = false ∧ issue d s = .next t := by
  cases m with
  | reset contents =>
    cases h
    exact .inl ⟨contents, rfl, rfl⟩
  | write a bs =>
    simp only [makeMove] at h
    split at h
    · cases h
    · rename_i hb
      obtain ⟨hf, rfl⟩ := hostAccess_eq_next h
      exact .inr (.inl ⟨a, bs, rfl, by simpa using hb, hf, rfl⟩)
  | read a n =>
    simp only [makeMove] at h
    split at h
    · cases h
    · rename_i hb
      obtain ⟨hf, rfl⟩ := hostAccess_eq_next h
      exact .inr (.inr (.inl ⟨a, n, rfl, by simpa using hb, hf, rfl⟩))
  | readRegister number =>
    cases h
    exact .inr (.inr (.inr (.inl ⟨number, rfl, rfl⟩)))
  | issue d =>
    simp only [makeMove] at h
    split at h
    · cases h
    · rename_i hb
      exact .inr (.inr (.inr (.inr ⟨d, rfl, by simpa using hb, h⟩)))

/-- All issuing a descriptor can do when it answers a next state. -/
theorem issue_eq_next {d : Descriptor} {s t : State} (h : issue d s = .next t) :
    (faulted s = true ∧ t = s) ∨
      (faulted s = false ∧ ∃ i, decodeIssued s d = .ok i ∧ exec i s = .next t) ∨
      (faulted s = false ∧ ∃ c, decodeIssued s d = .error c ∧
        t = raiseFault s c (opcodeField d)) := by
  unfold issue at h
  split at h
  · rename_i hf
    cases h
    exact .inl ⟨hf, rfl⟩
  · rename_i hf
    have hf : faulted s = false := by simpa using hf
    split at h
    · rename_i i hi
      exact .inr (.inl ⟨hf, i, hi, h⟩)
    · rename_i c hc
      cases h
      exact .inr (.inr ⟨hf, c, hc, rfl⟩)

end Sys2Proof.Machine
end

