-- ==== Sys2Proof/Tests/Slice0.lean ====
section
/-! SUPPORT. Tests, each a named theorem. Expected results come from `95_test_vectors.md` or are worked out by
hand from a rule; the section or the rule is named. The witnesses at the end show, for every statement with
hypotheses, states and operands that meet them, clause by clause. -/

namespace Sys2Proof.Tests

open Sys2Proof Sys2Proof.Machine

-- One theorem at a time: elaborated side by side, these small evaluations take a thread each.
set_option Elab.async false

/-! ### Helpers -/

/-- `TOY13` as `95_test_vectors.md` uses it: no GLV, reference triples. -/
def ref : Config := { Config.toy13 with glvEnabled := false, jacobian := .reference }

/-- The same with signed digits. -/
def signed : Config := { ref with signedDigits := true }

/-- The same with GLV (`95_test_vectors.md` section 5). -/
def glv : Config := { ref with glvEnabled := true }

/-- A memory with the given eight-byte integers. -/
def memory (cells : List (Nat × Nat)) : Memory :=
  cells.foldl (fun m c => writeBytes m c.1 (leBytes 8 c.2)) []

/-- A state after reset with the given configuration and eight-byte integers. -/
def at8 (cfg : Config) (cells : List (Nat × Nat)) : State :=
  { State.reset with cfg := cfg, mem := memory cells }

/-- `count` integers of `size` bytes from an address, in the state a command ends in. -/
def reads (o : Host.Outcome State Fault Refusal) (a size count : Nat) : Option (List Nat) :=
  match o with
  | .next t => some ((List.range count).map fun i => readInt t.mem (a + i * size) size)
  | _ => none

/-- `STATUS`, `ERR` and `RES` in the state a command ends in. -/
def regs (o : Host.Outcome State Fault Refusal) : Option (Nat × Nat × Nat) :=
  match o with
  | .next t => some (t.status.toNat, t.err.toNat, t.res.toNat)
  | _ => none

/-! ### Well-formedness: ill-formed terms are refused (rules R61, R64, R68) -/

theorem test_wf_group : (Instr.fadd 1 0 0 0).wellFormed ref = false := by decide
theorem test_wf_glv_off : (Instr.glvsplit 0 0 8).wellFormed ref = false := by decide
theorem test_wf_width_0 : (Instr.bred 0 0 8 0).wellFormed ref = false := by decide
theorem test_wf_width_32 : (Instr.rfold 0 0 0 0 32).wellFormed ref = false := by decide
theorem test_wf_sort_width_32 : (Instr.bsort 0 0 0 0 0 32).wellFormed ref = false := by decide
theorem test_wf_chain_width_0 : (Instr.chain 0 0 0 0 0 0 0).wellFormed ref = false := by decide
theorem test_wf_bits_0 : (Instr.sched 0 0 0 0 0 1 0).wellFormed ref = false := by decide
theorem test_wf_bits_65 : (Instr.sched 0 0 0 0 0 1 65).wellFormed ref = false := by decide
theorem test_wf_bounds : (Instr.sched 0 0 0 0 0 31 64).wellFormed ref = true ∧
    (Instr.glvsplit 0 0 8).wellFormed glv = true := by decide

/-! ### Decoding: one word of every constructor, written out from rules R61 and R63 -/

theorem test_decode_fadd : decode true ⟨0x00000010#32, 1, 2, 3, 0, 0, 0⟩
    = .ok (.fadd 0 1 2 3) := by decide
theorem test_decode_fsub : decode true ⟨0x00000011#32, 1, 2, 3, 0, 0, 0⟩
    = .ok (.fsub 0 1 2 3) := by decide
theorem test_decode_fneg : decode true ⟨0x00000012#32, 1, 2, 0, 0, 0, 0⟩
    = .ok (.fneg 0 1 2) := by decide
theorem test_decode_fmul : decode true ⟨0x00000013#32, 1, 2, 3, 0, 0, 0⟩
    = .ok (.fmul 0 1 2 3) := by decide
theorem test_decode_fsqr : decode true ⟨0x00000014#32, 1, 2, 0, 0, 0, 0⟩
    = .ok (.fsqr 0 1 2) := by decide
theorem test_decode_ftom : decode true ⟨0x00000015#32, 1, 2, 0, 0, 0, 0⟩
    = .ok (.ftom 0 1 2) := by decide
theorem test_decode_ffromm : decode true ⟨0x00000016#32, 1, 2, 0, 0, 0, 0⟩
    = .ok (.ffromm 0 1 2) := by decide
theorem test_decode_finv : decode true ⟨0x00000017#32, 1, 2, 0, 0, 0, 0⟩
    = .ok (.finv 0 1 2) := by decide
theorem test_decode_fissq : decode true ⟨0x00000018#32, 1, 0, 0, 0, 0, 0⟩
    = .ok (.fissq 0 1) := by decide
theorem test_decode_fsqrt : decode true ⟨0x00000019#32, 1, 2, 0, 0, 0, 0⟩
    = .ok (.fsqrt 0 1 2) := by decide
theorem test_decode_fbinv : decode true ⟨0x0000001A#32, 1, 2, 3, 0, 0, 0⟩
    = .ok (.fbinv 0 1 2 3) := by decide
theorem test_decode_padda : decode true ⟨0x00000020#32, 1, 2, 3, 0, 0, 0⟩
    = .ok (.padda 0 1 2 3) := by decide
theorem test_decode_padd : decode true ⟨0x00000021#32, 1, 2, 3, 0, 0, 0⟩
    = .ok (.padd 0 1 2 3) := by decide
theorem test_decode_pdbl : decode true ⟨0x00000022#32, 1, 2, 0, 0, 0, 0⟩
    = .ok (.pdbl 0 1 2) := by decide
theorem test_decode_pneg : decode true ⟨0x00000023#32, 1, 2, 0, 0, 0, 0⟩
    = .ok (.pneg 0 1 2) := by decide
theorem test_decode_pnega : decode true ⟨0x00000024#32, 1, 2, 0, 0, 0, 0⟩
    = .ok (.pnega 0 1 2) := by decide
theorem test_decode_pmul : decode true ⟨0x00000025#32, 1, 2, 3, 0, 0, 0⟩
    = .ok (.pmul 0 1 2 3) := by decide
theorem test_decode_ptoaff : decode true ⟨0x00000026#32, 1, 2, 0, 0, 0, 0⟩
    = .ok (.ptoaff 0 1 2) := by decide
theorem test_decode_peq : decode true ⟨0x00000027#32, 1, 2, 0, 0, 0, 0⟩
    = .ok (.peq 0 1 2) := by decide
theorem test_decode_pisz : decode true ⟨0x00000028#32, 1, 0, 0, 0, 0, 0⟩
    = .ok (.pisz 0 1) := by decide
theorem test_decode_pbadd : decode true ⟨0x00000029#32, 1, 2, 3, 4, 0, 0⟩
    = .ok (.pbadd 0 1 2 3 4) := by decide
theorem test_decode_pbtoaff : decode true ⟨0x0000002A#32, 1, 2, 3, 0, 0, 0⟩
    = .ok (.pbtoaff 0 1 2 3) := by decide
theorem test_decode_glvsplit : decode true ⟨0x00000030#32, 1, 2, 0, 0, 0, 0⟩
    = .ok (.glvsplit 0 1 2) := by decide
theorem test_decode_glvexp : decode true ⟨0x00000031#32, 1, 2, 3, 4, 5, 0⟩
    = .ok (.glvexp 0 1 2 3 4 5) := by decide
theorem test_decode_sched : decode true ⟨0x00000040#32, 1, 2, 3, 4, 5, 6⟩
    = .ok (.sched 0 1 2 3 4 5 6) := by decide
theorem test_decode_bsort : decode true ⟨0x00000041#32, 1, 2, 3, 4, 5, 0⟩
    = .ok (.bsort 0 1 2 3 4 5) := by decide
theorem test_decode_chain : decode true ⟨0x00000042#32, 1, 2, 3, 4, 5, 6⟩
    = .ok (.chain 0 1 2 3 4 5 6) := by decide
theorem test_decode_bred : decode true ⟨0x00000043#32, 1, 2, 3, 0, 0, 0⟩
    = .ok (.bred 0 1 2 3) := by decide
theorem test_decode_rfold : decode true ⟨0x00000044#32, 1, 2, 3, 4, 0, 0⟩
    = .ok (.rfold 0 1 2 3 4) := by decide
theorem test_decode_mexp : decode true ⟨0x00000050#32, 1, 2, 3, 4, 5, 6⟩
    = .ok (.mexp 0 1 2 3 4 5 6) := by decide
theorem test_decode_mexpn : decode true ⟨0x00000051#32, 1, 2, 3, 4, 5, 6⟩
    = .ok (.mexpn 0 1 2 3 4 5 6) := by decide

/-- Bits 15:8 are the group selector (rule R61). -/
theorem test_decode_group : decode true ⟨0x00000712#32, 1, 2, 0, 0, 0, 0⟩
    = .ok (.fneg 7 1 2) := by decide

/-- Section 9: an all-zero descriptor, a reserved bit, an unused operand, and the opcode first. -/
theorem test_decode_rejects :
    decode true ⟨0, 0, 0, 0, 0, 0, 0⟩ = .error .illegalOpcode ∧
    decode true ⟨0x000000FF#32, 0, 0, 0, 0, 0, 0⟩ = .error .illegalOpcode ∧
    decode false ⟨0x00000030#32, 0x10#32, 0, 0, 0, 0, 0⟩ = .error .illegalOpcode ∧
    decode true ⟨0x00010010#32, 0x10#32, 0, 8, 0, 0, 0⟩ = .error .reservedNonzero ∧
    decode true ⟨0x00000012#32, 0x10#32, 8, 8, 0, 0, 0⟩ = .error .reservedNonzero ∧
    decode true ⟨0x00010000#32, 0, 0, 0, 0, 0, 0⟩ = .error .illegalOpcode := by decide

/-- Program P1's first descriptor as bytes on the stream (section 10). -/
theorem test_decode_bytes :
    decodeBytes false ([0x15#8, 0, 0, 0, 0x20#8, 0, 0, 0] ++ List.replicate 20 0)
      = .ok (.ftom 0 0x20#32 0) := by decide

theorem test_decode_length : decodeBytes false (List.replicate 27 0) = .error .wrongLength := by
  decide

/-! ### Constants (section 2) -/

/-- `BN254FR` with 32-bit and with 64-bit limbs. -/
def bn : Config := Config.bn254fr ref
def bn64 : Config := { bn with limbBits := 64 }

theorem test_toy_constants : n8 ref = 8 ∧ montOne ref = 3 ∧ montRSquared ref = 9 ∧
    montRInv ref = 9 ∧ montMInv ref = 0x3b13b13b ∧ limbCount ref = 2 ∧
    twoAdicity ref = 2 ∧ oddPart ref = 3 ∧ montNonresiduePower ref = 11 := by decide +kernel

theorem test_bn254_constants : n8 bn = 32 ∧
    montOne bn = 0x0e0a77c19a07df2f666ea36f7879462e36fc76959f60cd29ac96341c4ffffffb ∧
    montRSquared bn = 0x0216d0b17f4e44a58c49833d53bb808553fe3ab1e35c59e31bb8e645ae216da7 ∧
    (limbCount bn = 8 ∧ montMInv bn = 0xefffffff) ∧
    (limbCount bn64 = 4 ∧ montMInv bn64 = 0xc2e1f593efffffff) ∧
    twoAdicity bn = 28 ∧
    montNonresiduePower bn = 0x1860ef942963f9e756452ac01eb203d8a22bf3742445ffd6636e735580d13d9c := by
  decide +kernel

/-- The source's concrete case, vector S1. -/
theorem test_bn254_source_case :
    toMontgomery bn 0xffffffffffffffffffff
      = 0x113f9b9765c57f2f032851cccd1a14846f1d34cf4ef3071f262a4c3aa5854f91 ∧
    fmul bn 0x113f9b9765c57f2f032851cccd1a14846f1d34cf4ef3071f262a4c3aa5854f91
        0x113f9b9765c57f2f032851cccd1a14846f1d34cf4ef3071f262a4c3aa5854f91
      = 0x1dd23f467af3be913121c165871fe0531a67e5b084b12930397f44db40ad0ee4 ∧
    fromMontgomery bn 0x1dd23f467af3be913121c165871fe0531a67e5b084b12930397f44db40ad0ee4
      = 0xffffffffffffffffffff * 0xffffffffffffffffffff := by decide +kernel

/-! ### Field commands (sections 3.1, 3.2) -/

theorem test_fadd_wraps : reads (exec (.fadd 0 0x18 8 0x10) (at8 ref [(8, 12), (0x10, 12)]))
    0x18 8 1 = some [11] := by decide +kernel
theorem test_fadd_modulus : reads (exec (.fadd 0 8 8 0x10) (at8 ref [(8, 12), (0x10, 1)]))
    8 8 1 = some [0] := by decide +kernel
theorem test_fsub_borrows : reads (exec (.fsub 0 0x18 8 0x10) (at8 ref [(8, 5), (0x10, 7)]))
    0x18 8 1 = some [11] := by decide +kernel
theorem test_fneg_zero : reads (exec (.fneg 0 0x18 8) (at8 ref [(0x18, 7)])) 0x18 8 1
    = some [0] := by decide +kernel
theorem test_fneg : reads (exec (.fneg 0 0x18 8) (at8 ref [(8, 5)])) 0x18 8 1
    = some [8] := by decide +kernel
theorem test_fmul : reads (exec (.fmul 0 0x18 8 0x10) (at8 ref [(8, 6), (0x10, 9)]))
    0x18 8 1 = some [5] := by decide +kernel
theorem test_fsqr : reads (exec (.fsqr 0 0x18 8) (at8 ref [(8, 12)])) 0x18 8 1
    = some [9] := by decide +kernel
theorem test_ftom : reads (exec (.ftom 0 0x18 8) (at8 ref [(8, 4)])) 0x18 8 1
    = some [12] := by decide +kernel
theorem test_ffromm : reads (exec (.ffromm 0 0x18 8) (at8 ref [(8, 4)])) 0x18 8 1
    = some [10] := by decide +kernel
theorem test_finv : reads (exec (.finv 0 0x18 8) (at8 ref [(8, 2)])) 0x18 8 1
    = some [11] := by decide +kernel
theorem test_finv_zero : regs (exec (.finv 0 0x20 0) (at8 ref [])) = some (2, 0x1721, 0) := by
  decide +kernel
theorem test_fissq : regs (exec (.fissq 0 8) (at8 ref [(8, 12)])) = some (0, 0, 1) := by
  decide +kernel
theorem test_fissq_zero : regs (exec (.fissq 0 8) (at8 ref [])) = some (0, 0, 0) := by
  decide +kernel
theorem test_fsqrt : reads (exec (.fsqrt 0 0x18 8) (at8 ref [(8, 4)])) 0x18 8 1
    = some [5] := by decide +kernel
theorem test_fsqrt_nonresidue : regs (exec (.fsqrt 0 0x10 0) (at8 ref [(0, 6)]))
    = some (2, 0x1922, 0) := by decide +kernel
theorem test_fbinv_overlap : reads (exec (.fbinv 0 8 0 3) (at8 ref [(0, 6), (0x10, 9)])) 8 8 3
    = some [8, 0, 1] := by decide +kernel

/-! ### Curve commands (sections 4.2, 4.3) -/

theorem test_padda_chord :
    reads (exec (.padda 0 0x40 0 0x10) (at8 ref [(0, 3), (8, 12), (0x10, 6), (0x18, 8)])) 0x40 8 2
      = some [5, 8] := by decide +kernel
theorem test_padda_tangent : reads (exec (.padda 0 0x40 0 0) (at8 ref [(0, 3), (8, 12)])) 0x40 8 2
    = some [6, 8] := by decide +kernel
theorem test_padd :
    reads (exec (.padd 0 0x60 0 0x20) (at8 ref
      [(0, 12), (8, 5), (0x10, 6), (0x20, 3), (0x28, 12), (0x30, 3)])) 0x60 8 3
      = some [11, 1, 7] := by decide +kernel
theorem test_pdbl_in_place : reads (exec (.pdbl 0 0 0) (at8 ref [(0, 3), (8, 12), (0x10, 3)])) 0 8 3
    = some [7, 1, 11] := by decide +kernel
theorem test_pneg : reads (exec (.pneg 0 0x20 0) (at8 ref [(0, 5), (8, 7)])) 0x20 8 3
    = some [5, 6, 0] := by decide +kernel
theorem test_pnega : reads (exec (.pnega 0 0x20 0) (at8 ref [(0, 3), (8, 12)])) 0x20 8 2
    = some [3, 1] := by decide +kernel
theorem test_pmul :
    reads (exec (.pmul 0 0x20 0 0x18) (at8 ref [(0, 3), (8, 12), (0x10, 3), (0x18, 5)])) 0x20 8 3
      = some [11, 12, 11] := by decide +kernel
theorem test_ptoaff :
    reads (exec (.ptoaff 0 0x20 0) (at8 ref [(0, 12), (8, 5), (0x10, 6)])) 0x20 8 2
      = some [3, 12] := by decide +kernel
theorem test_ptoaff_infinity : reads (exec (.ptoaff 0 0x20 0) (at8 ref [(0, 5), (8, 7)])) 0x20 8 2
    = some [0, 0] := by decide +kernel
theorem test_peq_classes :
    regs (exec (.peq 0 0 0x20) (at8 ref
      [(0, 12), (8, 5), (0x10, 6), (0x20, 3), (0x28, 12), (0x30, 3)])) = some (0, 0, 1) := by
  decide +kernel
theorem test_peq_infinity : regs (exec (.peq 0 0 0x20) (at8 ref
    [(0, 5), (8, 7), (0x20, 3), (0x28, 12), (0x30, 3)])) = some (0, 0, 0) := by decide +kernel
theorem test_pisz : regs (exec (.pisz 0 0) (at8 ref [(0, 5), (8, 7)])) = some (0, 0, 1) := by
  decide +kernel
theorem test_pisz_only_z : regs (exec (.pisz 0 0) (at8 ref [(0x10, 5)])) = some (0, 0, 0) := by
  decide +kernel
theorem test_pbadd :
    reads (exec (.pbadd 0 0x80 0 0x40 3) (at8 ref
      [(0, 3), (8, 12), (0x10, 3), (0x18, 12), (0x20, 0), (0x28, 0),
        (0x40, 6), (0x48, 8), (0x50, 3), (0x58, 1), (0x60, 2), (0x68, 5)])) 0x80 8 6
      = some [5, 8, 0, 0, 2, 5] := by decide +kernel
theorem test_pbtoaff :
    reads (exec (.pbtoaff 0 0x80 0 3) (at8 ref
      [(0, 12), (8, 5), (0x10, 6), (0x18, 5), (0x20, 7), (0x30, 7), (0x38, 1), (0x40, 11)])) 0x80 8 6
      = some [3, 12, 0, 0, 6, 8] := by decide +kernel

/-! ### GLV commands (section 5) -/

theorem test_glvsplit :
    reads (exec (.glvsplit 0 0x10 0) (at8 glv [(0, 26)])) 0x10 8 2 = some [1, 1] ∧
    regs (exec (.glvsplit 0 0x10 0) (at8 glv [(0, 26)])) = some (0, 0, 3) := by decide +kernel
theorem test_glvsplit_basis : regs (exec (.glvsplit 0 0x10 0) (at8 { glv with glvBits := 1 } [(0, 5)]))
    = some (2, 0x301A, 0) := by decide +kernel
theorem test_glvexp :
    reads (exec (.glvexp 0 0x80 0x100 0 0x30 1) (at8 glv [(0, 3), (8, 12), (0x30, 7)])) 0x80 8 4
      = some [3, 1, 9, 1] ∧
    reads (exec (.glvexp 0 0x80 0x100 0 0x30 1) (at8 glv [(0, 3), (8, 12), (0x30, 7)])) 0x100 8 2
      = some [1, 1] := by decide +kernel

/-! ### Stage commands (sections 6 and 7) -/

theorem test_sched_unsigned :
    reads (exec (.sched 0 0x40 0xC0 0 4 2 5) (at8 ref [(0, 7), (8, 13), (0x18, 18)])) 0x40 8 4
      = some [0x300000000, 0x100000001, 2 ^ 64 - 1, 0x200000003] ∧
    reads (exec (.sched 0 0x40 0xC0 0 4 2 5) (at8 ref [(0, 7), (8, 13), (0x18, 18)])) 0xC0 4 3
      = some [3, 2, 1] := by decide +kernel
theorem test_sched_signed :
    reads (exec (.sched 0 0x40 0xC0 0 1 4 8) (at8 signed [(0, 255)])) 0x40 8 3
      = some [0x8000000100000000, 2 ^ 64 - 1, 0x100000000] ∧
    reads (exec (.sched 0 0x40 0xC0 0 1 4 8) (at8 signed [(0, 0x88)])) 0x40 8 3
      = some [0x800000000, 0x800000000, 2 ^ 64 - 1] := by decide +kernel
theorem test_bsort :
    reads (exec (.bsort 0 0x100 0x140 0x60 4 2) (at8 ref
      [(0x60, 0x100000000), (0x68, 0x300000001), (0x70, 2 ^ 64 - 1), (0x78, 2 ^ 64 - 1),
        (0x110, 0xEE)])) 0x100 8 3 = some [0x100000000, 0x300000001, 0xEE] ∧
    reads (exec (.bsort 0 0x100 0x140 0x60 4 2) (at8 ref
      [(0x60, 0x100000000), (0x68, 0x300000001), (0x70, 2 ^ 64 - 1), (0x78, 2 ^ 64 - 1)]))
      0x140 4 4 = some [0, 1, 1, 2] := by decide +kernel
theorem test_bsort_stable :
    reads (exec (.bsort 0 0x100 0x140 0x60 2 2) (at8 signed
      [(0x60, 0x8000000100000000), (0x68, 0x100000001)])) 0x100 8 2
      = some [0x8000000100000000, 0x100000001] := by decide +kernel
theorem test_chain :
    reads (exec (.chain 0 0x100 0x80 0xC0 0 2 2) (at8 signed
      [(0, 3), (8, 12), (0x10, 6), (0x18, 8), (0x80, 0x100000000), (0x88, 0x8000000100000000),
        (0x90, 0x200000001), (0x98, 0x200000001), (0xC0, 0x200000000), (0xC8, 4)])) 0x100 8 4
      = some [0, 0, 4, 3] := by decide +kernel
theorem test_chain_entry :
    regs (exec (.chain 0 0x100 0x80 0xC0 0 2 2) (at8 signed
      [(0, 3), (8, 12), (0x10, 6), (0x18, 8), (0x80, 0x200000000), (0xC0, 0x100000000), (0xC8, 1)]))
      = some (2, 0x4219, 0) := by decide +kernel
theorem test_bred :
    reads (exec (.bred 0 0x100 0 2) (at8 ref
      [(0, 4), (8, 3), (0x10, 2), (0x18, 5), (0x20, 12), (0x28, 3)])) 0x100 8 3
      = some [9, 11, 7] := by decide +kernel
theorem test_rfold :
    reads (exec (.rfold 0 0x100 0 2 1) (at8 ref
      [(0, 12), (8, 5), (0x10, 6), (0x18, 3), (0x20, 12), (0x28, 3)])) 0x100 8 3
      = some [7, 1, 7] := by decide +kernel

/-! ### Multi-exponentiation (section 8) -/

theorem test_mexp :
    reads (exec (.mexp 0 0xE0 0 0x10 0x40 8 1) (at8 ref [(0, 3), (8, 12), (0x40, 7)])) 0xE0 8 3
      = some [12, 5, 2] := by decide +kernel
theorem test_mexp_arena :
    regs (exec (.mexp 0 0xE0 0 0x10 0x40 8 1) (at8 { ref with arenaSize := 100 }
      [(0, 3), (8, 12), (0x40, 7)])) = some (2, 0x5031, 0) := by decide +kernel
theorem test_mexpn :
    reads (exec (.mexpn 0 0xE0 0 0x10 0x40 8 1) (at8 ref [(0, 3), (8, 12), (0x40, 3)])) 0xE0 8 3
      = some [6, 8, 9] := by decide +kernel
theorem test_mexpn_length :
    regs (exec (.mexpn 0 0xE0 0 0x28 0x40 0x10 2) (at8 ref [])) = some (2, 0x5115, 0) := by
  decide +kernel

/-! ### Faults and the host's moves (section 9, program P4) -/

theorem test_unknown_group : regs (exec (.fadd 1 0x10 0 8) (at8 ref [])) = some (2, 0x1013, 0) := by
  decide +kernel
theorem test_misaligned_first : regs (exec (.fadd 0 0x14 0 8) (at8 ref [(0, 13)]))
    = some (2, 0x1016, 0) := by decide +kernel
theorem test_no_wrap_around : regs (exec (.fadd 0 0xFFFFFFF8 0 8) (at8 { ref with memSize := 0x100 } []))
    = some (2, 0x1017, 0) := by decide +kernel
theorem test_last_bytes : reads (exec (.fadd 0 0xF8 0 8) (at8 { ref with memSize := 0x100 } [(0, 1)]))
    0xF8 8 1 = some [1] := by decide +kernel
theorem test_noncanonical : regs (exec (.fadd 0 0x10 0 8) (at8 ref [(0, 13)]))
    = some (2, 0x1023, 0) := by decide +kernel
theorem test_bad_param : regs (exec (.sched 0 0x40 0xC0 0 1 32 5) (at8 ref []))
    = some (2, 0x4018, 0) := by decide +kernel

/-- Program P4, steps 2 to 4: a fault, a refusal, a reset. -/
theorem test_fault_refusal_reset :
    regs (Host.Core.run core 3 { at8 ref [(8, 5), (0x10, 7)] with
      host := [.issue ⟨0x17#32, 0x20#32, 0, 0, 0, 0, 0⟩,
        .issue ⟨0x10#32, 0x28#32, 8#32, 0x10#32, 0, 0, 0⟩, .reset []] }) = some (0, 0, 0) ∧
    regs (Host.Core.run core 2 { at8 ref [(8, 5), (0x10, 7)] with
      host := [.issue ⟨0x17#32, 0x20#32, 0, 0, 0, 0, 0⟩,
        .issue ⟨0x10#32, 0x28#32, 8#32, 0x10#32, 0, 0, 0⟩] }) = some (2, 0x1721, 0) := by
  decide +kernel

/-- A table word runs as the first command after reset. -/
theorem test_fetch_word :
    regs (step (State.reset.withFetchWord 224 0x28)) = some (0, 0, 1) := by decide +kernel

/-! ### Witnesses: every statement with hypotheses has states and operands that meet them -/

theorem ref_valid : FieldValid ref := ⟨by norm_num [ref, Config.toy13], by decide⟩

theorem toy_valid : FieldValid Config.toy13 := ⟨by norm_num [Config.toy13], by decide⟩

theorem toy_dispatch : DispatchValid ref ∧ DispatchValid Config.toy13 := by decide +kernel

theorem toy_lattice : LatticeValid Config.toy13 := by decide +kernel

theorem toy_config : ConfigValid Config.toy13 :=
  ⟨toy_valid, by decide, by decide +kernel, by decide, toy_dispatch.2, fun _ => by decide +kernel⟩

/-- Conditions of rules R110, R141 and R242 that fail: `b = 13`, `β` of value 1, one bit for the splits. -/
theorem test_config_invalid : ¬CurveValid { ref with curveB := 13 } ∧
    ¬EndomorphismValid { ref with beta := 3 } ∧ ¬SplitsFit { ref with glvBits := 1 } := by
  decide +kernel

theorem witness_GlvSplitLaws : LatticeValid Config.toy13 := toy_lattice

theorem witness_DecodeOfEncode :
    (true || !(Instr.glvexp 0 8 16 24 32 1).isGlv) = true ∧
      (false || !(Instr.mexpn 255 8 16 24 32 1 1).isGlv) = true := by decide

theorem witness_EncodeOfDecode :
    decode false ⟨0x00000018#32, 0x40#32, 0, 0, 0, 0, 0⟩ = .ok (.fissq 0 0x40#32) ∧
      decodeBytes false (0x28#8 :: List.replicate 27 0) = .ok (.pisz 0 0) := by decide

/-- The three clauses: opcode 0x00, a GLV opcode without GLV; bit 16 set, operand `a1` of a one-operand
command; the last listed opcode. -/
theorem witness_IllegalEncodingsFault :
    busy (at8 ref []) = false ∧ faulted (at8 ref []) = false ∧
    IllegalOpcode false (opcodeField ⟨0, 0, 0, 0, 0, 0, 0⟩) ∧
    IllegalOpcode false (opcodeField ⟨0x31#32, 0, 0, 0, 0, 0, 0⟩) ∧
    (¬IllegalOpcode false (opcodeField ⟨0x10010#32, 0, 0, 0, 0, 0, 0⟩) ∧
      ReservedBitSet ⟨0x10010#32, 0, 0, 0, 0, 0, 0⟩) ∧
    (¬IllegalOpcode false (opcodeField ⟨0x18#32, 0, 1, 0, 0, 0, 0⟩) ∧
      ReservedBitSet ⟨0x18#32, 0, 1, 0, 0, 0, 0⟩) ∧
    (¬IllegalOpcode false (opcodeField ⟨0x51#32, 0, 0, 0, 0, 0, 1⟩) ∧
      ¬ReservedBitSet ⟨0x51#32, 0, 0, 0, 0, 0, 1⟩) := by decide

theorem witness_StepRunsDecoded :
    (State.reset.withFetchWord 224 0x28).host = [.issue ⟨0x28#32, 0, 0, 0, 0, 0, 0⟩] ∧
      busy (State.reset.withFetchWord 224 0x28) = false ∧
      faulted (State.reset.withFetchWord 224 0x28) = false ∧
      decode true ⟨0x28#32, 0, 0, 0, 0, 0, 0⟩ = .ok (.pisz 0 0) := by decide +kernel

/-- No move; an access to the last byte and to the byte after it, written or read; a busy block, whose registers
the host may read. -/
theorem witness_HostMoves :
    State.reset.host = [] ∧ busy State.reset = false ∧
      2 ^ 32 - 1 + [5#8].length ≤ State.reset.cfg.memSize ∧ 2 ^ 32 - 1 + 1 ≤ State.reset.cfg.memSize ∧
      State.reset.cfg.memSize < 2 ^ 32 + 1 ∧ (∀ number, HostMove.read 0 1 ≠ .readRegister number) ∧
      State.reset.cfg.memSize < 2 ^ 32 + [5#8].length ∧
      busy { State.reset with status := 1#32 } = true := by
  refine ⟨by decide, by decide, by decide +kernel, by decide +kernel, by decide +kernel, ?_,
    by decide +kernel, by decide⟩
  intro number h
  cases h

/-- Rules R25, R45, R55: the host reads bytes while idle, registers also while busy, and no bytes while busy. -/
theorem test_host_reads :
    (∃ t, step { at8 ref [(8, 0x0201)] with host := [.read 7 3] } = .next t ∧
      t.answer = .bytes [0#8, 1#8, 2#8] ∧ t.mem = memory [(8, 0x0201)]) ∧
    (∃ t, step { at8 ref [] with status := 0xFFFFFFFD#32, host := [.readRegister 0] } = .next t ∧
      t.answer = .register 1#32) ∧
    step { at8 ref [] with status := 1#32, host := [.read 8 1] } = .refused .hostMoveWhileBusy :=
  ⟨⟨_, rfl, by decide +kernel, by decide +kernel⟩, ⟨_, rfl, by decide⟩, rfl⟩

theorem witness_FaultedRefusesCommands :
    busy { State.reset with status := 2#32 } = false ∧
      faulted { State.reset with status := 2#32 } = true := by decide

theorem witness_FaultIsSticky :
    let s : State := { raiseFault (at8 ref []) .inverseOfZero 0x17#8 with
      host := [.issue ⟨0x28#32, 0, 0, 0, 0, 0, 0⟩, .write 0 [1#8]] }
    faulted s = true ∧ (∀ m ∈ s.host, ∀ contents, m ≠ .reset contents) ∧
      ∃ t, Host.Core.run core 2 s = .next t := by
  refine ⟨by decide, ?_, _, rfl⟩
  simp

theorem witness_ResetMoveClears :
    Memory.wf [(3, 7#8), (9, 1#8)] ∧ ∀ c ∈ [((3 : Nat), 7#8), (9, 1#8)], c.1 < State.reset.cfg.memSize := by
  decide +kernel

/-- A faulted state with a byte in memory and a command waiting. -/
theorem witness_StepKeepsInvariant :
    let s : State := { raiseFault (at8 ref [(8, 12)]) .inverseOfZero 0x17#8 with
      host := [.issue ⟨0x28#32, 0, 0, 0, 0, 0, 0⟩] }
    Inv s ∧ ∃ t, step s = .next t := by
  refine ⟨⟨by decide +kernel, by decide, by decide, .inr ⟨.inverseOfZero, 0x17#8, rfl⟩,
    by decide, by decide +kernel, by decide +kernel⟩, _, rfl⟩

theorem witness_OnlyPredicatesWriteRes :
    (∃ t, exec (.fneg 0 0x18 8) (at8 ref []) = .next t) ∧
      (∃ t, exec (.pisz 0 0) (at8 ref []) = .next t) ∧
      ∃ t, exec (.glvsplit 0 0x10 0) (at8 glv []) = .next t := ⟨⟨_, rfl⟩, ⟨_, rfl⟩, ⟨_, rfl⟩⟩

/-- A group of 1; a width of 32; a misaligned first operand, a first operand that ends one byte too high. -/
theorem witness_StaticChecksInOrder :
    groupOk (Instr.mexp 1 0 0 0 0 0 0).grp = false ∧
      ((Instr.sched 0 0 0 0 0 32 1).paramsOk ref = false) ∧
      ((Instr.fadd 0 4 0 8).paramsOk ref = true ∧
        firstAddressFault ref (addressOperands ref (.fadd 0 4 0 8)) = some .misaligned) ∧
      firstAddressFault { ref with memSize := 0xFF }
        (addressOperands { ref with memSize := 0xFF } (.fadd 0 0xF8 1 8)) = some .outOfRange := by
  decide +kernel

theorem witness_FieldFrame : (Instr.fadd 0 0x18 8 0x10).family = .field ∧
    ∃ t, exec (.fadd 0 0x18 8 0x10) (at8 ref []) = .next t := ⟨rfl, _, rfl⟩
theorem witness_CurveFrame : (Instr.pneg 0 0x18 0).family = .curve ∧
    ∃ t, exec (.pneg 0 0x18 0) (at8 ref []) = .next t := ⟨rfl, _, rfl⟩
theorem witness_GlvAndStageFrame :
    (Instr.glvsplit 0 0x10 0).family = .glv ∧ (Instr.sched 0 0x40 0xC0 0 1 2 5).family = .stage ∧
      (∃ t, exec (.glvsplit 0 0x10 0) (at8 glv []) = .next t) ∧
      ∃ t, exec (.sched 0 0x40 0xC0 0 1 2 5) (at8 ref []) = .next t :=
  ⟨rfl, rfl, ⟨_, rfl⟩, ⟨_, rfl⟩⟩
theorem witness_MultiexpFrame : (Instr.mexpn 0 0x40 0 0 0 0 0).family = .multiexp ∧
    ∃ t, exec (.mexpn 0 0x40 0 0 0 0 0) (at8 ref []) = .next t := ⟨rfl, _, rfl⟩

/-- `M − 1` is canonical and `M` is not. -/
theorem witness_AddSubNegResults :
    Admitted ref (.fadd 0 0x10 0 8) ∧ Admitted ref (.fsub 0 0x10 0 8) ∧
      Admitted ref (.fneg 0 0x10 0) ∧
      Canonical ref [fieldAt (at8 ref [(0, 12), (8, 12)]) 0, fieldAt (at8 ref [(0, 12), (8, 12)]) 8] ∧
      ¬Canonical ref [fieldAt (at8 ref [(0, 12), (8, 13)]) 0, fieldAt (at8 ref [(0, 12), (8, 13)]) 8] ∧
      ¬Canonical ref [fieldAt (at8 ref [(0, 13)]) 0] := by decide +kernel

theorem witness_MultiplyResults : FieldValid ref ∧
    Admitted ref (.fmul 0 0x10 0 8) ∧ Admitted ref (.fsqr 0 0x10 0) ∧
      Canonical ref [fieldAt (at8 ref [(0, 12), (8, 12)]) 0, fieldAt (at8 ref [(0, 12), (8, 12)]) 8] ∧
      ¬Canonical ref [fieldAt (at8 ref [(0, 12), (8, 13)]) 0, fieldAt (at8 ref [(0, 12), (8, 13)]) 8] :=
  ⟨ref_valid, by decide +kernel⟩

theorem witness_ConversionResults : FieldValid ref ∧
    Admitted ref (.ftom 0 0x10 0) ∧ Admitted ref (.ffromm 0 0x10 0) ∧
      Canonical ref [fieldAt (at8 ref [(0, 12)]) 0] ∧
      ¬Canonical ref [fieldAt (at8 ref [(0, 13)]) 0] := ⟨ref_valid, by decide +kernel⟩

/-- Zero, `M − 1` and `M`. -/
theorem witness_InverseResult : FieldValid ref ∧ Admitted ref (.finv 0 0x10 0) ∧
    fieldAt (at8 ref []) 0 = 0 ∧
    (Canonical ref [fieldAt (at8 ref [(0, 12)]) 0] ∧ fieldAt (at8 ref [(0, 12)]) 0 ≠ 0) ∧
    ¬Canonical ref [fieldAt (at8 ref [(0, 13)]) 0] := ⟨ref_valid, by decide +kernel⟩

theorem witness_IsSquareResult : FieldValid ref ∧ Admitted ref (.fissq 0 0) ∧
    Canonical ref [fieldAt (at8 ref [(0, 12)]) 0] ∧
    ¬Canonical ref [fieldAt (at8 ref [(0, 13)]) 0] := ⟨ref_valid, by decide +kernel⟩

/-- Zero; a square, value 4; a nonresidue, value 2; `M`. -/
theorem witness_SquareRootResult : FieldValid ref ∧ Admitted ref (.fsqrt 0 0x10 0) ∧
    fieldAt (at8 ref []) 0 = 0 ∧
    (Canonical ref [fieldAt (at8 ref [(0, 12)]) 0] ∧ fieldAt (at8 ref [(0, 12)]) 0 ≠ 0 ∧
      4 * montR ref % 13 = 12 ∧ 4 ^ ((13 - 1) / 2) % 13 = 1) ∧
    (Canonical ref [fieldAt (at8 ref [(0, 6)]) 0] ∧ fieldAt (at8 ref [(0, 6)]) 0 ≠ 0 ∧
      2 * montR ref % 13 = 6 ∧ 2 ^ ((13 - 1) / 2) % 13 ≠ 1) ∧
    ¬Canonical ref [fieldAt (at8 ref [(0, 13)]) 0] := ⟨ref_valid, by decide +kernel⟩

theorem witness_BatchInverseResult : FieldValid ref ∧
    Admitted ref (.fbinv 0 0x10 0 2) ∧ Admitted ref (.fbinv 0 0 0 0) ∧
    Canonical ref (fieldsAt (at8 ref [(8, 12)]) 0 2) ∧
    ¬Canonical ref (fieldsAt (at8 ref [(8, 13)]) 0 2) := ⟨ref_valid, by decide +kernel⟩

theorem witness_FieldLaws : FieldValid ref ∧ 12 < ref.modulus ∧
    (12 ≠ 0 ∧ eulerOne ref (val ref 12) = true) ∧
    ∀ r < 13, r * r % ref.modulus ≠ val ref 6 := ⟨ref_valid, by decide +kernel⟩

theorem witness_CiosMeetsContract : FieldValid ref ∧ LimbValid ref ∧
    LimbValid { ref with limbBits := 64 } ∧ 12 < ref.modulus :=
  ⟨ref_valid, by decide, by decide, by decide⟩

theorem witness_TonelliFindsRoot : FieldValid ref ∧ NonresidueValid ref ∧ 12 < ref.modulus ∧
    12 ^ ((ref.modulus - 1) / 2) % ref.modulus = 1 := ⟨ref_valid, by decide +kernel⟩

/-- `G` and `2G` in affine form, on the curve, and `G` in two Jacobian forms. -/
theorem onCurve_G : OnCurveAff Config.toy13 ⟨3, 12⟩ ∧ OnCurveAff Config.toy13 ⟨6, 8⟩ ∧
    OnCurveJac Config.toy13 ⟨3, 12, 3⟩ ∧ OnCurveJac Config.toy13 ⟨12, 5, 6⟩ := by
  unfold OnCurveAff OnCurveJac
  decide +kernel

theorem witness_BatchAlgorithmsRefine : FieldValid Config.toy13 ∧ Canonical Config.toy13 [12, 0, 1] ∧
    ∀ pq ∈ [((⟨3, 12⟩ : Aff), (⟨6, 8⟩ : Aff)), (⟨3, 12⟩, affZero)],
      Canonical Config.toy13 (affCoords pq.1 ++ affCoords pq.2) ∧ OnCurveAff Config.toy13 pq.1 ∧
        OnCurveAff Config.toy13 pq.2 := by
  refine ⟨toy_valid, by decide +kernel, ?_⟩
  unfold OnCurveAff
  decide +kernel

/-- Chord, tangent, opposite points, an infinity, a tangent off the curve and a coordinate of `M`. -/
theorem witness_AffineAddResult : FieldValid ref ∧ Admitted ref (.padda 0 0x40 0 0x10) ∧
    (∀ b ∈ [(6, 8), (3, 12), (3, 1), (0, 0), (3, 5)],
      Canonical ref (affCoords (affAt (at8 ref [(0, 3), (8, 12), (0x10, b.1), (0x18, b.2)]) 0) ++
        affCoords (affAt (at8 ref [(0, 3), (8, 12), (0x10, b.1), (0x18, b.2)]) 0x10))) ∧
    ¬Canonical ref (affCoords (affAt (at8 ref [(0, 3), (8, 13)]) 0) ++
      affCoords (affAt (at8 ref [(0, 3), (8, 13)]) 0x10)) := ⟨ref_valid, by decide +kernel⟩

theorem witness_NegationResults :
    Admitted ref (.pneg 0 0x20 0) ∧ Admitted ref (.pnega 0 0x20 0) ∧
      Canonical ref (jacCoords (jacAt (at8 ref [(0, 12), (8, 12), (0x10, 12)]) 0)) ∧
      ¬Canonical ref (jacCoords (jacAt (at8 ref [(0x10, 13)]) 0)) ∧
      Canonical ref (affCoords (affAt (at8 ref [(0, 12), (8, 12)]) 0)) ∧
      ¬Canonical ref (affCoords (affAt (at8 ref [(8, 13)]) 0)) := by decide +kernel

/-- The Jacobian operands used below: `G` twice over, and a coordinate of `M`. -/
theorem witness_JacobianAddDoubleResults : FieldValid ref ∧
    Admitted ref (.padd 0 0x60 0 0x20) ∧ Admitted ref (.pdbl 0 0x60 0) ∧
    Canonical ref (jacCoords (jacAt (at8 ref [(0, 3), (8, 12), (0x10, 3)]) 0) ++
      jacCoords (jacAt (at8 ref [(0, 3), (8, 12), (0x10, 3)]) 0x20)) ∧
    ¬Canonical ref (jacCoords (jacAt (at8 ref [(0x10, 13)]) 0) ++
      jacCoords (jacAt (at8 ref [(0x10, 13)]) 0x20)) ∧
    ¬Canonical ref (jacCoords (jacAt (at8 ref [(0x10, 13)]) 0)) := ⟨ref_valid, by decide +kernel⟩

theorem witness_ScalarMultipleResult : FieldValid ref ∧ Admitted ref (.pmul 0 0x20 0 0x18) ∧
    Canonical ref (jacCoords (jacAt (at8 ref [(0, 3), (8, 12), (0x10, 3), (0x18, 2 ^ 64 - 1)]) 0)) ∧
    ¬Canonical ref (jacCoords (jacAt (at8 ref [(0x10, 13)]) 0)) := ⟨ref_valid, by decide +kernel⟩

theorem witness_NormaliseResult : FieldValid ref ∧ Admitted ref (.ptoaff 0 0x20 0) ∧
    (Canonical ref (jacCoords (jacAt (at8 ref [(0, 5), (8, 7)]) 0)) ∧
      (jacAt (at8 ref [(0, 5), (8, 7)]) 0).z = 0) ∧
    (Canonical ref (jacCoords (jacAt (at8 ref [(0, 12), (8, 5), (0x10, 12)]) 0)) ∧
      (jacAt (at8 ref [(0, 12), (8, 5), (0x10, 12)]) 0).z ≠ 0) ∧
    ¬Canonical ref (jacCoords (jacAt (at8 ref [(0x10, 13)]) 0)) := ⟨ref_valid, by decide +kernel⟩

theorem sameClass_G : SameClass ref ⟨12, 5, 6⟩ ⟨3, 12, 3⟩ ∧ ¬SameClass ref ⟨3, 12, 3⟩ ⟨3, 1, 3⟩ := by
  unfold SameClass
  decide +kernel

/-- One class, two classes, a coordinate of `M`; `z = 0` and `z ≠ 0`. -/
theorem witness_PointPredicateResults : FieldValid ref ∧
    Admitted ref (.peq 0 0 0x20) ∧ Admitted ref (.pisz 0 0) ∧
    (SameClass ref ⟨12, 5, 6⟩ ⟨3, 12, 3⟩ ∧ ¬SameClass ref ⟨3, 12, 3⟩ ⟨3, 1, 3⟩) ∧
    Canonical ref (jacCoords (jacAt (at8 ref [(0, 3), (8, 12), (0x10, 3)]) 0) ++
      jacCoords (jacAt (at8 ref [(0, 3), (8, 12), (0x10, 3)]) 0x20)) ∧
    Canonical ref (jacCoords (jacAt (at8 ref [(0, 3), (8, 12), (0x10, 3)]) 0)) ∧
    ¬Canonical ref (jacCoords (jacAt (at8 ref [(0x10, 13)]) 0)) :=
  ⟨ref_valid, by decide +kernel, by decide +kernel, sameClass_G, by decide +kernel⟩

theorem witness_PointBatchResults :
    Admitted ref (.pbadd 0 0x80 0 0x40 2) ∧ Admitted ref (.pbtoaff 0 0x80 0 2) ∧
    Canonical ref (affsCoords (affsAt (at8 ref [(0, 3), (8, 12)]) 0 2 ++
      affsAt (at8 ref [(0, 3), (8, 12)]) 0x40 2)) ∧
    ¬Canonical ref (affsCoords (affsAt (at8 ref [(0x58, 13)]) 0 2 ++
      affsAt (at8 ref [(0x58, 13)]) 0x40 2)) ∧
    Canonical ref (jacsCoords (jacsAt (at8 ref [(0, 3), (8, 12), (0x10, 3)]) 0 2)) ∧
    ¬Canonical ref (jacsCoords (jacsAt (at8 ref [(0x28, 13)]) 0 2)) := by decide +kernel

theorem witness_ClassesAreRespected : FieldValid ref ∧
    Canonical ref (jacCoords ⟨12, 5, 6⟩) ∧ Canonical ref (jacCoords ⟨3, 12, 3⟩) ∧
    (0 < 12 ∧ 12 < ref.modulus) ∧ SameClass ref ⟨12, 5, 6⟩ ⟨3, 12, 3⟩ :=
  ⟨ref_valid, by decide, by decide, by decide, sameClass_G.1⟩

/-! Group elements of the toy curve (section 4.1), as Mathlib's points. -/

theorem toy_fact : Fact Config.toy13.modulus.Prime := ⟨toy_valid.1⟩

/-- The multiple of `G` with values `(x, y)`. -/
def point (x y : ZMod Config.toy13.modulus) (h : y ^ 2 = x ^ 3 + ((2 : Nat) : ZMod _))
    (hy : 2 * y ≠ 0) : (curveOf Config.toy13).Point :=
  .some x y (have := toy_fact; nonsingular_of_equation (c := Config.toy13) h hy)

def pG := point 1 4 (by decide +kernel) (by decide +kernel)
def p2G := point 2 7 (by decide +kernel) (by decide +kernel)
def p4G := point 10 1 (by decide +kernel) (by decide +kernel)
def p8G := point 3 9 (by decide +kernel) (by decide +kernel)
def p9G := point 12 1 (by decide +kernel) (by decide +kernel)
def p11G := point 3 4 (by decide +kernel) (by decide +kernel)
def p18G := point 1 9 (by decide +kernel) (by decide +kernel)

/-- `2G`, `4G`, `8G` by tangents, `9G`, `11G` by chords, `18G = −G` by a tangent (section 4.1). -/
theorem multiples_of_G : have := toy_fact
    (pG + pG = p2G ∧ p2G + p2G = p4G ∧ p4G + p4G = p8G ∧ p8G + pG = p9G ∧ p9G + p2G = p11G ∧
      p9G + p9G = p18G ∧ p18G + pG = 0) := by
  refine ⟨?_, ?_, ?_, ?_, ?_, ?_, ?_⟩
  · exact @add_tangent _ toy_fact _ _ _ _ 2 _ _ (by decide +kernel) (by decide +kernel) (by decide +kernel)
      (by decide +kernel)
  · exact @add_tangent _ toy_fact _ _ _ _ 12 _ _ (by decide +kernel) (by decide +kernel) (by decide +kernel)
      (by decide +kernel)
  · exact @add_tangent _ toy_fact _ _ _ _ 7 _ _ (by decide +kernel) (by decide +kernel) (by decide +kernel)
      (by decide +kernel)
  · exact @add_chord _ toy_fact _ _ _ _ _ _ 9 _ _ _ (by decide +kernel) (by decide +kernel) (by decide +kernel)
      (by decide +kernel)
  · exact @add_chord _ toy_fact _ _ _ _ _ _ 2 _ _ _ (by decide +kernel) (by decide +kernel) (by decide +kernel)
      (by decide +kernel)
  · exact @add_tangent _ toy_fact _ _ _ _ 8 _ _ (by decide +kernel) (by decide +kernel) (by decide +kernel)
      (by decide +kernel)
  · exact @opposite_sum _ toy_fact _ _ _ _ _ (by decide +kernel)

/-- `11·G` and `19·G = O`. -/
theorem order_of_G : have := toy_fact; (11 • pG = p11G ∧ 19 • pG = 0) := by
  have := toy_fact
  obtain ⟨h2, h4, h8, h9, h11, h18, h19⟩ := multiples_of_G
  have e2 : p2G = 2 • pG := by rw [← h2, two_nsmul]
  have e4 : p4G = 4 • pG := by rw [← h4, e2, ← add_nsmul]
  have e8 : p8G = 8 • pG := by rw [← h8, e4, ← add_nsmul]
  have e9 : p9G = 9 • pG := by rw [← h9, e8, ← succ_nsmul]
  have e18 : p18G = 18 • pG := by rw [← h18, e9, ← add_nsmul]
  exact ⟨by rw [← h11, e9, e2, ← add_nsmul], by rw [← h19, e18, ← succ_nsmul]⟩

/-- A stored pair with the values of a point stands for it. -/
theorem standsFor_point {p : Aff} {x y : ZMod Config.toy13.modulus}
    {h : y ^ 2 = x ^ 3 + ((2 : Nat) : ZMod _)} {hy : 2 * y ≠ 0} (h0 : p ≠ affZero)
    (hx : residueValue Config.toy13 p.x = x) (hv : residueValue Config.toy13 p.y = y) :
    AffStandsFor Config.toy13 p (point x y h hy) := by
  subst hx
  subst hv
  exact .inr ⟨h0, _, rfl⟩

theorem standsFor_G : AffStandsFor Config.toy13 ⟨3, 12⟩ pG :=
  standsFor_point (by decide) (by decide +kernel) (by decide +kernel)

theorem standsFor_2G : AffStandsFor Config.toy13 ⟨6, 8⟩ p2G :=
  standsFor_point (by decide) (by decide +kernel) (by decide +kernel)

/-- `G` meets what rule R141 asks of a point. -/
theorem glvPoint_G : have := toy_fact; GlvPoint Config.toy13 ⟨3, 12⟩ pG := by
  have := toy_fact
  refine ⟨standsFor_G, order_of_G.2, ?_⟩
  have h : Config.toy13.lambda • pG = p11G := (natCast_zsmul pG 11).trans order_of_G.1
  rw [h]
  exact standsFor_point (by decide +kernel) (by decide +kernel) (by decide +kernel)

/-- The triple `(12, 5, 6)` stands for `G` (section 4.2). -/
theorem jacStandsFor_G : @JacStandsFor Config.toy13 toy_fact ⟨12, 5, 6⟩ pG := by
  have key : ∀ {u v : ZMod Config.toy13.modulus}, 1 = u → 4 = v → ∃ h, pG = .some u v h := by
    rintro u v rfl rfl
    exact ⟨_, rfl⟩
  exact .inr ⟨by decide, key (by decide +kernel) (by decide +kernel)⟩

theorem jacStandsFor_zero : @JacStandsFor Config.toy13 toy_fact ⟨5, 7, 0⟩ .zero := .inl ⟨rfl, rfl⟩

theorem witness_AddAffineIsGroupLaw : Config.toy13.modulus.Prime ∧ Config.toy13.modulus % 2 = 1 ∧
    Canonical Config.toy13 (affCoords ⟨3, 12⟩ ++ affCoords ⟨6, 8⟩) ∧
    AffStandsFor Config.toy13 ⟨3, 12⟩ pG ∧ AffStandsFor Config.toy13 ⟨6, 8⟩ p2G :=
  ⟨toy_valid.1, by decide, by decide, standsFor_G, standsFor_2G⟩

theorem witness_JacobianFormulasAdd : Config.toy13.modulus.Prime ∧ Config.toy13.modulus % 2 = 1 ∧
    Canonical Config.toy13 (jacCoords ⟨12, 5, 6⟩ ++ jacCoords ⟨5, 7, 0⟩) ∧
    @JacStandsFor Config.toy13 toy_fact ⟨12, 5, 6⟩ pG ∧
    @JacStandsFor Config.toy13 toy_fact ⟨5, 7, 0⟩ .zero :=
  ⟨toy_valid.1, by decide, by decide, jacStandsFor_G, jacStandsFor_zero⟩

theorem witness_ScalarMultipleLoop : Config.toy13.modulus.Prime ∧ Config.toy13.modulus % 2 = 1 ∧
    Canonical Config.toy13 (jacCoords ⟨12, 5, 6⟩) ∧
    @JacStandsFor Config.toy13 toy_fact ⟨12, 5, 6⟩ pG ∧
    2 ^ 64 - 1 < 2 ^ (8 * Config.toy13.scalarBytes) :=
  ⟨toy_valid.1, by decide, by decide, jacStandsFor_G, by decide⟩

/-- The largest magnitude that fits two bits, 3 (`k = 5`), and one that does not fit one bit. -/
theorem witness_GlvSplitResult :
    Admitted glv (.glvsplit 0 0x10 0) ∧
    ((glvSplit glv 5).1.natAbs < 2 ^ glv.glvBits ∧ (glvSplit glv 5).2.natAbs < 2 ^ glv.glvBits) ∧
    Admitted { glv with glvBits := 1 } (.glvsplit 0 0x10 0) ∧
    2 ^ 1 ≤ (glvSplit { glv with glvBits := 1 } 3).2.natAbs := by decide +kernel

theorem witness_GlvExpandResult :
    Admitted glv (.glvexp 0 0x80 0x100 0 0x30 2) ∧ Admitted glv (.glvexp 0 0 0 0 0 0) ∧
    Canonical glv (affsCoords (affsAt (at8 glv [(0, 3), (8, 12), (0x30, 5), (0x38, 7)]) 0 2)) ∧
    (∀ k ∈ [5, 7], (glvSplit glv k).1.natAbs < 2 ^ glv.glvBits ∧
      (glvSplit glv k).2.natAbs < 2 ^ glv.glvBits) ∧
    ¬(glvSplit { glv with glvBits := 1 } 3).2.natAbs < 2 ^ 1 ∧
    ¬Canonical glv (affsCoords (affsAt (at8 glv [(0x18, 13)]) 0 2)) := by decide +kernel

theorem witness_GlvExpansionKeepsSum : Config.toy13.modulus.Prime ∧ Config.toy13.modulus % 2 = 1 ∧
    LatticeValid Config.toy13 ∧
    Canonical Config.toy13 (affsCoords ([((⟨3, 12⟩ : Aff), 7)].map Prod.fst)) ∧
    List.Forall₂ (fun pk P => @GlvPoint Config.toy13 toy_fact (Prod.fst pk) P)
      [((⟨3, 12⟩ : Aff), 7)] [pG] :=
  ⟨toy_valid.1, by decide, toy_lattice, by decide, .cons glvPoint_G .nil⟩

/-- A scalar of `2^bits − 1` and one of `2^bits`, at the largest width and at the smallest. -/
theorem witness_ScheduleResult :
    Admitted ref (.sched 0 0x40 0xC0 0 1 31 5) ∧ Admitted ref (.sched 0 0x40 0xC0 0 1 1 64) ∧
    scalarAt (at8 ref [(0, 31)]) 0 < 2 ^ 5 ∧ 2 ^ 5 ≤ scalarAt (at8 ref [(0, 32)]) 0 := by
  decide +kernel

theorem witness_DigitsAndEntries :
    (1 ≤ 31 ∧ 2 ^ 32 - 1 < 2 ^ 32 ∧ (2 ^ 31 - 1 : Int).natAbs ≤ bucketCount ref 31) ∧
    ((-1 : Int).natAbs ≤ bucketCount signed 1 ∧ signed.signedDigits = true) ∧
    2 ^ 64 - 1 < 2 ^ 64 := by decide +kernel

/-- A statement about the members of a list of entries, from its evaluation. -/
theorem forall_entries {l : List EntryWord} {p : EntryWord → Prop} [DecidablePred p]
    (h : l.all (fun e => decide (p e)) = true) : ∀ e ∈ l, p e :=
  fun e he => of_decide_eq_true (List.all_eq_true.1 h e he)

/-- Bucket 3 of 3, and bucket 4. -/
theorem witness_SortResult : Admitted ref (.bsort 0 0x100 0x140 0x60 2 2) ∧
    (∀ e ∈ entriesAt (at8 ref [(0x60, 0x300000001), (0x68, 2 ^ 64 - 1)]) 0x60 2,
      e ≠ skipEntry → 1 ≤ bucketIndex e ∧ bucketIndex e ≤ bucketCount ref 2) ∧
    ¬∀ e ∈ entriesAt (at8 ref [(0x60, 0x400000000)]) 0x60 1,
      e ≠ skipEntry → 1 ≤ bucketIndex e ∧ bucketIndex e ≤ bucketCount ref 2 := by
  refine ⟨by decide +kernel, forall_entries (by decide +kernel), fun h => ?_⟩
  have h4 := h (entryAt (at8 ref [(0x60, 0x400000000)]) 0x60) (.head _) (by decide +kernel)
  exact absurd h4.2 (by decide +kernel)

theorem witness_CountingSortLaws :
    ∀ e ∈ [scheduleEntry 0 3, scheduleEntry 1 (-3), skipEntry, scheduleEntry 3 1],
      e ≠ skipEntry → 1 ≤ bucketIndex e ∧ bucketIndex e ≤ 3 := forall_entries (by decide +kernel)

/-- The five cases of `CHAIN`: an offset table that starts at 1, one whose entries lie beyond memory, an entry
in the wrong bucket, a coordinate of `M`, and a well-formed round. -/
theorem witness_ChainResult :
    Admitted signed (.chain 0 0x100 0x80 0xC0 0 2 2) ∧
    countAt (at8 signed [(0xC0, 1)]) 0xC0 ≠ 0 ∧
    (countAt (at8 signed [(0xC8, 2 ^ 29)]) 0xC0 = 0 ∧
      signed.memSize < 0x80 + countAt (at8 signed [(0xC8, 2 ^ 29)]) 0xC8 * 8) ∧
    bucketIndex (entryAt (at8 signed [(0x80, 0x200000000), (0xC0, 0x100000000), (0xC8, 1)]) 0x80)
      ≠ 1 ∧
    (offsetsOk (countsAt (at8 signed [(0x80, 0x100000001), (0xC0, 0x100000000), (0xC8, 1)]) 0xC0 3)
      = true ∧
      sortedOk 2 2 [0x100000001#64]
        (countsAt (at8 signed [(0x80, 0x100000001), (0xC0, 0x100000000), (0xC8, 1)]) 0xC0 3) = true ∧
      Canonical signed (affsCoords (affsAt (at8 signed [(0, 12), (8, 12)]) 0 2)) ∧
      ¬Canonical signed (affsCoords (affsAt (at8 signed [(0x18, 13)]) 0 2))) := by decide +kernel

theorem witness_ChainReduceSums : Config.toy13.modulus.Prime ∧ Config.toy13.modulus % 2 = 1 ∧
    (∀ l ∈ [[(⟨3, 12⟩ : Aff), ⟨3, 12⟩, ⟨6, 8⟩], []], Canonical Config.toy13 (affsCoords l)) ∧
    List.Forall₂ (List.Forall₂ (AffStandsFor Config.toy13))
      [[⟨3, 12⟩, ⟨3, 12⟩, ⟨6, 8⟩], []] [[pG, pG, p2G], []] :=
  ⟨toy_valid.1, by decide, by decide,
    .cons (.cons standsFor_G (.cons standsFor_G (.cons standsFor_2G .nil))) (.cons .nil .nil)⟩

theorem witness_SweepAndFoldResults : FieldValid ref ∧
    Admitted ref (.bred 0 0x100 0 2) ∧ Admitted ref (.rfold 0 0x100 0 2 31) ∧
    Admitted ref (.rfold 0 0x100 0 0 1) ∧
    Canonical ref (affsCoords (affsAt (at8 ref [(0, 3), (8, 12)]) 0 (bucketCount ref 2))) ∧
    ¬Canonical ref (affsCoords (affsAt (at8 ref [(0x28, 13)]) 0 (bucketCount ref 2))) ∧
    Canonical ref (jacsCoords (jacsAt (at8 ref [(0, 3), (8, 12), (0x10, 3)]) 0 2)) ∧
    ¬Canonical ref (jacsCoords (jacsAt (at8 ref [(0x28, 13)]) 0 2)) := ⟨ref_valid, by decide +kernel⟩

theorem witness_SweepAndFoldSums : Config.toy13.modulus.Prime ∧ Config.toy13.modulus % 2 = 1 ∧
    Canonical Config.toy13 (affsCoords [⟨3, 12⟩, affZero, ⟨6, 8⟩]) ∧
    List.Forall₂ (AffStandsFor Config.toy13) [⟨3, 12⟩, affZero, ⟨6, 8⟩] [pG, .zero, p2G] ∧
    Canonical Config.toy13 (jacsCoords [⟨12, 5, 6⟩, ⟨5, 7, 0⟩]) ∧
    List.Forall₂ (@JacStandsFor Config.toy13 toy_fact) [⟨12, 5, 6⟩, ⟨5, 7, 0⟩] [pG, .zero] :=
  ⟨toy_valid.1, by decide, by decide,
    .cons standsFor_G (.cons (.inl ⟨rfl, rfl⟩) (.cons standsFor_2G .nil)), by decide,
    .cons jacStandsFor_G (.cons jacStandsFor_zero .nil)⟩

/-- Two points with GLV, one without, and none at all. -/
theorem witness_MexpResult : FieldValid ref ∧ DispatchValid ref ∧
    Admitted ref (.mexp 0 0xE0 0 0x20 0x40 0x10 2) ∧ Admitted ref (.mexp 0 0xE0 0 0 0x40 0 0) ∧
    (32 = 2 * (2 * n8 ref) ∧ 16 = 2 * ref.scalarBytes) ∧
    Canonical ref (affsCoords (affsAt (at8 ref [(0, 3), (8, 12), (0x40, 7)]) 0 2)) ∧
    TasksFit ref (pointScalars (at8 ref [(0, 3), (8, 12), (0x40, 7)]) 0 0x40 2) ∧
    TasksFit glv (pointScalars (at8 glv [(0, 3), (8, 12), (0x40, 7)]) 0 0x40 2) ∧
    TasksFit ref (pointScalars (at8 ref []) 0 0x40 0) :=
  ⟨ref_valid, toy_dispatch.1, by decide +kernel⟩

/-- A length of 40, counts of 2 and 1 for 2, and a coordinate of `M` (section 8). -/
theorem witness_MexpEntryFaults :
    Admitted ref (.mexp 0 0xE0 0 0x28 0x40 0x10 2) ∧ Admitted ref (.mexpn 0 0xE0 0 0x20 0x40 8 2) ∧
    Admitted ref (.mexpn 0 0xE0 0 0x20 0x40 0x10 2) ∧
    40 % (2 * n8 ref) ≠ 0 ∧
    (32 % (2 * n8 ref) = 0 ∧ 8 % ref.scalarBytes = 0 ∧ 8 / ref.scalarBytes ≠ 2) ∧
    (32 / (2 * n8 ref) = 2 ∧ 16 / ref.scalarBytes = 2 ∧
      ¬Canonical ref (affsCoords (affsAt (at8 ref [(0x18, 13)]) 0 2))) := by decide +kernel

/-- Two chunks of one point; the second's split does not fit one bit. -/
theorem witness_MexpTaskFaults :
    let cfg := { glv with glvBits := 1 }
    let pks := pointScalars (at8 cfg [(0, 3), (8, 12), (0x40, 1), (0x48, 5)]) 0 0x40 2
    DispatchValid cfg ∧ 0 < n8 cfg ∧ Admitted cfg (.mexp 0 0xE0 0 0x20 0x40 0x10 2) ∧
    (32 = 2 * (2 * n8 cfg) ∧ 16 = 2 * cfg.scalarBytes) ∧
    Canonical cfg (affsCoords (affsAt (at8 cfg [(0, 3), (8, 12), (0x40, 1), (0x48, 5)]) 0 2)) ∧
    1 < chunkCount cfg 2 ∧ taskFault cfg (chunkAt cfg pks 0) = none ∧
    taskFault cfg (chunkAt cfg pks 1) = some .glvBasis ∧
    taskFault { cfg with arenaSize := 15 } (chunkAt cfg pks 0) = some .arenaExhausted := by
  decide +kernel

theorem witness_MexpnResult : FieldValid ref ∧ 0 < ref.scalarBytes ∧
    Admitted ref (.mexpn 0 0xE0 0 0x20 0x40 0x10 2) ∧ Admitted ref (.mexpn 0 0xE0 0 0 0x40 0 0) ∧
    (32 = 2 * (2 * n8 ref) ∧ 16 = 2 * ref.scalarBytes) ∧
    Canonical ref (affsCoords (affsAt (at8 ref [(0, 3), (8, 12)]) 0 2)) :=
  ⟨ref_valid, by decide +kernel⟩

/-- With GLV on, every split of the toy set fits two bits (section 5), and `G` is on the curve. -/
theorem witness_ValidGlvInstance : ConfigValid Config.toy13 ∧ Config.toy13.glvEnabled = true ∧
    Canonical Config.toy13 (affCoords ⟨3, 12⟩) ∧ OnCurveAff Config.toy13 ⟨3, 12⟩ ∧
    residueValue Config.toy13 12 ^ 2 =
      residueValue Config.toy13 3 ^ 3 + (Config.toy13.curveB : ZMod Config.toy13.modulus) ∧
    (at8 Config.toy13 [(0, 7)]).cfg = Config.toy13 ∧ Admitted Config.toy13 (.glvsplit 0 0x10 0) :=
  ⟨toy_config, by decide, by decide, onCurve_G.1, by decide +kernel, rfl, by decide +kernel⟩

/-- With GLV on, the point `G` twice; with an arena of no bytes no task fits, and the naive clause asks for
none. -/
theorem witness_MultiExpIsSum : Config.toy13.modulus.Prime ∧ Config.toy13.modulus % 2 = 1 ∧
    DispatchValid Config.toy13 ∧
    Canonical Config.toy13 (affsCoords ([((⟨3, 12⟩ : Aff), 7), (⟨3, 12⟩, 2 ^ 64 - 1)].map Prod.fst)) ∧
    (∀ pk ∈ [((⟨3, 12⟩ : Aff), 7), (⟨3, 12⟩, 2 ^ 64 - 1)],
      pk.2 < 2 ^ (8 * Config.toy13.scalarBytes)) ∧
    List.Forall₂ (fun pk P => AffStandsFor Config.toy13 (Prod.fst pk) P)
      [((⟨3, 12⟩ : Aff), 7), (⟨3, 12⟩, 2 ^ 64 - 1)] [pG, pG] ∧
    LatticeValid Config.toy13 ∧
    List.Forall₂ (fun pk P => @GlvPoint Config.toy13 toy_fact (Prod.fst pk) P)
      [((⟨3, 12⟩ : Aff), 7), (⟨3, 12⟩, 2 ^ 64 - 1)] [pG, pG] ∧
    TasksFit Config.toy13 [((⟨3, 12⟩ : Aff), 7), (⟨3, 12⟩, 2 ^ 64 - 1)] ∧
    ¬TasksFit { Config.toy13 with arenaSize := 0 } [((⟨3, 12⟩ : Aff), 7)] :=
  ⟨toy_valid.1, by decide, toy_dispatch.2, by decide, by decide,
    .cons standsFor_G (.cons standsFor_G .nil), toy_lattice,
    .cons glvPoint_G (.cons glvPoint_G .nil), by decide +kernel, by decide +kernel⟩

end Sys2Proof.Tests
end

section
/-! PROOFS. What every step keeps: the machine invariant, the frame of each command, the sticky fault, and the
host's moves (`10_state.md`). One lemma per command says all it can do, as a `CommandEffect`; every statement about
commands in general is read off that. -/

namespace Sys2Proof.Machine

/-! ### Lengths of what commands store -/

@[simp] theorem fieldBytes_length (cfg : Config) (v : Nat) : (fieldBytes cfg v).length = n8 cfg :=
  leBytes_length _ _

@[simp] theorem affBytes_length (cfg : Config) (p : Aff) : (affBytes cfg p).length = 2 * n8 cfg := by
  simp [affBytes, two_mul]

@[simp] theorem jacBytes_length (cfg : Config) (p : Jac) : (jacBytes cfg p).length = 3 * n8 cfg := by
  simp only [jacBytes, List.length_append, fieldBytes_length]
  omega

@[simp] theorem scalarBytes_length (cfg : Config) (k : Nat) :
    (scalarBytes cfg k).length = cfg.scalarBytes := leBytes_length _ _

@[simp] theorem entryBytes_length (e : EntryWord) : (entryBytes e).length = 8 := leBytes_length _ _

@[simp] theorem countBytes_length (n : Nat) : (countBytes n).length = 4 := leBytes_length _ _

@[simp] theorem arrayAt_length {α : Type} (read : Nat → α) (a size n : Nat) :
    (arrayAt read a size n).length = n := by
  simp [arrayAt]

@[simp] theorem fieldsAt_length (s : State) (a : Word) (n : Nat) : (fieldsAt s a n).length = n :=
  arrayAt_length _ _ _ _

@[simp] theorem affsAt_length (s : State) (a : Word) (n : Nat) : (affsAt s a n).length = n :=
  arrayAt_length _ _ _ _

@[simp] theorem jacsAt_length (s : State) (a : Word) (n : Nat) : (jacsAt s a n).length = n :=
  arrayAt_length _ _ _ _

@[simp] theorem scalarsAt_length (s : State) (a : Word) (n : Nat) : (scalarsAt s a n).length = n :=
  arrayAt_length _ _ _ _

@[simp] theorem entriesAt_length (s : State) (a : Word) (n : Nat) : (entriesAt s a n).length = n :=
  arrayAt_length _ _ _ _

@[simp] theorem pointScalars_length (s : State) (ps ks : Word) (n : Nat) :
    (pointScalars s ps ks n).length = n := by
  simp [pointScalars]

/-- Objects of one size, stored one after the other. -/
theorem length_flatMap_of_size {α : Type} (f : α → List Byte) (l : List α) (size : Nat)
    (h : ∀ x, (f x).length = size) : (l.flatMap f).length = l.length * size := by
  simp [List.length_flatMap, h]

@[simp] theorem glvExpand_length (cfg : Config) (pks : List (Aff × Nat)) :
    (glvExpand cfg pks).length = 2 * pks.length := by
  simp [glvExpand, glvEntries, List.length_flatMap, mul_comm]

@[simp] theorem scheduleRounds_length (cfg : Config) (c rounds : Nat) (ks : List Nat) :
    (scheduleRounds cfg c rounds ks).length = rounds := by
  simp [scheduleRounds]

/-- A schedule has one entry for each round and each scalar (rule R159). -/
theorem scheduleRounds_flatten_length (cfg : Config) (c rounds : Nat) (ks : List Nat) :
    (scheduleRounds cfg c rounds ks).flatten.length = rounds * ks.length := by
  simp [scheduleRounds, List.length_flatten, Function.comp_def]

/-- Up to bucket `nb`, the sorted list is as long as the offset table says (rule R160). -/
theorem sortedEntries_length (nb : Nat) (es : List EntryWord) :
    (sortedEntries nb es).length = bucketOffset es nb := by
  have bucket_next : ∀ (j : Nat),
      bucketOffset es (j + 1) = bucketOffset es j + (bucketEntries es (j + 1)).length := by
    intro j
    simp only [bucketOffset, bucketEntries, ← List.countP_eq_length_filter]
    induction es with
    | nil => rfl
    | cons e es ih =>
      simp only [List.countP_cons, ih]
      by_cases hs : e = skipEntry
      · simp [hs]
      · by_cases hb : bucketIndex e = j + 1
        · simp [hs, hb]
          omega
        · have hle : bucketIndex e ≤ j + 1 ↔ bucketIndex e ≤ j := by omega
          simp [hs, hb, hle]
          omega
  induction nb with
  | zero =>
    have h0 : bucketOffset es 0 = 0 := by
      rw [bucketOffset, List.countP_eq_zero]
      intro e _
      simp only [Bool.and_eq_true, decide_eq_true_eq]
      omega
    rw [h0]
    rfl
  | succ nb ih =>
    rw [bucket_next, ← ih]
    simp [sortedEntries, List.range_succ]

/-- Sorting keeps at most all entries: the `SKIP`s are gone (rule R161). -/
theorem sortedEntries_length_le (nb : Nat) (es : List EntryWord) :
    (sortedEntries nb es).length ≤ es.length := by
  rw [sortedEntries_length]
  exact List.countP_le_length

@[simp] theorem bucketOffsets_length (nb : Nat) (es : List EntryWord) :
    (bucketOffsets nb es).length = nb + 1 := by
  simp [bucketOffsets]

@[simp] theorem bucketLists_length (cfg : Config) (nb : Nat) (ps : List Aff) (ss : List EntryWord)
    (off : List Nat) : (bucketLists cfg nb ps ss off).length = nb := by
  simp [bucketLists]

@[simp] theorem chainPasses_length (cfg : Config) (fuel : Nat) (ls : List (List Aff)) :
    (chainPasses cfg fuel ls).length = ls.length := by
  induction fuel generalizing ls with
  | zero => rfl
  | succ fuel ih =>
    rw [chainPasses]
    split
    · rw [ih, List.length_map]
    · rfl

@[simp] theorem chainReduce_length (cfg : Config) (ls : List (List Aff)) :
    (chainReduce cfg ls).length = ls.length := by
  simp [chainReduce]

/-! ### What a command may do to operand memory -/

/-- A cell listed after a write was listed before, or lies in the bytes written. -/
theorem mem_writeBytes {m : Memory} {a : Nat} {bs : List Byte} {c : Host.Cell}
    (h : c ∈ writeBytes m a bs) : c ∈ m ∨ (a ≤ c.1 ∧ c.1 < a + bs.length) := by
  induction bs generalizing m a with
  | nil => exact .inl h
  | cons v bs ih =>
    have byte_cell : c ∈ writeByte m a v → c ∈ m ∨ c = (a, v) := by
      simp only [writeByte]
      split
      · exact fun hc => .inl (List.mem_filter.1 hc).1
      · intro hc
        rcases mem_insertCell.1 hc with hc | hc
        · exact .inr hc
        · exact .inl (List.mem_filter.1 hc).1
    simp only [List.length_cons]
    rcases ih h with hc | hc
    · rcases byte_cell hc with hc | rfl
      · exact .inl hc
      · exact .inr ⟨le_refl a, by simp⟩
    · exact .inr (by omega)

/-- Memory as the invariant has it: in canonical form, and below a limit (rule R28). -/
def MemoryBelow (limit : Nat) (m : Memory) : Prop :=
  Memory.wf m ∧ ∀ c ∈ m, c.1 < limit

theorem memoryBelow_writeBytes {limit : Nat} {m : Memory} {a : Nat} {bs : List Byte}
    (hm : MemoryBelow limit m) (hfit : bs.length = 0 ∨ a + bs.length ≤ limit) :
    MemoryBelow limit (writeBytes m a bs) := by
  refine ⟨writeBytes_wf hm.1 a bs, fun c hc => ?_⟩
  rcases mem_writeBytes hc with hc | hc
  · exact hm.2 c hc
  · omega

theorem memoryBelow_memoryOf (limit : Nat) (cells : List Host.Cell) :
    MemoryBelow limit (memoryOf limit cells) := by
  refine List.foldlRecOn (motive := MemoryBelow limit) cells _ ⟨⟨.nil, nofun⟩, nofun⟩ ?_
  intro m hm c _
  split
  · rename_i hc
    exact memoryBelow_writeBytes (bs := [c.2]) hm (.inr hc)
  · exact hm

/-- From `m` to `m'` only bytes inside the spans have changed, and memory is still canonical and below the
limit if it was. -/
def MemoryStep (limit : Nat) (spans : List (Nat × Nat)) (m m' : Memory) : Prop :=
  (∀ a, Outside a spans → readByte m' a = readByte m a) ∧
    (MemoryBelow limit m → MemoryBelow limit m')

theorem MemoryStep.refl {limit : Nat} {spans : List (Nat × Nat)} (m : Memory) :
    MemoryStep limit spans m m := ⟨fun _ _ => rfl, id⟩

/-- One more write inside a span and below the limit. -/
theorem MemoryStep.write {limit : Nat} {spans : List (Nat × Nat)} {m m' : Memory} {a : Nat}
    {bs : List Byte} {sp : Nat × Nat} (h : MemoryStep limit spans m m') (hsp : sp ∈ spans)
    (hlo : sp.1 ≤ a) (hhi : a + bs.length ≤ sp.1 + sp.2)
    (hfit : bs.length = 0 ∨ a + bs.length ≤ limit) :
    MemoryStep limit spans m (writeBytes m' a bs) := by
  obtain ⟨hread, hbelow⟩ := h
  refine ⟨fun b hb => ?_, fun hm => memoryBelow_writeBytes (hbelow hm) hfit⟩
  have hout : b < a ∨ a + bs.length ≤ b := by
    have := hb sp hsp
    omega
  rw [readByte_writeBytes_outside hout, hread b hb]

/-- Two outputs stored, the free bytes of their overlap included (rule R47). -/
theorem memoryStep_storeTwo {limit : Nat} {spans : List (Nat × Nat)} {s : State} {a n a' n' : Nat}
    {bs bs' : List Byte} (hsp : (a, n) ∈ spans) (hsp' : (a', n') ∈ spans)
    (hlen : bs.length ≤ n) (hlen' : bs'.length ≤ n')
    (hfit : bs.length = 0 ∨ a + bs.length ≤ limit)
    (hfit' : bs'.length = 0 ∨ a' + bs'.length ≤ limit) :
    MemoryStep limit spans s.mem (storeTwo s a bs a' bs').mem := by
  have both : MemoryStep limit spans s.mem (writeBytes (writeBytes s.mem a bs) a' bs') :=
    ((MemoryStep.refl s.mem).write hsp (le_refl a) (by simpa using hlen) hfit).write hsp'
      (le_refl a') (by simpa using hlen') hfit'
  rcases storeTwo_cases s a bs a' bs' with ⟨-, h2⟩ | ⟨hov, free, hfree, h2⟩
  · rw [h2]
    exact both
  · rw [h2]
    unfold overlapStart overlapEnd at *
    exact both.write hsp (le_max_left a a') (by simp only; omega) (by omega)

/-! ### What a command may do at all -/

/-- What a command that does not fault leaves in `RES` (rule R22): `FISSQ`, `PEQ` and `PISZ` an answer,
`GLVSPLIT` two signs, every other command what was there. -/
def ResEffect (i : Instr) (old new : Word) : Prop :=
  if i.opcode ∈ [0x18#8, 0x27#8, 0x28#8] then new = 0#32 ∨ new = 1#32
  else if i.opcode = 0x30#8 then new.toNat < 4
  else new = old

theorem writesRes_eq_false_iff (i : Instr) :
    i.writesRes = false ↔ i.opcode ∉ [0x18#8, 0x27#8, 0x28#8] ∧ i.opcode ≠ 0x30#8 := by
  cases i <;> simp [Instr.writesRes, Instr.opcode]

theorem resEffect_predicate_iff {i : Instr} {old new : Word}
    (hi : i.opcode ∈ [0x18#8, 0x27#8, 0x28#8]) :
    ResEffect i old new ↔ new = 0#32 ∨ new = 1#32 := by
  rw [ResEffect, if_pos hi]

theorem resEffect_signs_iff {i : Instr} {old new : Word} (hi : i.opcode = 0x30#8) :
    ResEffect i old new ↔ new.toNat < 4 := by
  simp [ResEffect, hi]

theorem resEffect_kept_iff {i : Instr} {old new : Word} (hi : i.writesRes = false) :
    ResEffect i old new ↔ new = old := by
  obtain ⟨hpredicate, hsigns⟩ := (writesRes_eq_false_iff i).1 hi
  rw [ResEffect, if_neg hpredicate, if_neg hsigns]

/-- A command never leaves more than two bits in `RES`. -/
theorem ResEffect.lt_four {i : Instr} {old new : Word} (h : ResEffect i old new)
    (hold : old.toNat < 4) : new.toNat < 4 := by
  unfold ResEffect at h
  split_ifs at h
  · rcases h with rfl | rfl <;> decide
  · exact h
  · rwa [h]

/-- All a command that does not fault may do to the state. -/
structure CommandEffect (i : Instr) (s t : State) : Prop where
  cfg : t.cfg = s.cfg
  status : t.status = s.status
  err : t.err = s.err
  host : t.host = s.host
  answer : t.answer = s.answer
  res : ResEffect i s.res t.res
  mem : MemoryStep s.cfg.memSize (outputs s.cfg i) s.mem t.mem
  workers : t.workers = s.workers ∨ (i.opcode = 0x50#8 ∧ t.workers = idleWorkers s)

/-- The outcome of a command: a next state, by its effect or by the fault entry (rules R35, R222). -/
def CommandEnds (i : Instr) (s : State) (o : Host.Outcome State Fault Refusal) : Prop :=
  ∃ t, o = .next t ∧ ((∃ c, t = raiseFault s c i.opcode) ∨ CommandEffect i s t)

/-- A command ends well if its effect is allowed whenever no check fails. -/
theorem runCommand_ends {i : Instr} {s : State} {r : Except Cause State}
    (h : ∀ t, r = .ok t → CommandEffect i s t) : CommandEnds i s (runCommand i.opcode s r) := by
  rcases runCommand_cases (op := i.opcode) (s := s) (r := r) with ⟨t, hr, hrun⟩ | ⟨c, hr, hrun⟩
  · exact ⟨t, hrun, .inr (h t hr)⟩
  · exact ⟨_, hrun, .inl ⟨c, rfl⟩⟩

/-- An array stored whole at a checked destination. -/
theorem effect_storeBytes {i : Instr} {s : State} {dst : Word} {count size : Nat} {bs : List Byte}
    (hdst : InRange s.cfg dst count size) (hlen : bs.length = count * size)
    (hout : outputs s.cfg i = [(dst.toNat, count * size)]) (hres : i.writesRes = false) :
    CommandEffect i s (storeBytes s dst.toNat bs) where
  cfg := rfl
  status := rfl
  err := rfl
  host := rfl
  answer := rfl
  res := (resEffect_kept_iff hres).2 rfl
  mem := by
    refine (MemoryStep.refl s.mem).write (sp := (dst.toNat, count * size)) (by simp [hout])
      (le_refl _) (by simp [hlen]) ?_
    rcases hdst with rfl | hdst
    · simp [hlen]
    · exact .inr (hlen ▸ hdst)
  workers := .inl rfl

/-- Two arrays stored at checked destinations. -/
theorem effect_storeTwo {i : Instr} {s : State} {dst dst' : Word} {count size count' size' : Nat}
    {bs bs' : List Byte} (hdst : InRange s.cfg dst count size)
    (hdst' : InRange s.cfg dst' count' size') (hlen : bs.length ≤ count * size)
    (hlen' : bs'.length ≤ count' * size')
    (hout : outputs s.cfg i = [(dst.toNat, count * size), (dst'.toNat, count' * size')])
    (hres : i.writesRes = false) :
    CommandEffect i s (storeTwo s dst.toNat bs dst'.toNat bs') where
  cfg := storeTwo_cfg ..
  status := storeTwo_status ..
  err := storeTwo_err ..
  host := storeTwo_host ..
  answer := storeTwo_answer ..
  res := (resEffect_kept_iff hres).2 (storeTwo_res ..)
  mem := by
    refine memoryStep_storeTwo (n := count * size) (n' := count' * size') (by simp [hout])
      (by simp [hout]) hlen hlen' ?_ ?_
    · rcases hdst with rfl | hdst
      · exact .inl (by simpa using hlen)
      · exact .inr (by omega)
    · rcases hdst' with rfl | hdst'
      · exact .inl (by simpa using hlen')
      · exact .inr (by omega)
  workers := .inl (storeTwo_workers ..)

theorem boolRes_eq (b : Bool) : boolRes b = 0#32 ∨ boolRes b = 1#32 := by
  cases b
  · exact .inl rfl
  · exact .inr rfl

/-- A predicate's answer in `RES` (rule R22). -/
theorem effect_setRes {i : Instr} {s : State} (hi : i.opcode ∈ [0x18#8, 0x27#8, 0x28#8])
    (b : Bool) : CommandEffect i s (setRes s (boolRes b)) :=
  ⟨rfl, rfl, rfl, rfl, rfl, (resEffect_predicate_iff hi).2 (boolRes_eq b), .refl s.mem, .inl rfl⟩

/-- Drawing a free value is part of no frame. -/
theorem CommandEffect.drawn {i : Instr} {s t : State} (h : CommandEffect i s t) :
    CommandEffect i s (drawn t) :=
  ⟨h.cfg, h.status, h.err, h.host, h.answer, h.res, h.mem, h.workers⟩

/-- A Jacobian result stored at a checked destination. -/
theorem effect_storeJacResult {i : Instr} {s : State} {dst : Word} {onCurve : Bool} {p : Jac}
    (hdst : InRange s.cfg dst 1 (3 * n8 s.cfg)) (hout : outputs s.cfg i = [(dst.toNat, 3 * n8 s.cfg)])
    (hres : i.writesRes = false) : CommandEffect i s (storeJacResult s dst onCurve p) :=
  (effect_storeBytes hdst (by simp) (by simpa using hout) hres).drawn

theorem signRes_lt (k1 k2 : Int) : (signRes k1 k2).toNat < 4 := by
  have bound : (if k1 < 0 then 1 else 0) + 2 * (if k2 < 0 then 1 else 0) < 4 := by
    split <;> split <;> decide
  exact lt_of_le_of_lt (Nat.mod_le _ _) bound

/-! ### The field commands -/

theorem fieldBinary_ends {i : Instr} {op : Byte} {f : Nat → Nat → Nat} {grp : Byte}
    {dst x y : Word} {s : State} (hop : op = i.opcode)
    (hout : outputs s.cfg i = [(dst.toNat, n8 s.cfg)]) (hres : i.writesRes = false) :
    CommandEnds i s (fieldBinary op f grp dst x y s) := by
  subst hop
  refine runCommand_ends fun t ht => ?_
  simp only [checkGroup, checkF, checkCanonical, check_eq_ok, checkArray_eq_ok,
    Except.ok.injEq] at ht
  obtain ⟨-, -, hdst, -, -, -, -, -, rfl⟩ := ht
  exact effect_storeBytes hdst (by simp) (by simpa using hout) hres

theorem fieldUnary_ends {i : Instr} {op : Byte} {f : Nat → Except Cause Nat} {grp : Byte}
    {dst x : Word} {s : State} (hop : op = i.opcode)
    (hout : outputs s.cfg i = [(dst.toNat, n8 s.cfg)]) (hres : i.writesRes = false) :
    CommandEnds i s (fieldUnary op f grp dst x s) := by
  subst hop
  refine runCommand_ends fun t ht => ?_
  simp only [checkGroup, checkF, checkCanonical, check_eq_ok, checkArray_eq_ok] at ht
  obtain ⟨-, -, hdst, -, -, -, ht⟩ := ht
  split at ht
  · cases ht
    exact effect_storeBytes hdst (by simp) (by simpa using hout) hres
  · cases ht

theorem execFadd_ends (grp : Byte) (dst x y : Word) (s : State) :
    CommandEnds (.fadd grp dst x y) s (execFadd grp dst x y s) :=
  fieldBinary_ends rfl rfl rfl

theorem execFsub_ends (grp : Byte) (dst x y : Word) (s : State) :
    CommandEnds (.fsub grp dst x y) s (execFsub grp dst x y s) :=
  fieldBinary_ends rfl rfl rfl

theorem execFneg_ends (grp : Byte) (dst x : Word) (s : State) :
    CommandEnds (.fneg grp dst x) s (execFneg grp dst x s) :=
  fieldUnary_ends rfl rfl rfl

theorem execFmul_ends (grp : Byte) (dst x y : Word) (s : State) :
    CommandEnds (.fmul grp dst x y) s (execFmul grp dst x y s) :=
  fieldBinary_ends rfl rfl rfl

theorem execFsqr_ends (grp : Byte) (dst x : Word) (s : State) :
    CommandEnds (.fsqr grp dst x) s (execFsqr grp dst x s) :=
  fieldUnary_ends rfl rfl rfl

theorem execFtom_ends (grp : Byte) (dst x : Word) (s : State) :
    CommandEnds (.ftom grp dst x) s (execFtom grp dst x s) :=
  fieldUnary_ends rfl rfl rfl

theorem execFfromm_ends (grp : Byte) (dst x : Word) (s : State) :
    CommandEnds (.ffromm grp dst x) s (execFfromm grp dst x s) :=
  fieldUnary_ends rfl rfl rfl

theorem execFinv_ends (grp : Byte) (dst x : Word) (s : State) :
    CommandEnds (.finv grp dst x) s (execFinv grp dst x s) :=
  fieldUnary_ends rfl rfl rfl

theorem execFsqrt_ends (grp : Byte) (dst x : Word) (s : State) :
    CommandEnds (.fsqrt grp dst x) s (execFsqrt grp dst x s) :=
  fieldUnary_ends rfl rfl rfl

theorem execFissq_ends (grp : Byte) (x : Word) (s : State) :
    CommandEnds (.fissq grp x) s (execFissq grp x s) := by
  refine runCommand_ends fun t ht => ?_
  simp only [checkGroup, checkF, checkCanonical, check_eq_ok, checkArray_eq_ok,
    Except.ok.injEq] at ht
  obtain ⟨-, -, -, -, rfl⟩ := ht
  exact effect_setRes (by simp [Instr.opcode]) _

theorem execFbinv_ends (grp : Byte) (dst src n : Word) (s : State) :
    CommandEnds (.fbinv grp dst src n) s (execFbinv grp dst src n s) := by
  refine runCommand_ends fun t ht => ?_
  simp only [checkGroup, checkF, checkCanonical, check_eq_ok, checkArray_eq_ok,
    Except.ok.injEq] at ht
  obtain ⟨-, -, hdst, -, -, -, rfl⟩ := ht
  refine effect_storeBytes hdst ?_ rfl rfl
  rw [length_flatMap_of_size _ _ _ (fieldBytes_length s.cfg), List.length_map, fieldsAt_length]

/-! ### The curve commands -/

theorem execPadda_ends (grp : Byte) (dst p q : Word) (s : State) :
    CommandEnds (.padda grp dst p q) s (execPadda grp dst p q s) := by
  refine runCommand_ends fun t ht => ?_
  simp only [checkGroup, checkA, checkCanonical, check_eq_ok, checkArray_eq_ok,
    Except.ok.injEq] at ht
  obtain ⟨-, -, hdst, -, -, -, -, -, rfl⟩ := ht
  exact effect_storeBytes hdst (by simp) (by simp [outputs]) rfl

theorem execPadd_ends (grp : Byte) (dst p q : Word) (s : State) :
    CommandEnds (.padd grp dst p q) s (execPadd grp dst p q s) := by
  refine runCommand_ends fun t ht => ?_
  simp only [checkGroup, checkJ, checkCanonical, check_eq_ok, checkArray_eq_ok,
    Except.ok.injEq] at ht
  obtain ⟨-, -, hdst, -, -, -, -, -, rfl⟩ := ht
  exact effect_storeJacResult hdst rfl rfl

theorem execPdbl_ends (grp : Byte) (dst p : Word) (s : State) :
    CommandEnds (.pdbl grp dst p) s (execPdbl grp dst p s) := by
  refine runCommand_ends fun t ht => ?_
  simp only [checkGroup, checkJ, checkCanonical, check_eq_ok, checkArray_eq_ok,
    Except.ok.injEq] at ht
  obtain ⟨-, -, hdst, -, -, -, rfl⟩ := ht
  exact effect_storeJacResult hdst rfl rfl

theorem execPneg_ends (grp : Byte) (dst p : Word) (s : State) :
    CommandEnds (.pneg grp dst p) s (execPneg grp dst p s) := by
  refine runCommand_ends fun t ht => ?_
  simp only [checkGroup, checkJ, checkCanonical, check_eq_ok, checkArray_eq_ok,
    Except.ok.injEq] at ht
  obtain ⟨-, -, hdst, -, -, -, rfl⟩ := ht
  exact effect_storeBytes hdst (by simp) (by simp [outputs]) rfl

theorem execPnega_ends (grp : Byte) (dst p : Word) (s : State) :
    CommandEnds (.pnega grp dst p) s (execPnega grp dst p s) := by
  refine runCommand_ends fun t ht => ?_
  simp only [checkGroup, checkA, checkCanonical, check_eq_ok, checkArray_eq_ok,
    Except.ok.injEq] at ht
  obtain ⟨-, -, hdst, -, -, -, rfl⟩ := ht
  exact effect_storeBytes hdst (by simp) (by simp [outputs]) rfl

theorem execPmul_ends (grp : Byte) (dst p k : Word) (s : State) :
    CommandEnds (.pmul grp dst p k) s (execPmul grp dst p k s) := by
  refine runCommand_ends fun t ht => ?_
  simp only [checkGroup, checkJ, checkK, checkCanonical, check_eq_ok, checkArray_eq_ok,
    Except.ok.injEq] at ht
  obtain ⟨-, -, hdst, -, -, -, -, -, rfl⟩ := ht
  exact effect_storeJacResult hdst rfl rfl

theorem execPtoaff_ends (grp : Byte) (dst p : Word) (s : State) :
    CommandEnds (.ptoaff grp dst p) s (execPtoaff grp dst p s) := by
  refine runCommand_ends fun t ht => ?_
  simp only [checkGroup, checkA, checkJ, checkCanonical, check_eq_ok, checkArray_eq_ok,
    Except.ok.injEq] at ht
  obtain ⟨-, -, hdst, -, -, -, rfl⟩ := ht
  exact effect_storeBytes hdst (by simp) (by simp [outputs]) rfl

theorem execPeq_ends (grp : Byte) (p q : Word) (s : State) :
    CommandEnds (.peq grp p q) s (execPeq grp p q s) := by
  refine runCommand_ends fun t ht => ?_
  simp only [checkGroup, checkJ, checkCanonical, check_eq_ok, checkArray_eq_ok,
    Except.ok.injEq] at ht
  obtain ⟨-, -, -, -, -, -, rfl⟩ := ht
  exact effect_setRes (by simp [Instr.opcode]) _

theorem execPisz_ends (grp : Byte) (p : Word) (s : State) :
    CommandEnds (.pisz grp p) s (execPisz grp p s) := by
  refine runCommand_ends fun t ht => ?_
  simp only [checkGroup, checkJ, checkCanonical, check_eq_ok, checkArray_eq_ok,
    Except.ok.injEq] at ht
  obtain ⟨-, -, -, -, rfl⟩ := ht
  exact effect_setRes (by simp [Instr.opcode]) _

theorem execPbadd_ends (grp : Byte) (dst ps qs n : Word) (s : State) :
    CommandEnds (.pbadd grp dst ps qs n) s (execPbadd grp dst ps qs n s) := by
  refine runCommand_ends fun t ht => ?_
  simp only [checkGroup, checkA, checkCanonical, check_eq_ok, checkArray_eq_ok,
    Except.ok.injEq] at ht
  obtain ⟨-, -, hdst, -, -, -, -, -, rfl⟩ := ht
  refine effect_storeBytes hdst ?_ rfl rfl
  simp [length_flatMap_of_size _ _ _ (affBytes_length s.cfg)]

theorem execPbtoaff_ends (grp : Byte) (dst src n : Word) (s : State) :
    CommandEnds (.pbtoaff grp dst src n) s (execPbtoaff grp dst src n s) := by
  refine runCommand_ends fun t ht => ?_
  simp only [checkGroup, checkA, checkJ, checkCanonical, check_eq_ok, checkArray_eq_ok,
    Except.ok.injEq] at ht
  obtain ⟨-, -, hdst, -, -, -, rfl⟩ := ht
  refine effect_storeBytes hdst ?_ rfl rfl
  rw [length_flatMap_of_size _ _ _ (affBytes_length s.cfg), List.length_map, jacsAt_length]

/-! ### The GLV commands -/

theorem execGlvsplit_ends (grp : Byte) (dst k : Word) (s : State) :
    CommandEnds (.glvsplit grp dst k) s (execGlvsplit grp dst k s) := by
  refine runCommand_ends fun t ht => ?_
  simp only [checkGlv, checkGroup, checkK, check_eq_ok, checkArray_eq_ok, Except.ok.injEq] at ht
  obtain ⟨-, -, -, hdst, -, -, -, rfl⟩ := ht
  refine ⟨rfl, rfl, rfl, rfl, rfl, (resEffect_signs_iff rfl).2 (signRes_lt _ _), ?_, .inl rfl⟩
  have hlen : ∀ k1 k2, ([k1, k2].flatMap (scalarBytes s.cfg)).length = 2 * s.cfg.scalarBytes :=
    fun k1 k2 => length_flatMap_of_size _ _ _ (scalarBytes_length s.cfg)
  refine (MemoryStep.refl s.mem).write (sp := (dst.toNat, 2 * s.cfg.scalarBytes))
    (by simp [outputs]) (le_refl _) (by rw [hlen]) (.inr ?_)
  rw [hlen]
  exact hdst.resolve_left (by decide)

theorem execGlvexp_ends (grp : Byte) (dstP dstK ps ks n : Word) (s : State) :
    CommandEnds (.glvexp grp dstP dstK ps ks n) s (execGlvexp grp dstP dstK ps ks n s) := by
  refine runCommand_ends fun t ht => ?_
  simp only [checkGlv, checkGroup, checkA, checkK, checkCanonical, check_eq_ok, checkArray_eq_ok,
    Except.ok.injEq] at ht
  obtain ⟨-, -, -, hdstP, -, hdstK, -, -, -, -, -, -, rfl⟩ := ht
  refine effect_storeTwo hdstP hdstK ?_ ?_ rfl rfl
  · simp [length_flatMap_of_size (fun e : Aff × Nat => affBytes s.cfg e.1) _ (2 * n8 s.cfg)]
  · simp [length_flatMap_of_size (fun e : Aff × Nat => scalarBytes s.cfg e.2) _ s.cfg.scalarBytes]

/-! ### The stage commands -/

theorem execSched_ends (grp : Byte) (dstE dstC ks n c bits : Word) (s : State) :
    CommandEnds (.sched grp dstE dstC ks n c bits) s (execSched grp dstE dstC ks n c bits s) := by
  refine runCommand_ends fun t ht => ?_
  simp only [checkGroup, checkWidth, checkBits, checkE, checkU, checkK, check_eq_ok,
    checkArray_eq_ok, Except.ok.injEq] at ht
  obtain ⟨-, -, -, -, hdstE, -, hdstC, -, -, -, rfl⟩ := ht
  refine effect_storeTwo hdstE hdstC (le_of_eq ?_) (le_of_eq ?_) rfl rfl
  · rw [length_flatMap_of_size _ _ _ entryBytes_length, scheduleRounds_flatten_length,
      scalarsAt_length]
  · rw [length_flatMap_of_size _ _ _ fun es => countBytes_length _, scheduleRounds_length]

theorem execBsort_ends (grp : Byte) (dstS dstO es n c : Word) (s : State) :
    CommandEnds (.bsort grp dstS dstO es n c) s (execBsort grp dstS dstO es n c s) := by
  refine runCommand_ends fun t ht => ?_
  simp only [checkGroup, checkWidth, checkE, checkU, check_eq_ok, checkArray_eq_ok,
    Except.ok.injEq] at ht
  obtain ⟨-, -, -, hdstS, -, hdstO, -, -, -, rfl⟩ := ht
  refine effect_storeTwo hdstS hdstO ?_ (le_of_eq ?_) rfl rfl
  · rw [length_flatMap_of_size _ _ _ entryBytes_length]
    have := sortedEntries_length_le (bucketCount s.cfg c.toNat) (entriesAt s es n.toNat)
    rw [entriesAt_length] at this
    omega
  · rw [length_flatMap_of_size _ _ _ countBytes_length, bucketOffsets_length]

theorem execChain_ends (grp : Byte) (dstB ss os ps n c : Word) (s : State) :
    CommandEnds (.chain grp dstB ss os ps n c) s (execChain grp dstB ss os ps n c s) := by
  refine runCommand_ends fun t ht => ?_
  simp only [checkGroup, checkWidth, checkA, checkU, checkCanonical, check_eq_ok,
    checkArray_eq_ok, Except.ok.injEq] at ht
  obtain ⟨-, -, -, hdst, -, -, -, -, -, -, -, -, -, rfl⟩ := ht
  refine effect_storeBytes hdst ?_ rfl rfl
  rw [length_flatMap_of_size _ _ _ (affBytes_length s.cfg), chainReduce_length,
    bucketLists_length]

theorem execBred_ends (grp : Byte) (dst bs c : Word) (s : State) :
    CommandEnds (.bred grp dst bs c) s (execBred grp dst bs c s) := by
  refine runCommand_ends fun t ht => ?_
  simp only [checkGroup, checkWidth, checkJ, checkA, checkCanonical, check_eq_ok,
    checkArray_eq_ok, Except.ok.injEq] at ht
  obtain ⟨-, -, -, hdst, -, -, -, rfl⟩ := ht
  exact effect_storeJacResult hdst rfl rfl

theorem execRfold_ends (grp : Byte) (dst rs m c : Word) (s : State) :
    CommandEnds (.rfold grp dst rs m c) s (execRfold grp dst rs m c s) := by
  refine runCommand_ends fun t ht => ?_
  simp only [checkGroup, checkWidth, checkJ, checkCanonical, check_eq_ok, checkArray_eq_ok,
    Except.ok.injEq] at ht
  obtain ⟨-, -, -, hdst, -, -, -, rfl⟩ := ht
  exact effect_storeJacResult hdst rfl rfl

/-! ### The multi-exponentiations -/

/-- Past the entry checks the destination is in range and what follows decides (rule R190). -/
theorem checkEntry_eq_ok {grp : Byte} {dst ps psLen ks ksLen n : Word} {s t : State}
    {k : Except Cause State} (h : checkEntry grp dst ps psLen ks ksLen n s k = .ok t) :
    InRange s.cfg dst 1 (3 * n8 s.cfg) ∧ k = .ok t := by
  simp only [checkEntry, checkGroup, checkJ, checkBuffer, checkCanonical, check_eq_ok,
    checkArray_eq_ok] at h
  obtain ⟨-, -, hdst, -, -, -, -, -, -, -, hk⟩ := h
  exact ⟨hdst, hk⟩

/-- `MEXP` past its tasks: one point at the destination, and the workers as before or idle (rule R195). -/
theorem finishMexp_effect {grp : Byte} {dst ps psLen ks ksLen n : Word} {s : State}
    (hdst : InRange s.cfg dst 1 (3 * n8 s.cfg)) (pks : List (Aff × Nat)) (sum : Jac) :
    CommandEffect (.mexp grp dst ps psLen ks ksLen n) s (finishMexp s dst pks sum) := by
  unfold finishMexp
  split
  · exact effect_storeJacResult hdst rfl rfl
  · refine ⟨rfl, rfl, rfl, rfl, rfl, (resEffect_kept_iff rfl).2 rfl, ?_, .inr ⟨rfl, rfl⟩⟩
    refine (MemoryStep.refl s.mem).write (sp := (dst.toNat, 3 * n8 s.cfg)) (by simp [outputs])
      (le_refl _) (by simp) (.inr ?_)
    simpa using hdst.resolve_left one_ne_zero

theorem execMexp_ends (grp : Byte) (dst ps psLen ks ksLen n : Word) (s : State) :
    CommandEnds (.mexp grp dst ps psLen ks ksLen n) s
      (execMexp grp dst ps psLen ks ksLen n s) := by
  refine runCommand_ends fun t ht => ?_
  obtain ⟨hdst, ht⟩ := checkEntry_eq_ok ht
  split at ht
  · cases ht
  · cases ht
    exact finishMexp_effect hdst _ _

theorem execMexpn_ends (grp : Byte) (dst ps psLen ks ksLen n : Word) (s : State) :
    CommandEnds (.mexpn grp dst ps psLen ks ksLen n) s
      (execMexpn grp dst ps psLen ks ksLen n s) := by
  refine runCommand_ends fun t ht => ?_
  obtain ⟨hdst, ht⟩ := checkEntry_eq_ok ht
  cases ht
  exact effect_storeJacResult hdst rfl rfl

/-! ### All commands -/

/-- Every command ends in a next state, by its effect or by the fault entry. -/
theorem exec_ends (i : Instr) (s : State) : CommandEnds i s (exec i s) := by
  cases i with
  | fadd => exact execFadd_ends ..
  | fsub => exact execFsub_ends ..
  | fneg => exact execFneg_ends ..
  | fmul => exact execFmul_ends ..
  | fsqr => exact execFsqr_ends ..
  | ftom => exact execFtom_ends ..
  | ffromm => exact execFfromm_ends ..
  | finv => exact execFinv_ends ..
  | fissq => exact execFissq_ends ..
  | fsqrt => exact execFsqrt_ends ..
  | fbinv => exact execFbinv_ends ..
  | padda => exact execPadda_ends ..
  | padd => exact execPadd_ends ..
  | pdbl => exact execPdbl_ends ..
  | pneg => exact execPneg_ends ..
  | pnega => exact execPnega_ends ..
  | pmul => exact execPmul_ends ..
  | ptoaff => exact execPtoaff_ends ..
  | peq => exact execPeq_ends ..
  | pisz => exact execPisz_ends ..
  | pbadd => exact execPbadd_ends ..
  | pbtoaff => exact execPbtoaff_ends ..
  | glvsplit => exact execGlvsplit_ends ..
  | glvexp => exact execGlvexp_ends ..
  | sched => exact execSched_ends ..
  | bsort => exact execBsort_ends ..
  | chain => exact execChain_ends ..
  | bred => exact execBred_ends ..
  | rfold => exact execRfold_ends ..
  | mexp => exact execMexp_ends ..
  | mexpn => exact execMexpn_ends ..

/-- All a command can do, read from the state it ends in. -/
theorem exec_eq_next {i : Instr} {s t : State} (h : exec i s = .next t) :
    (∃ c, t = raiseFault s c i.opcode) ∨ CommandEffect i s t := by
  obtain ⟨u, hu, hcases⟩ := exec_ends i s
  rw [hu] at h
  cases h
  exact hcases

/-! ### What an effect leaves -/

/-- Only `MEXP` has the opcode 0x50, so no other family touches an arena. -/
theorem family_eq_multiexp_of_opcode {i : Instr} (h : i.opcode = 0x50#8) : i.family = .multiexp := by
  cases i <;> simp [Instr.opcode, Instr.family] at h ⊢

theorem writesRes_eq_false_of_multiexp {i : Instr} (h : i.family = .multiexp) :
    i.writesRes = false := by
  cases i <;> simp [Instr.family, Instr.writesRes] at h ⊢

/-- The frame of any command: its fault entry, or its effect outside its outputs. -/
theorem framed_of_exec {i : Instr} {s t : State} (h : exec i s = .next t) :
    Framed s t i.opcode i.writesRes (outputs s.cfg i) := by
  rcases exec_eq_next h with hf | he
  · exact .inl hf
  · obtain ⟨hread, -⟩ := he.mem
    exact .inr ⟨he.cfg, he.status, he.err, he.host, he.answer, fun hi =>
      (resEffect_kept_iff hi).1 he.res, hread⟩

/-- The arenas after any command: as before, or, after `MEXP` only, idle. -/
theorem workers_of_exec {i : Instr} {s t : State} (h : exec i s = .next t) :
    t.workers = s.workers ∨ (i.opcode = 0x50#8 ∧ t.workers = idleWorkers s) := by
  rcases exec_eq_next h with ⟨c, rfl⟩ | he
  · exact .inl rfl
  · exact he.workers

/-- Outside the multi-exponentiation family no arena changes. -/
theorem workers_eq_of_family {i : Instr} {s t : State} (h : exec i s = .next t)
    (hi : i.family ≠ .multiexp) : t.workers = s.workers :=
  (workers_of_exec h).resolve_right fun hm => hi (family_eq_multiexp_of_opcode hm.1)

theorem idleWorkers_length (s : State) : (idleWorkers s).length = s.cfg.concurrency := by
  simp [idleWorkers]

theorem idleWorkers_ap {s : State} {w : Worker} (h : w ∈ idleWorkers s) : w.ap = 0 := by
  obtain ⟨i, -, rfl⟩ := List.mem_map.1 h
  rfl

/-! ### The invariant -/

theorem causeCode_toNat_pos (c : Cause) : 0 < (causeCode c).toNat := by
  cases c <;> decide

/-- A recorded fault never reads as none: no cause has the code 0 (rules R24, R211). -/
theorem errorWord_ne_zero (c : Cause) (op : Byte) :
    BitVec.ofNat 32 ((causeCode c).toNat + 256 * op.toNat) ≠ 0 := by
  intro h
  have h0 : ((causeCode c).toNat + 256 * op.toNat) % 2 ^ 32 = 0 := congrArg BitVec.toNat h
  have hc := causeCode_toNat_pos c
  have hc' := (causeCode c).isLt
  have hop := op.isLt
  omega

theorem inv_raiseFault {s : State} (h : Inv s) (c : Cause) (op : Byte) :
    Inv (raiseFault s c op) := by
  obtain ⟨hmem, -, -, -, hres, hworkers⟩ := h
  refine ⟨hmem, .inr rfl, ?_, .inr ⟨c, op, rfl⟩, hres, hworkers⟩
  exact iff_of_false (by simp) (errorWord_ne_zero c op)

theorem inv_of_effect {i : Instr} {s t : State} (h : Inv s) (he : CommandEffect i s t) : Inv t := by
  obtain ⟨hmem, hstatus, hfault, herr, hres, hcount, hidle⟩ := h
  have hmem' : MemoryBelow s.cfg.memSize t.mem := he.mem.2 hmem
  refine ⟨he.cfg ▸ hmem', he.status ▸ hstatus, he.status ▸ he.err ▸ hfault, he.err ▸ herr,
    he.res.lt_four hres, ?_⟩
  rcases he.workers with hw | ⟨-, hw⟩
  · rw [hw, he.cfg]
    exact ⟨hcount, hidle⟩
  · rw [hw, he.cfg]
    exact ⟨idleWorkers_length s, fun w => idleWorkers_ap⟩

theorem inv_exec {i : Instr} {s t : State} (h : Inv s) (ht : exec i s = .next t) : Inv t := by
  rcases exec_eq_next ht with ⟨c, rfl⟩ | he
  · exact inv_raiseFault h c _
  · exact inv_of_effect h he

theorem inv_issue {d : Descriptor} {s t : State} (h : Inv s) (ht : issue d s = .next t) :
    Inv t := by
  rcases issue_eq_next ht with ⟨-, rfl⟩ | ⟨-, i, -, hexec⟩ | ⟨-, c, -, rfl⟩
  · exact h
  · exact inv_exec h hexec
  · exact inv_raiseFault h c _

theorem inv_storeBytes {s : State} {a : Nat} {bs : List Byte} (h : Inv s)
    (hfit : a + bs.length ≤ s.cfg.memSize) : Inv (storeBytes s a bs) := by
  obtain ⟨hmem, hrest⟩ := h
  exact ⟨memoryBelow_writeBytes hmem (.inr hfit), hrest⟩

/-- Reset restores the invariant in any state, whatever it puts in memory (rule R241). -/
theorem inv_resetMachine (s : State) (contents : List Host.Cell) :
    Inv (resetMachine s contents) :=
  ⟨memoryBelow_memoryOf _ _, .inl rfl, iff_of_true rfl rfl, .inl rfl, by simp,
    idleWorkers_length s, fun _ => idleWorkers_ap⟩

theorem inv_makeMove {m : HostMove} {s t : State} (h : Inv s) (ht : makeMove m s = .next t) :
    Inv t := by
  rcases makeMove_eq_next ht with ⟨contents, -, rfl⟩ | ⟨a, bs, -, -, hfit, rfl⟩ |
    ⟨a, n, -, -, -, rfl⟩ | ⟨number, -, rfl⟩ | ⟨d, -, -, hissue⟩
  · exact inv_resetMachine s contents
  · exact inv_storeBytes h hfit
  · exact h
  · exact h
  · exact inv_issue h hissue

theorem inv_hostAdvanced {s : State} (h : Inv s) (rest : List HostMove) :
    Inv (hostAdvanced s rest) := h

/-- Settles O11: each move of the host keeps the invariant, a command by its effect or its fault entry. -/
theorem stepKeepsInvariant : Obligations.StepKeepsInvariant := by
  intro s t h ht
  rcases step_eq_next ht with ⟨-, rfl⟩ | ⟨m, rest, -, hmove⟩
  · exact h
  · exact inv_makeMove (inv_hostAdvanced h rest) hmove

/-! ### The sticky fault -/

/-- `STATUS`, `ERR` and `RES` are as they were. -/
def SameControl (s t : State) : Prop :=
  t.status = s.status ∧ t.err = s.err ∧ t.res = s.res

/-- A faulted block answers no move but reset with a change of a register (rules R220, R223). -/
theorem makeMove_faulted {m : HostMove} {s t : State} (hf : faulted s = true)
    (hm : ∀ contents, m ≠ .reset contents) (h : makeMove m s = .next t) :
    SameControl s t ∧ t.host = s.host := by
  rcases makeMove_eq_next h with ⟨contents, hreset, -⟩ | ⟨a, bs, -, -, -, rfl⟩ |
    ⟨a, n, -, -, -, rfl⟩ | ⟨number, -, rfl⟩ | ⟨d, -, -, hissue⟩
  · exact absurd hreset (hm contents)
  · exact ⟨⟨rfl, rfl, rfl⟩, rfl⟩
  · exact ⟨⟨rfl, rfl, rfl⟩, rfl⟩
  · exact ⟨⟨rfl, rfl, rfl⟩, rfl⟩
  · rcases issue_eq_next hissue with ⟨-, rfl⟩ | ⟨hnf, -⟩ | ⟨hnf, -⟩
    · exact ⟨⟨rfl, rfl, rfl⟩, rfl⟩
    · simp [hf] at hnf
    · simp [hf] at hnf

/-- One step of a faulted block with no reset waiting: the registers stay, and no reset is added. -/
theorem step_faulted {s t : State} (hf : faulted s = true)
    (hhost : ∀ m ∈ s.host, ∀ contents, m ≠ .reset contents) (h : step s = .next t) :
    SameControl s t ∧ ∀ m ∈ t.host, ∀ contents, m ≠ .reset contents := by
  rcases step_eq_next h with ⟨-, rfl⟩ | ⟨m, rest, hs, hmove⟩
  · exact ⟨⟨rfl, rfl, rfl⟩, hhost⟩
  · rw [hs] at hhost
    obtain ⟨hsame, hrest⟩ := makeMove_faulted (s := hostAdvanced s rest) hf
      (hhost m (List.mem_cons_self ..)) hmove
    refine ⟨hsame, fun m' hm' => hhost m' (List.mem_cons_of_mem m ?_)⟩
    rwa [hrest] at hm'

theorem SameControl.faulted {s t : State} (h : SameControl s t) : faulted t = faulted s := by
  rw [Machine.faulted, Machine.faulted, h.1]

/-- A run of `k + 1` steps that answers a next state is a step and a run of `k`. -/
theorem run_succ_eq_next {M : Host.Core} {k : Nat} {s t : M.State}
    (h : M.run (k + 1) s = .next t) : ∃ u, M.step s = .next u ∧ M.run k u = .next t := by
  rw [Host.Core.run] at h
  split at h
  · rename_i u hu
    exact ⟨u, hu, h⟩
  · cases h
  · cases h

/-- Settles O8, by induction on the length of the run. -/
theorem faultIsSticky : Obligations.FaultIsSticky := by
  intro k
  induction k with
  | zero =>
    intro s t hf _ h
    cases h
    exact ⟨hf, rfl, rfl, rfl⟩
  | succ k ih =>
    intro s t hf hhost h
    obtain ⟨u, hstep, hrun⟩ := run_succ_eq_next (M := Sys2Proof.core) h
    obtain ⟨hsame, hhost'⟩ := step_faulted hf hhost hstep
    have hfu : faulted u = true := by rw [hsame.faulted, hf]
    obtain ⟨hstatus, herr, hres⟩ := hsame
    obtain ⟨hft, hstatus', herr', hres'⟩ := ih u t hfu hhost' hrun
    exact ⟨hft, hstatus'.trans hstatus, herr'.trans herr, hres'.trans hres⟩

/-! ### Statements about commands -/

/-- Settles O13, from what each command's own lemma says it can do. -/
theorem everyCommandEnds : Obligations.EveryCommandEnds := by
  intro i s
  obtain ⟨t, ht, hf | he⟩ := exec_ends i s
  · exact ⟨t, ht, .inl hf⟩
  · exact ⟨t, ht, .inr ⟨he.cfg, he.status, he.err, he.host, he.answer⟩⟩

/-- Settles O14: a fault leaves `RES`, and an effect leaves in it what `ResEffect` allows. -/
theorem onlyPredicatesWriteRes : Obligations.OnlyPredicatesWriteRes := by
  intro i s t h
  rcases exec_eq_next h with ⟨c, rfl⟩ | he
  · exact ⟨fun _ => rfl, fun _ => .inl ⟨c, rfl, rfl⟩, fun _ => .inl ⟨c, rfl, rfl⟩⟩
  · refine ⟨fun hi => ?_, fun hi => ?_, fun hi => ?_⟩
    · have hkept : i.writesRes = false := (writesRes_eq_false_iff i).2 (by simpa [and_assoc] using hi)
      exact (resEffect_kept_iff hkept).1 he.res
    · exact .inr ⟨he.status, he.err, (resEffect_predicate_iff hi).1 he.res⟩
    · exact .inr ⟨he.status, he.err, (resEffect_signs_iff hi).1 he.res⟩

/-- Settles O17: the frame all commands share, in a family that runs no task. -/
theorem fieldFrame : Obligations.FieldFrame := by
  intro i s t hi h
  exact ⟨framed_of_exec h, workers_eq_of_family h (by simp [hi])⟩

/-- Settles O18, as O17: the curve commands run no task either. -/
theorem curveFrame : Obligations.CurveFrame := by
  intro i s t hi h
  exact ⟨framed_of_exec h, workers_eq_of_family h (by simp [hi])⟩

/-- Settles O19, as O17; the overlap of two outputs lies inside both of them. -/
theorem glvAndStageFrame : Obligations.GlvAndStageFrame := by
  intro i s t hi h
  refine ⟨framed_of_exec h, workers_eq_of_family h ?_⟩
  rcases hi with hi | hi <;> simp [hi]

/-- Settles O20: only `MEXP` retires its workers. -/
theorem multiexpFrame : Obligations.MultiexpFrame := by
  intro i s t hi h
  refine ⟨writesRes_eq_false_of_multiexp hi ▸ framed_of_exec h, ?_⟩
  rcases workers_of_exec h with hw | ⟨hop, hw⟩
  · exact .inl hw
  · rw [hw]
    exact .inr ⟨hop, idleWorkers_length s, fun w => idleWorkers_ap⟩

/-! ### The host's moves -/

theorem issue_of_decode {d : Descriptor} {s : State} {i : Instr} (hf : faulted s = false)
    (hd : decodeIssued s d = .ok i) : issue d s = exec i s := by
  simp [issue, hf, hd]

/-- Settles O5: neither the refusal while busy nor the one while faulted applies. -/
theorem stepRunsDecoded : Obligations.StepRunsDecoded := by
  intro s d rest i hs hb hf hd
  have hb' : busy (hostAdvanced s rest) = false := hb
  rw [step_of_host hs]
  simp only [makeMove, hb', Bool.false_eq_true, if_false]
  exact issue_of_decode (s := hostAdvanced s rest) hf hd

theorem hostAccess_inside {s t : State} {a n : Nat} (h : a + n ≤ s.cfg.memSize) :
    hostAccess s a n t = .next t := if_pos h

theorem hostAccess_outside {s t : State} {a n : Nat} (h : s.cfg.memSize < a + n) :
    hostAccess s a n t = .fault .hostAccessOutsideMemory := if_neg (by omega)

/-- While busy the block heeds no move but reset and the reading of a register (rules R21, R55). -/
theorem makeMove_busy {m : HostMove} {s : State} (hb : busy s = true)
    (hreset : ∀ contents, m ≠ .reset contents) (hread : ∀ number, m ≠ .readRegister number) :
    makeMove m s = .refused .hostMoveWhileBusy := by
  cases m with
  | reset contents => exact absurd rfl (hreset contents)
  | readRegister number => exact absurd rfl (hread number)
  | issue d => exact if_pos hb
  | write a bs => exact if_pos hb
  | read a n => exact if_pos hb

theorem makeMove_write {s : State} (hb : busy s = false) (a : Nat) (bs : List Byte) :
    makeMove (.write a bs) s = hostAccess s a bs.length (storeBytes s a bs) := by
  simp [makeMove, hb, hostWrite]

theorem makeMove_read {s : State} (hb : busy s = false) (a n : Nat) :
    makeMove (.read a n) s = hostAccess s a n (setAnswer s (.bytes (readBytes s.mem a n))) := by
  simp [makeMove, hb, hostRead]

/-- Settles O6, move by move. -/
theorem hostMoves : Obligations.HostMoves := by
  intro s rest
  refine ⟨fun hs => ?idle, fun a bs hs hb => ?write, fun a n hs hb => ?read,
    fun number hs => ?register, fun m hs hb hreset hread => ?busy⟩
  case idle => simp [step, hs]
  case write =>
    rw [step_of_host hs, makeMove_write (s := hostAdvanced s rest) hb]
    exact ⟨hostAccess_inside, hostAccess_outside⟩
  case read =>
    rw [step_of_host hs, makeMove_read (s := hostAdvanced s rest) hb]
    exact ⟨hostAccess_inside, hostAccess_outside⟩
  case register =>
    rw [step_of_host hs]
    rcases number with _ | _ | _ | number <;> rfl
  case busy =>
    rw [step_of_host hs]
    exact makeMove_busy (s := hostAdvanced s rest) hb hreset hread

/-! ### The reset state -/

/-- The workers of the reset state: two, both idle. -/
theorem reset_workers : State.reset.workers = [⟨0, 0⟩, ⟨0, 0⟩] := rfl

/-- Settles O10, by evaluating the reset state. -/
theorem resetState : Obligations.ResetState := by
  refine ⟨rfl, rfl, rfl, rfl, ?_, rfl⟩
  rw [reset_workers]
  decide

/-- Settles O12, conjunct by conjunct. -/
theorem resetMeetsInvariant : Obligations.ResetMeetsInvariant := by
  refine ⟨⟨⟨List.Pairwise.nil, nofun⟩, nofun⟩, .inl rfl, iff_of_true rfl rfl, .inl rfl,
    by decide, rfl, ?_⟩
  rw [reset_workers]
  decide

end Sys2Proof.Machine
end

section
/-! PROOFS. The static checks of every command (`20_memory.md`). Each command begins with one chain of
checks that no byte of memory enters; the chain is stated once for all commands, and its first failure is
read off it. -/

namespace Sys2Proof.Machine

/-! ### The address checks of a list of operands -/

/-- The address checks of a list of operands, in their order (rule R43). -/
def checkOperands {α : Type} (cfg : Config) :
    List AddressOperand → Except Cause α → Except Cause α
  | [], k => k
  | p :: rest, k => checkArray cfg p.align p.addr p.count p.size (checkOperands cfg rest k)

/-- The first operand that fails its check names the fault: alignment before range. -/
theorem checkOperands_eq_error {α : Type} {cfg : Config} {ps : List AddressOperand} {c : Cause}
    (h : firstAddressFault cfg ps = some c) (k : Except Cause α) :
    checkOperands cfg ps k = .error c := by
  induction ps with
  | nil => cases h
  | cons p rest ih =>
    rw [checkOperands, checkArray_eq_error]
    rw [firstAddressFault] at h
    split_ifs at h with halign hrange
    · exact .inl ⟨halign, (Option.some.inj h).symm⟩
    · have hout : ¬InRange cfg p.addr p.count p.size := by simpa [InRange] using hrange
      exact .inr (.inl ⟨not_not.1 halign, hout, (Option.some.inj h).symm⟩)
    · have hin : InRange cfg p.addr p.count p.size := by
        simpa [InRange, or_iff_not_imp_left] using hrange
      exact .inr (.inr ⟨not_not.1 halign, hin, ih h⟩)

/-! ### The chain every command begins with -/

/-- The checks of rule R69 that follow the reserved bits, in their order, before what `k` does.  The
first check repeats the decoder's own, of a GLV opcode. -/
def staticChecks {α : Type} (cfg : Config) (i : Instr) (k : Except Cause α) : Except Cause α :=
  check ((cfg.glvEnabled || !i.isGlv) = true) .illegalOpcode <| checkGroup i.grp <|
    check (i.paramsOk cfg = true) .badParam <| checkOperands cfg (addressOperands cfg i) k

theorem staticChecks_unknownGroup {α : Type} {cfg : Config} {i : Instr}
    (hglv : (cfg.glvEnabled || !i.isGlv) = true) (hgrp : groupOk i.grp = false)
    (k : Except Cause α) : staticChecks cfg i k = .error .unknownGroup := by
  rw [staticChecks, check_pos hglv, checkGroup, check_neg (by simp [hgrp])]

theorem staticChecks_badParam {α : Type} {cfg : Config} {i : Instr}
    (hglv : (cfg.glvEnabled || !i.isGlv) = true) (hgrp : groupOk i.grp = true)
    (hparams : i.paramsOk cfg = false) (k : Except Cause α) :
    staticChecks cfg i k = .error .badParam := by
  rw [staticChecks, check_pos hglv, checkGroup, check_pos hgrp, check_neg (by simp [hparams])]

theorem staticChecks_addressFault {α : Type} {cfg : Config} {i : Instr} {c : Cause}
    (hglv : (cfg.glvEnabled || !i.isGlv) = true) (hgrp : groupOk i.grp = true)
    (hparams : i.paramsOk cfg = true)
    (haddr : firstAddressFault cfg (addressOperands cfg i) = some c) (k : Except Cause α) :
    staticChecks cfg i k = .error c := by
  rw [staticChecks, check_pos hglv, checkGroup, check_pos hgrp, check_pos hparams,
    checkOperands_eq_error haddr]

/-- The outcome of a command that makes its static checks before all else. -/
def ChecksFirst (i : Instr) (s : State) (o : Host.Outcome State Fault Refusal) : Prop :=
  ∃ k, o = runCommand i.opcode s (staticChecks s.cfg i k)

/-- Outside the GLV commands the opcode check says nothing. -/
theorem checksFirst_of_not_glv {i : Instr} {s : State} {o : Host.Outcome State Fault Refusal}
    {k : Except Cause State} (hi : i.isGlv = false)
    (h : o = runCommand i.opcode s (checkGroup i.grp <| check (i.paramsOk s.cfg = true) .badParam <|
      checkOperands s.cfg (addressOperands s.cfg i) k)) : ChecksFirst i s o := by
  have hglv : (s.cfg.glvEnabled || !i.isGlv) = true := by simp [hi]
  exact ⟨k, by rw [h, staticChecks, check_pos hglv]⟩

/-- A GLV command asks again whether the instance has GLV (rule R64), and has no small parameter. -/
theorem checksFirst_of_glv {i : Instr} {s : State} {o : Host.Outcome State Fault Refusal}
    {k : Except Cause State} (hi : i.isGlv = true) (hparams : i.paramsOk s.cfg = true)
    (h : o = runCommand i.opcode s (checkGlv s.cfg <| checkGroup i.grp <|
      checkOperands s.cfg (addressOperands s.cfg i) k)) : ChecksFirst i s o :=
  ⟨k, by
    simp only [h, staticChecks, checkGlv, hi, check_pos hparams, Bool.not_true, Bool.or_false]⟩

/-- Two checks of one cause, one after the other, are one check of both. -/
theorem check_check {α : Type} {a b : Bool} {c : Cause} {k : Except Cause α} :
    check (a = true) c (check (b = true) c k) = check ((a && b) = true) c k := by
  cases a <;> rfl

/-- `SCHED` has two small parameters, checked one after the other. -/
theorem execSched_checksFirst (grp : Byte) (dstE dstC ks n c bits : Word) (s : State) :
    ChecksFirst (.sched grp dstE dstC ks n c bits) s (execSched grp dstE dstC ks n c bits s) := by
  simp only [execSched, checkWidth, checkBits, check_check]
  exact checksFirst_of_not_glv rfl rfl

/-- Every command makes its static checks first.  `CHAIN`'s `ss` stands in its place with no objects,
where only its alignment can fail (log entry 18). -/
theorem exec_checksFirst (i : Instr) (s : State) : ChecksFirst i s (exec i s) := by
  cases i with
  | glvsplit | glvexp => exact checksFirst_of_glv rfl rfl rfl
  | sched => exact execSched_checksFirst ..
  | _ => exact checksFirst_of_not_glv rfl rfl

/-- A command whose static checks fail ends in the fault entry with their cause. -/
theorem faults_of_staticChecks {i : Instr} {s : State} {c : Cause}
    (h : ∀ k : Except Cause State, staticChecks s.cfg i k = .error c) : Faults i s c := by
  obtain ⟨k, hk⟩ := exec_checksFirst i s
  rw [Faults, hk, h, runCommand]

/-- Settles O16: the chain every command begins with, and its first failure. -/
theorem staticChecksInOrder : Obligations.StaticChecksInOrder := by
  intro i s hglv
  exact ⟨fun hgrp => faults_of_staticChecks (staticChecks_unknownGroup hglv hgrp),
    fun hgrp hparams => faults_of_staticChecks (staticChecks_badParam hglv hgrp hparams),
    fun hgrp hparams _ haddr =>
      faults_of_staticChecks (staticChecks_addressFault hglv hgrp hparams haddr)⟩

end Sys2Proof.Machine
end

section
/-! PROOFS. Decode and encode are inverse to each other (`30_encoding.md`). A descriptor and its 28 bytes spell
each other; the rows of the opcode map agree with the table of operand counts, row by row; from these two facts
comes all that decoding can do. -/

namespace Sys2Proof

/-! ### Descriptors and their bytes (rule R60) -/

/-- A longer byte string is a shorter one and the bytes of the quotient. -/
theorem leBytes_add (m n v : Nat) :
    leBytes (m + n) v = leBytes m v ++ leBytes n (v / 256 ^ m) := by
  induction m generalizing v with
  | zero => simp [leBytes]
  | succ m ih =>
    rw [Nat.succ_add, leBytes, leBytes, ih, Nat.div_div_eq_div_mul, pow_succ', List.cons_append]

/-- What lies beyond the length of a byte string does not enter it. -/
theorem leBytes_mod (n v : Nat) : leBytes n (v % 256 ^ n) = leBytes n v := by
  have h := leBytes_leValue (leBytes n v)
  rwa [leBytes_length, leValue_leBytes] at h

theorem leValue_append (as bs : List Byte) :
    leValue (as ++ bs) = leValue as + 256 ^ as.length * leValue bs := by
  induction as with
  | nil => simp [leValue]
  | cons a as ih =>
    rw [List.cons_append, leValue, leValue, ih, List.length_cons, pow_succ']
    ring

/-- The four bytes of a word made from a number are the number's first four. -/
theorem leBytes_word_ofNat (v : Nat) : leBytes 4 (BitVec.ofNat 32 v).toNat = leBytes 4 v :=
  leBytes_mod 4 v

theorem leValue_word (w : Word) : leValue (leBytes 4 w.toNat) = w.toNat :=
  leValue_leBytes_of_lt w.isLt

@[simp] theorem descriptorBytes_length (d : Descriptor) : (descriptorBytes d).length = 28 := by
  simp [descriptorBytes]

/-- The bytes of the descriptor of a number are the number's own. -/
theorem descriptorBytes_descriptorOfNat (v : Nat) :
    descriptorBytes (descriptorOfNat v) = leBytes 28 v := by
  have word (n u : Nat) : leBytes (4 + n) u = leBytes 4 u ++ leBytes n (u / 2 ^ 32) :=
    leBytes_add 4 n u
  rw [word 24, word 20, word 16, word 12, word 8, word 4]
  simp only [descriptorBytes, descriptorOfNat, List.flatMap_cons, List.flatMap_nil,
    List.append_nil, leBytes_word_ofNat, Nat.div_div_eq_div_mul, ← pow_add, Nat.reduceAdd]

/-- The number a descriptor's bytes stand for, word by word. -/
theorem leValue_descriptorBytes (d : Descriptor) :
    leValue (descriptorBytes d) = d.w0.toNat + 2 ^ 32 * (d.a0.toNat + 2 ^ 32 * (d.a1.toNat +
      2 ^ 32 * (d.a2.toNat + 2 ^ 32 * (d.a3.toNat + 2 ^ 32 *
        (d.a4.toNat + 2 ^ 32 * d.a5.toNat))))) := by
  simp [descriptorBytes, leValue_append, leValue_word]

/-- The descriptor of the number its bytes stand for is the descriptor itself. -/
theorem descriptorOfNat_leValue_descriptorBytes (d : Descriptor) :
    descriptorOfNat (leValue (descriptorBytes d)) = d := by
  have low (w : Word) (v : Nat) : BitVec.ofNat 32 (w.toNat + 2 ^ 32 * v) = w := by
    apply BitVec.eq_of_toNat_eq
    rw [BitVec.toNat_ofNat, Nat.add_mul_mod_self_left, Nat.mod_eq_of_lt w.isLt]
  have high (w : Word) (v : Nat) : (w.toNat + 2 ^ 32 * v) / 2 ^ 32 = v := by
    have := w.isLt
    omega
  have next (k v : Nat) : v / 2 ^ (32 + k) = v / 2 ^ 32 / 2 ^ k := by
    rw [pow_add, Nat.div_div_eq_div_mul]
  rw [leValue_descriptorBytes, descriptorOfNat]
  simp only [next 32, next 64, next 96, next 128, next 160, high, low, BitVec.ofNat_toNat,
    BitVec.setWidth_eq]

/-- The bytes that spell a descriptor are its own 28 bytes. -/
theorem descriptorOfBytes_eq_some {bs : List Byte} {d : Descriptor} :
    descriptorOfBytes bs = some d ↔ descriptorBytes d = bs := by
  constructor
  · intro h
    rw [descriptorOfBytes] at h
    split_ifs at h with hlen
    rw [← Option.some.inj h, descriptorBytes_descriptorOfNat, ← hlen, leBytes_leValue]
  · rintro rfl
    rw [descriptorOfBytes, if_pos (descriptorBytes_length d),
      descriptorOfNat_leValue_descriptorBytes]

/-- A byte string decodes to a command where it is the bytes of a descriptor that does. -/
theorem decodeBytes_eq_ok {glv : Bool} {bs : List Byte} {i : Instr} :
    decodeBytes glv bs = .ok i ↔ ∃ d, descriptorBytes d = bs ∧ decode glv d = .ok i := by
  simp only [← descriptorOfBytes_eq_some, decodeBytes]
  cases descriptorOfBytes bs with
  | none => simp
  | some d =>
    cases hd : decode glv d with
    | ok j => simp [hd]
    | error c => simp [hd]

/-! ### The header word (rule R61) -/

theorem encode_header (i : Instr) : Laws.EncodedHeader.Statement i := by
  cases i <;> exact Laws.headerWord_fields _ _

/-- A first word without reserved bits is made of its opcode and its group selector. -/
theorem headerWord_of_reserved {d : Descriptor} (h : reservedField d = 0) :
    headerWord (opcodeField d) (groupField d) = d.w0 :=
  calc headerWord (opcodeField d) (groupField d)
      = (reservedField d ++ groupField d) ++ opcodeField d := by rw [h]; rfl
    _ = d.w0.extractLsb' 8 24 ++ opcodeField d :=
        congrArg (· ++ opcodeField d) (BitVec.extractLsb'_append_extractLsb'_eq_extractLsb' rfl)
    _ = d.w0 :=
        (BitVec.extractLsb'_append_extractLsb'_eq_extractLsb' rfl).trans BitVec.extractLsb'_eq_self

/-! ### Decoding what was encoded (rules R62, R63) -/

theorem reservedCheck_pos {d : Descriptor} {unused : List Word} (i : Instr)
    (hres : reservedField d = 0) (hunused : unused.all (· == 0) = true) :
    reservedCheck d unused i = .ok i := if_pos ⟨hres, hunused⟩

/-- The row of the opcode map for a command's opcode gives that command back from any first word with its group
selector, as far as the reserved checks let it. -/
theorem lookup_opcodeMap {glv : Bool} {i : Instr} (hglv : (glv || !i.isGlv) = true) {w : Word}
    (hgrp : w.extractLsb' 8 8 = i.grp) :
    ∃ unused, (opcodeMap glv { encode i with w0 := w }).lookup i.opcode =
        some (reservedCheck { encode i with w0 := w } unused i) ∧
      unused.all (· == 0) = true := by
  cases i with
  | glvsplit | glvexp =>
    cases hgrp
    obtain rfl : glv = true := by simpa [Instr.isGlv] using hglv
    exact ⟨_, rfl, rfl⟩
  | _ =>
    cases hgrp
    exact ⟨_, rfl, rfl⟩

/-- A command an instance has is read back from its descriptor. -/
theorem decode_encode {glv : Bool} {i : Instr} (hglv : (glv || !i.isGlv) = true) :
    decode glv (encode i) = .ok i := by
  obtain ⟨hop, hgrp, hres⟩ := encode_header i
  obtain ⟨unused, hrow, hunused⟩ := lookup_opcodeMap hglv hgrp
  rw [decode, hop, hrow, Option.getD_some, reservedCheck_pos i hres hunused]

end Sys2Proof

namespace Sys2Proof.Machine

/-! ### The rows of the opcode map (rules R63, R64) -/

/-- The descriptor with the given opcode, and of `d` the group selector and the first `n` operand words; all else
is 0. -/
def keepOperands (op : Byte) (n : Nat) (d : Descriptor) : Descriptor :=
  ⟨headerWord op (groupField d), if 0 < n then d.a0 else 0, if 1 < n then d.a1 else 0,
    if 2 < n then d.a2 else 0, if 3 < n then d.a3 else 0, if 4 < n then d.a4 else 0,
    if 5 < n then d.a5 else 0⟩

theorem not_reservedBitSet_iff {d : Descriptor} : ¬ReservedBitSet d ↔ reservedField d = 0 ∧
    ((operandWords d).drop ((operandCounts.lookup (opcodeField d)).getD 6)).all (· == 0) = true := by
  simp [ReservedBitSet]

/-- A descriptor whose reserved bits and unused operand words are 0 keeps all it has. -/
theorem keepOperands_eq_self {d : Descriptor} {n : Nat} (hres : reservedField d = 0)
    (hunused : ((operandWords d).drop n).all (· == 0) = true) :
    keepOperands (opcodeField d) n d = d := by
  have kept (k : Nat) (hk : k < 6) :
      (if k < n then (operandWords d)[k]'hk else 0) = (operandWords d)[k]'hk := by
    split_ifs with h
    · rfl
    · have hlen : k - n + n < (operandWords d).length := by
        change _ < 6
        omega
      have hmem : (operandWords d)[k]'hk ∈ (operandWords d).drop n :=
        List.mem_drop_iff_getElem.2 ⟨k - n, hlen, by congr 1; omega⟩
      exact (eq_of_beq (List.all_eq_true.1 hunused _ hmem)).symm
  rw [keepOperands, headerWord_of_reserved hres]
  congr 1
  exacts [kept 0 (by decide), kept 1 (by decide), kept 2 (by decide), kept 3 (by decide),
    kept 4 (by decide), kept 5 (by decide)]

/-- What the row of opcode `op` makes of a descriptor, where its command uses `n` operand words: that command,
past the reserved checks, if the instance has it. -/
def RowDecodes (glv : Bool) (d : Descriptor) (op : Byte) (n : Nat) (r : Except Cause Instr) : Prop :=
  ∃ i, encode i = keepOperands op n d ∧ (i.isGlv = true ↔ op = 0x30#8 ∨ op = 0x31#8) ∧
    r = if (glv || !i.isGlv) = true then reservedCheck d ((operandWords d).drop n) i
      else .error .illegalOpcode

/-- A row of the table of operand counts and the row of the opcode map it stands beside. -/
def RowsAgree (glv : Bool) (d : Descriptor) (count : Byte × Nat)
    (row : Byte × Except Cause Instr) : Prop :=
  count.1 = row.1 ∧ RowDecodes glv d count.1 count.2 row.2

theorem rowsAgree_of_glv {glv : Bool} {d : Descriptor} {op : Byte} {n : Nat} {i : Instr}
    (hop : op = 0x30#8 ∨ op = 0x31#8) (hi : i.isGlv = true) (henc : encode i = keepOperands op n d) :
    RowsAgree glv d (op, n) (op, if glv = true then reservedCheck d ((operandWords d).drop n) i
      else .error .illegalOpcode) :=
  ⟨rfl, i, henc, iff_of_true hi hop, by simp [hi]⟩

theorem rowsAgree_of_not_glv {glv : Bool} {d : Descriptor} {op : Byte} {n : Nat} {i : Instr}
    (hop : ¬(op = 0x30#8 ∨ op = 0x31#8)) (hi : i.isGlv = false)
    (henc : encode i = keepOperands op n d) :
    RowsAgree glv d (op, n) (op, reservedCheck d ((operandWords d).drop n) i) :=
  ⟨rfl, i, henc, iff_of_false (by simp [hi]) hop, by simp [hi]⟩

/-- The opcode map lists the opcodes of the table of operand counts, in its order: 22 of field and curve
commands, the two of GLV, seven of stage commands and multi-exponentiations. -/
theorem opcodeMap_agrees (glv : Bool) (d : Descriptor) :
    List.Forall₂ (RowsAgree glv d) operandCounts (opcodeMap glv d) := by
  iterate 22 refine .cons (rowsAgree_of_not_glv (by decide) rfl rfl) ?_
  iterate 2 refine .cons (rowsAgree_of_glv (by decide) rfl rfl) ?_
  iterate 7 refine .cons (rowsAgree_of_not_glv (by decide) rfl rfl) ?_
  exact .nil

/-- Tables whose rows agree list the same opcodes, and the rows found under one opcode agree. -/
theorem lookup_of_agree {glv : Bool} {d : Descriptor} {counts : List (Byte × Nat)}
    {rows : List (Byte × Except Cause Instr)} (h : List.Forall₂ (RowsAgree glv d) counts rows)
    (op : Byte) :
    (counts.lookup op = none ∧ rows.lookup op = none) ∨
      ∃ n r, counts.lookup op = some n ∧ rows.lookup op = some r ∧ RowDecodes glv d op n r := by
  induction h with
  | nil => exact .inl ⟨rfl, rfl⟩
  | @cons count row _ _ hrow _ ih =>
    obtain ⟨k, n⟩ := count
    obtain ⟨k', r⟩ := row
    obtain ⟨hk, hr⟩ : k = k' ∧ RowDecodes glv d k n r := hrow
    subst hk
    by_cases hop : op = k
    · subst hop
      exact .inr ⟨n, r, by simp, by simp, hr⟩
    · have hne : (op == k) = false := by simpa using hop
      simpa [List.lookup_cons, hne] using ih

/-! ### All that decoding can do (rules R64, R69) -/

/-- A descriptor is of an illegal opcode, or has a reserved bit set, or is the encoding of a command that the
instance has, and decoding says which. -/
theorem decode_cases (glv : Bool) (d : Descriptor) :
    (IllegalOpcode glv (opcodeField d) ∧ decode glv d = .error .illegalOpcode) ∨
      (¬IllegalOpcode glv (opcodeField d) ∧ ReservedBitSet d ∧
        decode glv d = .error .reservedNonzero) ∨
      (¬IllegalOpcode glv (opcodeField d) ∧ ¬ReservedBitSet d ∧
        ∃ i, encode i = d ∧ (glv || !i.isGlv) = true ∧ decode glv d = .ok i) := by
  rw [decode]
  obtain ⟨hcount, hrow⟩ | ⟨n, r, hcount, hrow, i, henc, hglvOp, rfl⟩ :=
    lookup_of_agree (opcodeMap_agrees glv d) (opcodeField d)
  · exact .inl ⟨.inl hcount, by rw [hrow]; rfl⟩
  · rw [hrow, Option.getD_some]
    by_cases hi : (glv || !i.isGlv) = true
    · have hlegal : ¬IllegalOpcode glv (opcodeField d) := by
        rw [IllegalOpcode, ← hglvOp, hcount]
        simpa [or_iff_not_imp_left] using hi
      rw [if_pos hi]
      by_cases hset : ReservedBitSet d
      · have hfails : ¬(reservedField d = 0 ∧ ((operandWords d).drop n).all (· == 0) = true) :=
          fun hzero => not_reservedBitSet_iff.2 (by rwa [hcount, Option.getD_some]) hset
        exact .inr (.inl ⟨hlegal, hset, if_neg hfails⟩)
      · obtain ⟨hres, hunused⟩ := not_reservedBitSet_iff.1 hset
        rw [hcount, Option.getD_some] at hunused
        exact .inr (.inr ⟨hlegal, hset, i, henc.trans (keepOperands_eq_self hres hunused), hi,
          reservedCheck_pos i hres hunused⟩)
    · obtain ⟨hoff, hglv⟩ : glv = false ∧ i.isGlv = true := by simpa using hi
      exact .inl ⟨.inr ⟨hoff, hglvOp.1 hglv⟩, if_neg hi⟩

/-- What a descriptor decodes to is what it encodes. -/
theorem decode_eq_ok {glv : Bool} {d : Descriptor} {i : Instr} :
    decode glv d = .ok i ↔ encode i = d ∧ (glv || !i.isGlv) = true := by
  constructor
  · intro h
    obtain ⟨_, hd⟩ | ⟨_, _, hd⟩ | ⟨_, _, j, henc, hj, hd⟩ := decode_cases glv d
    · rw [hd] at h
      cases h
    · rw [hd] at h
      cases h
    · obtain rfl : j = i := Except.ok.inj (hd.symm.trans h)
      exact ⟨henc, hj⟩
  · rintro ⟨rfl, hi⟩
    exact decode_encode hi

/-! ### Issuing a descriptor -/

/-- An idle block decodes the descriptor the host issues. -/
theorem step_issue {s : State} {d : Descriptor} {rest : List HostMove}
    (hs : s.host = .issue d :: rest) (hb : busy s = false) :
    step s = issue d (hostAdvanced s rest) := by
  have hb' : busy (hostAdvanced s rest) = false := hb
  rw [step_of_host hs, makeMove, if_neg (by simp [hb'])]

theorem issue_of_decode_error {d : Descriptor} {s : State} {c : Cause} (hf : faulted s = false)
    (hd : decodeIssued s d = .error c) : issue d s = .next (raiseFault s c (opcodeField d)) := by
  simp [issue, hf, hd]

/-! ### The statements -/

/-- Settles O1: a command's row of the opcode map gives it back, and its bytes spell its descriptor. -/
theorem decodeOfEncode : Obligations.DecodeOfEncode := by
  intro glv i hglv
  exact ⟨decode_encode hglv, decodeBytes_eq_ok.2 ⟨encode i, rfl, decode_encode hglv⟩⟩

/-- Settles O2: of the things decoding can do, giving a command leaves one descriptor. -/
theorem encodeOfDecode : Obligations.EncodeOfDecode := by
  intro glv i
  refine ⟨fun d hd => decode_eq_ok.1 hd, fun bs hbs => ?_⟩
  obtain ⟨d, rfl, hd⟩ := decodeBytes_eq_ok.1 hbs
  exact congrArg descriptorBytes (decode_eq_ok.1 hd).1

/-- Settles O3: what the step does in each of the three cases of decoding. -/
theorem illegalEncodingsFault : Obligations.IllegalEncodingsFault := by
  refine ⟨rfl, fun s d rest hs hb hf => ?_⟩
  have hf' : faulted (hostAdvanced s rest) = false := hf
  rw [step_issue hs hb]
  obtain ⟨hill, hd⟩ | ⟨hlegal, hset, hd⟩ | ⟨hlegal, hset, i, henc, _, hd⟩ :=
    decode_cases s.cfg.glvEnabled d
  · exact ⟨fun _ => issue_of_decode_error hf' hd, fun h => absurd hill h, fun h => absurd hill h⟩
  · exact ⟨fun h => absurd h hlegal, fun _ _ => issue_of_decode_error hf' hd,
      fun _ h => absurd hset h⟩
  · exact ⟨fun h => absurd h hlegal, fun _ h => absurd h hset,
      fun _ _ => ⟨i, henc, issue_of_decode hf' hd⟩⟩

/-- Settles O4: each word is the encoding of its command. -/
theorem sampleWordsDecode : Obligations.SampleWordsDecode :=
  ⟨decode_encode (i := .fadd 0 0x18#32 0x08#32 0x10#32) rfl,
    decode_encode (i := .pmul 0 0x90#32 0x20#32 0x88#32) rfl,
    decode_encode (i := .glvexp 0 0x80#32 0x100#32 0#32 0x30#32 3#32) rfl,
    decode_encode (i := .chain 0 0x1E0#32 0x1A0#32 0x1D0#32 0#32 6#32 2#32) rfl,
    decode_encode (i := .mexp 0 0x280#32 0#32 0x60#32 0x60#32 0x30#32 6#32) rfl, rfl⟩

end Sys2Proof.Machine
end

section
/-! PROOFS. What an admitted command does after its static checks, and the contracts of the field functions
as congruences modulo `M` (`40_field.md`); the field commands write what these functions compute. -/

namespace Sys2Proof.Machine

/-! ### Admitted commands -/

theorem checkOperands_pos {α : Type} {cfg : Config} {ps : List AddressOperand}
    (h : firstAddressFault cfg ps = none) (k : Except Cause α) : checkOperands cfg ps k = k := by
  induction ps with
  | nil => rfl
  | cons p rest ih =>
    rw [firstAddressFault] at h
    split_ifs at h with halign hrange
    have hin : InRange cfg p.addr p.count p.size := by
      simpa [InRange, or_iff_not_imp_left] using hrange
    rw [checkOperands, checkArray, check_pos (not_not.1 halign), check_pos hin, ih h]

/-- The command makes its static checks, then asks that the numbers `vs` it reads are canonical (rule R46),
then does `k`. -/
def RunsOn (i : Instr) (s : State) (vs : List Nat) (k : Except Cause State) : Prop :=
  exec i s = runCommand i.opcode s (checkGroup i.grp <| check (i.paramsOk s.cfg = true) .badParam <|
    checkOperands s.cfg (addressOperands s.cfg i) <| checkCanonical s.cfg vs k)

/-- An admitted command goes on to the canonical check. -/
theorem RunsOn.exec_eq {i : Instr} {s : State} {vs : List Nat} {k : Except Cause State}
    (h : RunsOn i s vs k) (hadm : Admitted s.cfg i) :
    exec i s = runCommand i.opcode s (checkCanonical s.cfg vs k) := by
  obtain ⟨hwf, haddr⟩ := hadm
  simp only [Instr.wellFormed, Bool.and_eq_true] at hwf
  obtain ⟨⟨hgrp, -⟩, hparams⟩ := hwf
  rw [h, checkGroup, check_pos hgrp, check_pos hparams, checkOperands_pos haddr]

theorem RunsOn.traps {i : Instr} {s : State} {vs : List Nat} {k : Except Cause State}
    (h : RunsOn i s vs k) (hadm : Admitted s.cfg i) (hvs : ¬Canonical s.cfg vs) :
    Faults i s .nonCanonical := by
  rw [Faults, h.exec_eq hadm, checkCanonical, check_neg hvs, runCommand]

theorem RunsOn.exec_of_canonical {i : Instr} {s : State} {vs : List Nat} {k : Except Cause State}
    (h : RunsOn i s vs k) (hadm : Admitted s.cfg i) (hvs : Canonical s.cfg vs) :
    exec i s = runCommand i.opcode s k := by
  rw [h.exec_eq hadm, checkCanonical, check_pos hvs]

theorem RunsOn.completes {i : Instr} {s t : State} {vs : List Nat}
    (h : RunsOn i s vs (.ok t)) (hadm : Admitted s.cfg i) (hvs : Canonical s.cfg vs) :
    exec i s = .next t := h.exec_of_canonical hadm hvs

/-! ### What each field command does once its checks are past -/

theorem fadd_runsOn (grp : Byte) (dst x y : Word) (s : State) :
    RunsOn (.fadd grp dst x y) s [fieldAt s x.toNat, fieldAt s y.toNat]
      (.ok (storeField s dst (fadd s.cfg (fieldAt s x.toNat) (fieldAt s y.toNat)))) := rfl

theorem fsub_runsOn (grp : Byte) (dst x y : Word) (s : State) :
    RunsOn (.fsub grp dst x y) s [fieldAt s x.toNat, fieldAt s y.toNat]
      (.ok (storeField s dst (fsub s.cfg (fieldAt s x.toNat) (fieldAt s y.toNat)))) := rfl

theorem fneg_runsOn (grp : Byte) (dst x : Word) (s : State) :
    RunsOn (.fneg grp dst x) s [fieldAt s x.toNat]
      (.ok (storeField s dst (fneg s.cfg (fieldAt s x.toNat)))) := rfl

theorem fmul_runsOn (grp : Byte) (dst x y : Word) (s : State) :
    RunsOn (.fmul grp dst x y) s [fieldAt s x.toNat, fieldAt s y.toNat]
      (.ok (storeField s dst (fmul s.cfg (fieldAt s x.toNat) (fieldAt s y.toNat)))) := rfl

theorem fsqr_runsOn (grp : Byte) (dst x : Word) (s : State) :
    RunsOn (.fsqr grp dst x) s [fieldAt s x.toNat]
      (.ok (storeField s dst (fsqr s.cfg (fieldAt s x.toNat)))) := rfl

theorem ftom_runsOn (grp : Byte) (dst x : Word) (s : State) :
    RunsOn (.ftom grp dst x) s [fieldAt s x.toNat]
      (.ok (storeField s dst (toMontgomery s.cfg (fieldAt s x.toNat)))) := rfl

theorem ffromm_runsOn (grp : Byte) (dst x : Word) (s : State) :
    RunsOn (.ffromm grp dst x) s [fieldAt s x.toNat]
      (.ok (storeField s dst (fromMontgomery s.cfg (fieldAt s x.toNat)))) := rfl

theorem fissq_runsOn (grp : Byte) (x : Word) (s : State) :
    RunsOn (.fissq grp x) s [fieldAt s x.toNat]
      (.ok (setRes s (boolRes (eulerOne s.cfg (val s.cfg (fieldAt s x.toNat)))))) := rfl

theorem fbinv_runsOn (grp : Byte) (dst src n : Word) (s : State) :
    RunsOn (.fbinv grp dst src n) s (fieldsAt s src n.toNat)
      (.ok (storeFields s dst ((fieldsAt s src n.toNat).map (finvOrZero s.cfg)))) := rfl

/-- A unary command that computes `f` of its operand writes what `f` gives, or raises what `f` raises. -/
theorem fieldUnary_runsOn {i : Instr} {s : State} {f : Nat → Except Cause Nat} {grp : Byte}
    {dst x : Word} (hexec : exec i s = fieldUnary i.opcode f grp dst x s) (hgrp : i.grp = grp)
    (hparams : i.paramsOk s.cfg = true)
    (haddr : addressOperands s.cfg i = [⟨8, dst, 1, n8 s.cfg⟩, ⟨8, x, 1, n8 s.cfg⟩]) :
    RunsOn i s [fieldAt s x.toNat] ((f (fieldAt s x.toNat)).map (storeField s dst)) := by
  rw [RunsOn, hexec, haddr, hgrp, check_pos hparams, fieldUnary]
  cases f (fieldAt s x.toNat) <;> rfl

theorem finv_runsOn (grp : Byte) (dst x : Word) (s : State) :
    RunsOn (.finv grp dst x) s [fieldAt s x.toNat]
      ((check (fieldAt s x.toNat ≠ 0) .inverseOfZero
        (.ok (finv s.cfg (fieldAt s x.toNat)))).map (storeField s dst)) :=
  fieldUnary_runsOn (f := fun v => check (v ≠ 0) .inverseOfZero (.ok (finv s.cfg v))) rfl rfl rfl rfl

theorem fsqrt_runsOn (grp : Byte) (dst x : Word) (s : State) :
    RunsOn (.fsqrt grp dst x) s [fieldAt s x.toNat]
      (Except.map (storeField s dst) (if fieldAt s x.toNat = 0 then .ok 0
        else check (eulerOne s.cfg (val s.cfg (fieldAt s x.toNat)) = true) .sqrtOfNonresidue
          (.ok (fsqrt s.cfg (fieldAt s x.toNat))))) :=
  fieldUnary_runsOn (f := fun v => if v = 0 then .ok 0
    else check (eulerOne s.cfg (val s.cfg v) = true) .sqrtOfNonresidue (.ok (fsqrt s.cfg v)))
    rfl rfl rfl rfl

theorem canonical_singleton {c : Config} {x : Nat} : Canonical c [x] ↔ x < c.modulus :=
  List.forall_mem_singleton

theorem canonical_pair {c : Config} {x y : Nat} :
    Canonical c [x, y] ↔ x < c.modulus ∧ y < c.modulus := by
  rw [Canonical, List.forall_mem_cons, List.forall_mem_singleton]

/-! ### Contracts as congruences modulo `M` -/

theorem fsub_eq_mod {c : Config} {x y : Nat} (hx : x < c.modulus) (hy : y < c.modulus) :
    fsub c x y = (x + c.modulus - y) % c.modulus := by
  unfold fsub
  split
  · rw [show x + c.modulus - y = x - y + c.modulus by omega, Nat.add_mod_right,
      Nat.mod_eq_of_lt (by omega)]
  · rw [Nat.mod_eq_of_lt (by omega)]

theorem fneg_eq_mod {c : Config} {x : Nat} (hx : x < c.modulus) :
    fneg c x = (c.modulus - x) % c.modulus := by
  unfold fneg
  split
  · rename_i h0
    simp [h0]
  · rw [Nat.mod_eq_of_lt (by omega)]

/-- The Montgomery product of rule R85, by the congruence that fixes it. -/
theorem fmul_mul_montR {c : Config} (h : FieldValid c) (x y : Nat) :
    fmul c x y * montR c % c.modulus = x * y % c.modulus := by
  rw [← ZMod.natCast_eq_natCast_iff', fmul, Nat.cast_mul, ZMod.natCast_mod, Nat.cast_mul, mul_assoc,
    mul_comm (montRInv c : ZMod c.modulus), montR_mul_inv h, mul_one]

theorem fsqr_mul_montR {c : Config} (h : FieldValid c) (x : Nat) :
    fsqr c x * montR c % c.modulus = x * x % c.modulus := fmul_mul_montR h x x

theorem fromMontgomery_eq_val (c : Config) (x : Nat) : fromMontgomery c x = val c x := by
  rw [fromMontgomery, mul_one, val]

theorem toMontgomery_eq_mont {c : Config} (h : FieldValid c) (v : Nat) :
    toMontgomery c v = mont c v := by
  rw [toMontgomery, mont, ← ZMod.natCast_eq_natCast_iff', montRSquared, Nat.cast_mul, Nat.cast_mul,
    ZMod.natCast_mod, Nat.cast_mul, Nat.cast_mul]
  linear_combination (v * montR c : ZMod c.modulus) * montR_mul_inv h

/-- A canonical residue is the Montgomery form of its value. -/
theorem val_mul_montR {c : Config} (h : FieldValid c) {x : Nat} (hx : x < c.modulus) :
    val c x * montR c % c.modulus = x := by
  have hcast : ((val c x * montR c : Nat) : ZMod c.modulus) = x := by
    rw [Nat.cast_mul]
    exact (residue_eq h x).symm
  rw [(ZMod.natCast_eq_natCast_iff' _ _ _).1 hcast, Nat.mod_eq_of_lt hx]

theorem residueValue_ne_zero {c : Config} (h : FieldValid c) {x : Nat} (hx : x < c.modulus)
    (hx0 : x ≠ 0) : residueValue c x ≠ 0 := fun hv => hx0 ((residueValue_eq_zero h hx).1 hv)

/-- The inverse of rule R90, by the congruence that fixes it. -/
theorem finv_mul_self {c : Config} (h : FieldValid c) {x : Nat} (hx : x < c.modulus) (hx0 : x ≠ 0) :
    finv c x * x % c.modulus = montR c * montR c % c.modulus := by
  have : Fact c.modulus.Prime := ⟨h.1⟩
  have hv := residueValue_ne_zero h hx hx0
  rw [← ZMod.natCast_eq_natCast_iff', Nat.cast_mul, Nat.cast_mul, residue_eq h (finv c x),
    residue_eq h x, residueValue_finv h hv]
  field_simp

theorem finv_ne_zero {c : Config} (h : FieldValid c) {x : Nat} (hx : x < c.modulus) (hx0 : x ≠ 0) :
    finv c x ≠ 0 := by
  have : Fact c.modulus.Prime := ⟨h.1⟩
  have hv := residueValue_ne_zero h hx hx0
  rw [ne_eq, ← residueValue_eq_zero h (finv_lt (modulus_pos h) x), residueValue_finv h hv]
  exact inv_ne_zero hv

@[simp] theorem finvOrZero_zero (c : Config) : finvOrZero c 0 = 0 := if_pos rfl

theorem finvOrZero_of_ne_zero {c : Config} {x : Nat} (hx : x ≠ 0) : finvOrZero c x = finv c x :=
  if_neg hx

theorem eulerOne_iff {c : Config} (h : FieldValid c) (v : Nat) :
    eulerOne c v = true ↔ v ^ ((c.modulus - 1) / 2) % c.modulus = 1 := by
  rw [eulerOne, powMod_eq _ _ _ (modulus_pos h), decide_eq_true_iff]

/-! ### The statements -/

/-- Settles O21: each conditional form is the operation modulo `M`. -/
theorem addSubNegResults : Obligations.AddSubNegResults := by
  intro s grp dst x y
  refine ⟨fun hadm => ⟨fun hc => ?add, (fadd_runsOn grp dst x y s).traps hadm⟩,
    fun hadm => ⟨fun hc => ?sub, (fsub_runsOn grp dst x y s).traps hadm⟩,
    fun hadm => ⟨fun hc => ?neg, (fneg_runsOn grp dst x s).traps hadm⟩⟩
  case add =>
    obtain ⟨hx, hy⟩ := canonical_pair.1 hc
    rw [(fadd_runsOn grp dst x y s).completes hadm hc, fadd_eq_mod hx hy]
    rfl
  case sub =>
    obtain ⟨hx, hy⟩ := canonical_pair.1 hc
    rw [(fsub_runsOn grp dst x y s).completes hadm hc, fsub_eq_mod hx hy]
    rfl
  case neg =>
    rw [(fneg_runsOn grp dst x s).completes hadm hc, fneg_eq_mod (canonical_singleton.1 hc)]
    rfl

/-- Settles O22: the residue is the Montgomery product, which its congruence fixes. -/
theorem multiplyResults : Obligations.MultiplyResults := by
  intro s grp dst x y h
  have hpos := modulus_pos h
  refine ⟨fun hadm => ⟨fun hc => ?mul, (fmul_runsOn grp dst x y s).traps hadm⟩,
    fun hadm => ⟨fun hc => ?sqr, (fsqr_runsOn grp dst x s).traps hadm⟩⟩
  case mul =>
    exact ⟨_, fmul_lt hpos _ _, fmul_mul_montR h _ _, (fmul_runsOn grp dst x y s).completes hadm hc⟩
  case sqr =>
    exact ⟨_, fsqr_lt hpos _, fsqr_mul_montR h _, (fsqr_runsOn grp dst x s).completes hadm hc⟩

/-- Settles O23: to Montgomery form is `mont`, from Montgomery form is `val`. -/
theorem conversionResults : Obligations.ConversionResults := by
  intro s grp dst x h
  refine ⟨fun hadm => ⟨fun hc => ?toForm, (ftom_runsOn grp dst x s).traps hadm⟩,
    fun hadm => ⟨fun hc => ?fromForm, (ffromm_runsOn grp dst x s).traps hadm⟩⟩
  case toForm =>
    rw [(ftom_runsOn grp dst x s).completes hadm hc, toMontgomery_eq_mont h]
    rfl
  case fromForm =>
    refine ⟨_, val_lt (modulus_pos h) _, val_mul_montR h (canonical_singleton.1 hc), ?_⟩
    rw [(ffromm_runsOn grp dst x s).completes hadm hc, fromMontgomery_eq_val]
    rfl

/-- Settles O24: the check on zero, then the congruence of the inverse. -/
theorem inverseResult : Obligations.InverseResult := by
  intro s grp dst x h hadm
  have hruns := finv_runsOn grp dst x s
  refine ⟨hruns.traps hadm, fun h0 => ?zero, fun hc h0 => ?nonzero⟩
  case zero =>
    have hc : Canonical s.cfg [fieldAt s x.toNat] :=
      canonical_singleton.2 (h0 ▸ modulus_pos h)
    rw [Faults, hruns.exec_of_canonical hadm hc, check_neg (not_not.2 h0)]
    rfl
  case nonzero =>
    have hx := canonical_singleton.1 hc
    refine ⟨finv s.cfg (fieldAt s x.toNat), Nat.pos_of_ne_zero (finv_ne_zero h hx h0),
      finv_lt (modulus_pos h) _, finv_mul_self h hx h0, ?_⟩
    rw [hruns.exec_of_canonical hadm hc, check_pos h0]
    rfl

/-- Settles O25: Euler's power, taken of the operand's value. -/
theorem isSquareResult : Obligations.IsSquareResult := by
  intro s grp x h hadm
  have hruns := fissq_runsOn grp x s
  refine ⟨hruns.traps hadm, fun hc => ⟨val s.cfg (fieldAt s x.toNat), val_lt (modulus_pos h) _,
    val_mul_montR h (canonical_singleton.1 hc), ?_⟩⟩
  simp only [hruns.completes hadm hc, boolRes, eulerOne_iff h]

/-- What rule R94 asks of one element of a batch inverse and its output. -/
theorem finvOrZero_spec {c : Config} (h : FieldValid c) {x : Nat} (hx : x < c.modulus) :
    (x = 0 → finvOrZero c x = 0) ∧ (x ≠ 0 → finvOrZero c x < c.modulus ∧
      finvOrZero c x * x % c.modulus = montR c * montR c % c.modulus) := by
  refine ⟨fun h0 => if_pos h0, fun h0 => ?_⟩
  rw [finvOrZero_of_ne_zero h0]
  exact ⟨finv_lt (modulus_pos h) x, finv_mul_self h hx h0⟩

/-- Settles O27, element by element. -/
theorem batchInverseResult : Obligations.BatchInverseResult := by
  intro s grp dst src n h hadm
  have hruns := fbinv_runsOn grp dst src n s
  refine ⟨hruns.traps hadm, fun hc => ⟨_, ?_, hruns.completes hadm hc⟩⟩
  rw [List.forall₂_map_right_iff, List.forall₂_same]
  exact fun x hx => finvOrZero_spec h (hc x hx)

end Sys2Proof.Machine
end

section
/-! PROOFS. Square roots modulo `M` (rules R92, R93, R98): Euler's criterion on values, the one root in the
lower half, and the Tonelli–Shanks loop, whose invariant ties `m`, `c`, `t` and `r` to the value; then the laws
of rule R97. -/

namespace Sys2Proof.Machine

/-! ### Values as elements of the field -/

theorem natCast_eq_one_iff {md : Nat} (hmd : 1 < md) (v : Nat) : (v : ZMod md) = 1 ↔ v % md = 1 := by
  rw [← Nat.cast_one, ZMod.natCast_eq_natCast_iff', Nat.mod_eq_of_lt hmd]

/-- A root of a value, as an element of the field. -/
theorem mul_self_mod_eq_iff {md r v : Nat} (hv : v < md) :
    r * r % md = v ↔ (r : ZMod md) ^ 2 = v := by
  rw [← Nat.cast_pow, ZMod.natCast_eq_natCast_iff', Nat.mod_eq_of_lt hv, pow_two]

/-- Euler's power of a value is 1 exactly where that of the field element is. -/
theorem euler_cast_iff {c : Config} (h : FieldValid c) (v : Nat) :
    v ^ ((c.modulus - 1) / 2) % c.modulus = 1 ↔
      (v : ZMod c.modulus) ^ ((c.modulus - 1) / 2) = 1 := by
  rw [← Nat.cast_pow, natCast_eq_one_iff h.1.one_lt]

theorem natCast_ne_zero_of_euler {c : Config} (h : FieldValid c) {v : Nat}
    (hv : v ^ ((c.modulus - 1) / 2) % c.modulus = 1) : (v : ZMod c.modulus) ≠ 0 := by
  have : Fact c.modulus.Prime := ⟨h.1⟩
  have h2 := two_lt_modulus h
  rw [euler_cast_iff h] at hv
  intro h0
  rw [h0, zero_pow (by omega)] at hv
  exact zero_ne_one hv

/-- Euler's criterion: the power is 1 exactly for the squares among the non-zero values. -/
theorem euler_iff_isSquare {c : Config} (h : FieldValid c) {v : Nat} (hv : (v : ZMod c.modulus) ≠ 0) :
    v ^ ((c.modulus - 1) / 2) % c.modulus = 1 ↔ IsSquare (v : ZMod c.modulus) := by
  have : Fact c.modulus.Prime := ⟨h.1⟩
  have hodd := h.2
  rw [euler_cast_iff h, ZMod.euler_criterion c.modulus hv,
    show c.modulus / 2 = (c.modulus - 1) / 2 by omega]

/-! ### The root in the lower half (rules R92, R98) -/

theorem isCanonicalRoot_iff {c : Config} {v r : Nat} : isCanonicalRoot c v r = true ↔
    1 ≤ r ∧ r ≤ (c.modulus - 1) / 2 ∧ r * r % c.modulus = v := by
  simp [isCanonicalRoot, and_assoc]

/-- `M − r` has the square of `r`. -/
theorem modulus_sub_mul_self {c : Config} {r : Nat} (hr : r ≤ c.modulus) :
    (c.modulus - r) * (c.modulus - r) % c.modulus = r * r % c.modulus := by
  rw [← ZMod.natCast_eq_natCast_iff', Nat.cast_mul, Nat.cast_mul, Nat.cast_sub hr, ZMod.natCast_self]
  ring

/-- Of a root and its negative, `canonicalRoot` takes the one rule R92 names. -/
theorem canonicalRoot_spec {c : Config} (h : FieldValid c) {v r : Nat} (hr0 : r ≠ 0)
    (hr : r < c.modulus) (hv : r * r % c.modulus = v) : isCanonicalRoot c v (canonicalRoot c r) = true := by
  have hodd := h.2
  rw [isCanonicalRoot_iff, canonicalRoot]
  split
  · exact ⟨by omega, by omega, (modulus_sub_mul_self hr.le).trans hv⟩
  · exact ⟨by omega, by omega, hv⟩

theorem canonicalRoot_unique {c : Config} (h : FieldValid c) {v r r' : Nat}
    (hr : isCanonicalRoot c v r = true) (hr' : isCanonicalRoot c v r' = true) : r' = r := by
  have : Fact c.modulus.Prime := ⟨h.1⟩
  obtain ⟨hr1, hr2, hrv⟩ := isCanonicalRoot_iff.1 hr
  obtain ⟨hr1', hr2', hrv'⟩ := isCanonicalRoot_iff.1 hr'
  have hsq : (r' : ZMod c.modulus) * r' = r * r := by
    rw [← Nat.cast_mul, ← Nat.cast_mul, ZMod.natCast_eq_natCast_iff', hrv', hrv]
  rcases mul_self_eq_mul_self_iff.1 hsq with heq | hneg
  · rw [ZMod.natCast_eq_natCast_iff', Nat.mod_eq_of_lt (by omega), Nat.mod_eq_of_lt (by omega)] at heq
    exact heq
  · have hsum : ((r' + r : Nat) : ZMod c.modulus) = 0 := by
      rw [Nat.cast_add, hneg, neg_add_cancel]
    have hle := Nat.le_of_dvd (by omega) ((ZMod.natCast_eq_zero_iff _ _).1 hsum)
    omega

theorem exists_canonicalRoot {c : Config} (h : FieldValid c) {v : Nat} (hv : v < c.modulus)
    (heuler : v ^ ((c.modulus - 1) / 2) % c.modulus = 1) : ∃ r, isCanonicalRoot c v r = true := by
  have : Fact c.modulus.Prime := ⟨h.1⟩
  have hv0 := natCast_ne_zero_of_euler h heuler
  obtain ⟨y, hy⟩ := (euler_iff_isSquare h hv0).1 heuler
  have hy0 : y ≠ 0 := by
    rintro rfl
    exact hv0 (by rw [hy, mul_zero])
  refine ⟨_, canonicalRoot_spec h ((ZMod.val_ne_zero y).2 hy0) (ZMod.val_lt y) ?_⟩
  rw [mul_self_mod_eq_iff hv, ZMod.natCast_zmod_val, hy, pow_two]

/-- `sqrtValue` finds the root of rule R92 of every non-zero square, if not by Tonelli–Shanks, by search. -/
theorem sqrtValue_isCanonicalRoot {c : Config} (h : FieldValid c) {v : Nat} (hv : v < c.modulus)
    (heuler : v ^ ((c.modulus - 1) / 2) % c.modulus = 1) :
    isCanonicalRoot c v (sqrtValue c v) = true := by
  unfold sqrtValue
  split
  · assumption
  · rcases searchRoot_spec c.modulus v ((c.modulus - 1) / 2) with ⟨-, hnone⟩ | hroot
    · obtain ⟨r, hr⟩ := exists_canonicalRoot h hv heuler
      obtain ⟨hr1, hr2, hrv⟩ := isCanonicalRoot_iff.1 hr
      exact absurd hrv (hnone r hr1 hr2)
    · exact isCanonicalRoot_iff.2 hroot

/-! ### Tonelli–Shanks (rule R93) -/

theorem splitPowerOfTwo_spec {n v : Nat} (hv : 0 < v) (hn : v < 2 ^ n) :
    v = 2 ^ (splitPowerOfTwo n v).1 * (splitPowerOfTwo n v).2 ∧ (splitPowerOfTwo n v).2 % 2 = 1 := by
  induction n generalizing v with
  | zero => omega
  | succ n ih =>
    rw [pow_succ] at hn
    simp only [splitPowerOfTwo]
    split
    · obtain ⟨hprod, hodd⟩ := ih (v := v / 2) (by omega) (by omega)
      refine ⟨?_, hodd⟩
      rw [pow_succ', mul_assoc, ← hprod]
      omega
    · rw [pow_zero, one_mul]
      exact ⟨rfl, by omega⟩

theorem lt_two_pow_bitlength (v : Nat) : v < 2 ^ bitlength v := by
  unfold bitlength
  split
  · rename_i h0
    rw [h0]
    exact Nat.two_pow_pos 0
  · exact Nat.lt_log2_self

/-- `M − 1 = 2^S·T` with `T` odd and `S` at least 1 (rule R10). -/
theorem twoAdicity_spec {c : Config} (h : FieldValid c) :
    c.modulus - 1 = 2 ^ twoAdicity c * oddPart c ∧ oddPart c % 2 = 1 ∧ 1 ≤ twoAdicity c := by
  have h2 := two_lt_modulus h
  have hodd := h.2
  have hbits := lt_two_pow_bitlength c.modulus
  obtain ⟨hprod, hT⟩ : c.modulus - 1 = 2 ^ twoAdicity c * oddPart c ∧ oddPart c % 2 = 1 :=
    splitPowerOfTwo_spec (by omega) (by omega)
  refine ⟨hprod, hT, Nat.one_le_iff_ne_zero.2 fun hS => ?_⟩
  rw [hS, pow_zero, one_mul] at hprod
  omega

/-- Half of `M − 1` is `2^(S−1)·T`. -/
theorem half_eq_oddPart_mul {c : Config} (h : FieldValid c) :
    (c.modulus - 1) / 2 = oddPart c * 2 ^ (twoAdicity c - 1) := by
  obtain ⟨hprod, -, hS⟩ := twoAdicity_spec h
  have hpow : 2 ^ twoAdicity c = 2 * 2 ^ (twoAdicity c - 1) := by
    rw [← pow_succ', Nat.sub_add_cancel hS]
  rw [hprod, hpow, mul_assoc, Nat.mul_div_cancel_left _ (by norm_num), mul_comm]

/-- `leastSquaring` gives the first squaring from `start` on that brings `a` to 1, or stops after `count`. -/
theorem leastSquaring_spec {md : Nat} (hmd : 1 < md) {a : ZMod md} (count start p : Nat)
    (hp : p < md) (hcast : (p : ZMod md) = a ^ 2 ^ start) :
    start ≤ leastSquaring md count start p ∧
      (∀ j, start ≤ j → j < leastSquaring md count start p → a ^ 2 ^ j ≠ 1) ∧
      (a ^ 2 ^ (start + count) = 1 → a ^ 2 ^ leastSquaring md count start p = 1) := by
  induction count generalizing start p with
  | zero => exact ⟨le_refl _, fun j h1 h2 => absurd h2 (not_lt.2 h1), id⟩
  | succ n ih =>
    have hone : p = 1 ↔ a ^ 2 ^ start = 1 := by
      rw [← hcast, natCast_eq_one_iff hmd, Nat.mod_eq_of_lt hp]
    rw [leastSquaring]
    split
    · rename_i hp1
      exact ⟨le_refl _, fun j h1 h2 => absurd h2 (not_lt.2 h1), fun _ => hone.1 hp1⟩
    · rename_i hp1
      obtain ⟨hle, hmin, hend⟩ := ih (start + 1) (p * p % md) (Nat.mod_lt _ (by omega))
        (by rw [ZMod.natCast_mod, Nat.cast_mul, hcast, pow_succ 2, pow_mul, pow_two])
      refine ⟨by omega, fun j h1 h2 => ?_, fun h => hend (by rwa [Nat.add_right_comm])⟩
      rcases Nat.eq_or_lt_of_le h1 with rfl | hlt
      · exact fun h => hp1 (hone.2 h)
      · exact hmin j hlt h2

/-- What holds at the top of every pass of rule R93 for the square `v`: `r² = v·t`, `c` has the order `2^m`,
and the order of `t` divides `2^(m−1)`. -/
structure TonelliInv (md v m c t r : Nat) : Prop where
  pos : 1 ≤ m
  t_lt : t < md
  r_lt : r < md
  root : (r : ZMod md) ^ 2 = v * t
  generator : (c : ZMod md) ^ 2 ^ (m - 1) = -1
  order : (t : ZMod md) ^ 2 ^ (m - 1) = 1

/-- Where `t` is not 1, the number `i` of squarings lies in `1 .. m−1`, and the squaring before gives −1. -/
theorem TonelliInv.squarings_spec {md v m c t r : Nat} [Fact md.Prime] (hinv : TonelliInv md v m c t r)
    (ht : t ≠ 1) :
    1 ≤ leastSquaring md (m - 1) 1 (t * t % md) ∧ leastSquaring md (m - 1) 1 (t * t % md) ≤ m - 1 ∧
      (t : ZMod md) ^ 2 ^ (leastSquaring md (m - 1) 1 (t * t % md) - 1) = -1 := by
  have hmd : 1 < md := (Fact.out : md.Prime).one_lt
  have hpos := hinv.pos
  have ht1 : (t : ZMod md) ≠ 1 := by
    rwa [Ne, natCast_eq_one_iff hmd, Nat.mod_eq_of_lt hinv.t_lt]
  obtain ⟨hle, hmin, hend⟩ := leastSquaring_spec hmd (a := (t : ZMod md)) (m - 1) 1 (t * t % md)
    (Nat.mod_lt _ (by omega)) (by rw [ZMod.natCast_mod, Nat.cast_mul, pow_one, pow_two])
  generalize leastSquaring md (m - 1) 1 (t * t % md) = i at hle hmin hend ⊢
  have hm : m - 1 ≠ 0 := by
    intro h0
    have horder := hinv.order
    rw [h0, pow_zero, pow_one] at horder
    exact ht1 horder
  have hi : i ≤ m - 1 := by
    by_contra hgt
    exact hmin (m - 1) (by omega) (by omega) hinv.order
  have hone : (t : ZMod md) ^ 2 ^ i = 1 :=
    hend (by rw [Nat.add_comm 1, pow_succ, pow_mul, hinv.order, one_pow])
  have hsq : (t : ZMod md) ^ 2 ^ (i - 1) * (t : ZMod md) ^ 2 ^ (i - 1) = 1 := by
    rw [← pow_two, ← pow_mul, ← pow_succ, Nat.sub_add_cancel hle, hone]
  refine ⟨hle, hi, (mul_self_eq_one_iff.1 hsq).resolve_left ?_⟩
  rcases Nat.eq_or_lt_of_le hle with h1 | h1
  · rw [← h1, Nat.sub_self, pow_zero, pow_one]
    exact ht1
  · exact hmin (i - 1) (by omega) (by omega)

/-- One pass keeps the invariant, with the smaller `m = i`. -/
theorem TonelliInv.pass {md v m c t r i b : Nat} [Fact md.Prime] (hinv : TonelliInv md v m c t r)
    (hi1 : 1 ≤ i) (him : i ≤ m - 1) (hneg : (t : ZMod md) ^ 2 ^ (i - 1) = -1)
    (hb : (b : ZMod md) = (c : ZMod md) ^ 2 ^ (m - i - 1)) :
    TonelliInv md v i (b * b % md) (t * (b * b % md) % md) (r * b % md) := by
  have hmd : 0 < md := (Fact.out : md.Prime).pos
  have hbb : (b * b : ZMod md) ^ 2 ^ (i - 1) = -1 := by
    rw [← pow_two, ← pow_mul, ← pow_succ', hb, ← pow_mul, ← pow_add,
      show m - i - 1 + (i - 1 + 1) = m - 1 by omega, hinv.generator]
  refine ⟨hi1, Nat.mod_lt _ hmd, Nat.mod_lt _ hmd, ?_, ?_, ?_⟩
  · push_cast [ZMod.natCast_mod]
    linear_combination (b : ZMod md) ^ 2 * hinv.root
  · push_cast [ZMod.natCast_mod]
    exact hbb
  · push_cast [ZMod.natCast_mod]
    rw [mul_pow, hneg, hbb, neg_mul_neg, one_mul]

/-- The loop ends within `m` passes, in a root of `v`. -/
theorem tonelliLoop_spec {md v : Nat} [Fact md.Prime] {passes m c t r : Nat}
    (hinv : TonelliInv md v m c t r) (hpasses : m ≤ passes) :
    tonelliLoop md passes m c t r < md ∧
      (tonelliLoop md passes m c t r : ZMod md) ^ 2 = v := by
  induction passes generalizing m c t r with
  | zero => exact absurd hinv.pos (by omega)
  | succ n ih =>
    simp only [tonelliLoop]
    split
    · rename_i ht
      refine ⟨hinv.r_lt, ?_⟩
      rw [hinv.root, ht, Nat.cast_one, mul_one]
    · rename_i ht
      obtain ⟨hi1, him, hneg⟩ := hinv.squarings_spec ht
      refine ih (hinv.pass hi1 him hneg ?_) (by omega)
      rw [powMod_eq _ _ _ (Fact.out : md.Prime).pos, ZMod.natCast_mod, Nat.cast_pow]

/-- The invariant where the loop starts. -/
theorem tonelliInv_init {c : Config} (h : FieldValid c) (hnr : NonresidueValid c) {v : Nat}
    (heuler : v ^ ((c.modulus - 1) / 2) % c.modulus = 1) :
    TonelliInv c.modulus v (twoAdicity c) (val c (montNonresiduePower c))
      (powMod v (oddPart c) c.modulus) (powMod v ((oddPart c + 1) / 2) c.modulus) := by
  have hpos := modulus_pos h
  obtain ⟨-, hT, hS⟩ := twoAdicity_spec h
  have hhalf := half_eq_oddPart_mul h
  rw [val_montNonresiduePower h, powMod_eq _ _ _ hpos, powMod_eq _ _ _ hpos]
  refine ⟨hS, Nat.mod_lt _ hpos, Nat.mod_lt _ hpos, ?_, ?_, ?_⟩
  · rw [ZMod.natCast_mod, ZMod.natCast_mod, ← Nat.cast_pow, ← Nat.cast_mul, ← pow_mul, ← pow_succ',
      show (oddPart c + 1) / 2 * 2 = oddPart c + 1 by omega]
  · have hcast : ((c.nonresidue ^ ((c.modulus - 1) / 2) : Nat) : ZMod c.modulus) = -1 := by
      rw [← ZMod.natCast_mod, hnr, Nat.cast_sub (by omega), ZMod.natCast_self, Nat.cast_one, zero_sub]
    rw [ZMod.natCast_mod, ← Nat.cast_pow, ← pow_mul, ← hhalf, hcast]
  · rw [ZMod.natCast_mod, ← Nat.cast_pow, ← pow_mul, ← hhalf, natCast_eq_one_iff h.1.one_lt, heuler]

/-- Settles O31: the loop's invariant gives a root, which `canonicalRoot` moves to the lower half. -/
theorem tonelliFindsRoot : Obligations.TonelliFindsRoot := by
  intro c h hnr v hv heuler
  have : Fact c.modulus.Prime := ⟨h.1⟩
  have hv0 := natCast_ne_zero_of_euler h heuler
  obtain ⟨hlt, hroot⟩ := tonelliLoop_spec (tonelliInv_init h hnr heuler) le_rfl
  rw [← isCanonicalRoot_iff]
  refine canonicalRoot_spec h (fun h0 => ?_) hlt ?_
  · rw [h0, Nat.cast_zero, zero_pow two_ne_zero] at hroot
    exact hv0 hroot.symm
  · exact (mul_self_mod_eq_iff hv).2 hroot

/-! ### The statements of rules R92 and R97 -/

/-- Settles O26: Euler's criterion decides between the trap and the one root in the lower half. -/
theorem squareRootResult : Obligations.SquareRootResult := by
  intro s grp dst x h hadm
  have hpos := modulus_pos h
  have hruns := fsqrt_runsOn grp dst x s
  refine ⟨hruns.traps hadm, fun h0 => ?zero, fun hc h0 => ?nonzero⟩
  case zero =>
    have hc : Canonical s.cfg [fieldAt s x.toNat] := canonical_singleton.2 (h0 ▸ hpos)
    rw [hruns.exec_of_canonical hadm hc, if_pos h0]
    rfl
  case nonzero =>
    have hx := canonical_singleton.1 hc
    have hexec := hruns.exec_of_canonical hadm hc
    rw [if_neg h0] at hexec
    refine ⟨val s.cfg (fieldAt s x.toNat), val_lt hpos _, val_mul_montR h hx, fun hne => ?_,
      fun heuler => ?_⟩
    · rw [Faults, hexec, check_neg (mt (eulerOne_iff h _).1 hne)]
      rfl
    · have hroot := sqrtValue_isCanonicalRoot h (val_lt hpos _) heuler
      obtain ⟨hr1, hr2, hrv⟩ := isCanonicalRoot_iff.1 hroot
      refine ⟨_, hr1, hr2, hrv, fun r' h1 h2 hv => ?_, ?_⟩
      · exact canonicalRoot_unique h hroot (isCanonicalRoot_iff.2 ⟨h1, h2, hv⟩)
      · rw [hexec, check_pos ((eulerOne_iff h _).2 heuler)]
        rfl

/-- Squaring a root gives the element back (rule R97). -/
theorem fsqr_fsqrt {c : Config} (h : FieldValid c) {x : Nat} (hx : x < c.modulus)
    (heuler : eulerOne c (val c x) = true) : fsqr c (fsqrt c x) = x := by
  have hpos := modulus_pos h
  obtain ⟨-, -, hroot⟩ := isCanonicalRoot_iff.1
    (sqrtValue_isCanonicalRoot h (val_lt hpos x) ((eulerOne_iff h _).1 heuler))
  refine residueValue_injective h (fsqr_lt hpos _) hx ?_
  rw [residueValue_fsqr, fsqrt, residueValue_mont h, (mul_self_mod_eq_iff (val_lt hpos x)).1 hroot,
    residueValue]

/-- Euler's criterion refuses a value that has no root. -/
theorem eulerOne_eq_false {c : Config} (h : FieldValid c) {v : Nat} (hv : v < c.modulus)
    (hnone : ∀ r, r * r % c.modulus ≠ v) : eulerOne c v = false := by
  rw [← Bool.not_eq_true, eulerOne_iff h]
  intro heuler
  obtain ⟨r, hr⟩ := exists_canonicalRoot h hv heuler
  obtain ⟨-, -, hrv⟩ := isCanonicalRoot_iff.1 hr
  exact hnone r hrv

/-- Settles O28: two canonical residues of one value are equal, and values obey the laws of a field. -/
theorem fieldLaws : Obligations.FieldLaws := by
  intro c h x y z hx hy hz
  have : Fact c.modulus.Prime := ⟨h.1⟩
  have hpos := modulus_pos h
  refine ⟨?_, ?_, ?_, ?_, ?_, fun h0 => ?_, fsqr_fsqrt h hx, eulerOne_eq_false h (val_lt hpos x),
    finvOrZero_zero c, finvOrZero_of_ne_zero⟩
  · rw [toMontgomery_eq_mont h, fromMontgomery_eq_val, val_mont h, Nat.mod_eq_of_lt hx]
  · refine residueValue_injective h (fsub_lt (fadd_lt hx hy) hy) hx ?_
    rw [residueValue_fsub _ hy, residueValue_fadd, add_sub_cancel_right]
  · rw [fmul, fmul, mul_comm x]
  · refine residueValue_injective h (fmul_lt hpos _ _) (fmul_lt hpos _ _) ?_
    simp only [residueValue_fmul, mul_assoc]
  · refine residueValue_injective h (fmul_lt hpos _ _) hx ?_
    rw [residueValue_fmul, residueValue_montOne h, mul_one]
  · have hv := residueValue_ne_zero h hx h0
    refine residueValue_injective h (fmul_lt hpos _ _) (Nat.mod_lt _ hpos) ?_
    rw [residueValue_fmul, residueValue_finv h hv, residueValue_montOne h, mul_inv_cancel₀ hv]

end Sys2Proof.Machine
end

section
/-! PROOFS. The limb loop of rule R86: `MINV` makes every division exact, the accumulator stays below `2M`, and
after `i` passes it is the product with the low `i` limbs of `y`, divided by `2^(i·B)` modulo `M`. -/

namespace Sys2Proof.Machine

/-! ### `MINV` -/

/-- The group of odd residues modulo `2^(n+2)` has the exponent `2^n`, for `n` at least 1. -/
theorem odd_pow_two_pow_dvd {k : ℤ} (hk : Odd k) (n : Nat) :
    (2 : ℤ) ^ (n + 3) ∣ k ^ 2 ^ (n + 1) - 1 := by
  induction n with
  | zero => simpa using Int.eight_dvd_sq_sub_one_of_odd hk
  | succ n ih =>
    have heven : (2 : ℤ) ∣ k ^ 2 ^ (n + 1) + 1 := (hk.pow.add_one).two_dvd
    have hfactor : k ^ 2 ^ (n + 1 + 1) - 1 = (k ^ 2 ^ (n + 1) - 1) * (k ^ 2 ^ (n + 1) + 1) := by
      rw [pow_succ 2 (n + 1), pow_mul]
      ring
    rw [hfactor, show n + 1 + 3 = n + 3 + 1 by rfl, pow_succ]
    exact mul_dvd_mul ih heven

theorem odd_natCast_pow_eq_one {k b : Nat} (hk : k % 2 = 1) (hb : 3 ≤ b) :
    (k : ZMod (2 ^ b)) ^ 2 ^ (b - 2) = 1 := by
  obtain ⟨n, rfl⟩ := Nat.exists_eq_add_of_le' hb
  have hodd : Odd (k : ℤ) := by exact_mod_cast Nat.odd_iff.2 hk
  have hdvd : ((2 ^ (n + 3) : Nat) : ℤ) ∣ (k : ℤ) ^ 2 ^ (n + 1) - 1 := by
    exact_mod_cast odd_pow_two_pow_dvd hodd n
  have h0 := (ZMod.intCast_zmod_eq_zero_iff_dvd _ _).2 hdvd
  push_cast at h0
  exact sub_eq_zero.1 h0

theorem three_le_limbBits {c : Config} (hl : LimbValid c) : 3 ≤ c.limbBits := by
  rcases hl with hl | hl <;> omega

/-- `MINV` is the negative of the inverse of `M` modulo `2^B` (rule R10). -/
theorem montMInv_mul_modulus {c : Config} (h : FieldValid c) (hl : LimbValid c) :
    (montMInv c : ZMod (2 ^ c.limbBits)) * c.modulus = -1 := by
  have hb := three_le_limbBits hl
  have hpos : 0 < 2 ^ c.limbBits := Nat.two_pow_pos _
  have hexp : 2 ^ (c.limbBits - 2) - 1 + 1 = 2 ^ (c.limbBits - 2) :=
    Nat.sub_add_cancel Nat.one_le_two_pow
  rw [montMInv, ZMod.natCast_mod, powMod_eq _ _ _ hpos, Nat.cast_sub (Nat.mod_lt _ hpos).le,
    ZMod.natCast_self, ZMod.natCast_mod, Nat.cast_pow, zero_sub, neg_mul, ← pow_succ, hexp,
    odd_natCast_pow_eq_one h.2 hb]

/-! ### One pass -/

/-- Limb `i` of `y` (rule R86). -/
def limb (c : Config) (y i : Nat) : Nat := y / 2 ^ (c.limbBits * i) % 2 ^ c.limbBits

/-- The digit that clears the low limb of an accumulator (rule R86). -/
def ciosDigit (c : Config) (t : Nat) : Nat := t % 2 ^ c.limbBits * montMInv c % 2 ^ c.limbBits

theorem limb_lt (c : Config) (y i : Nat) : limb c y i < 2 ^ c.limbBits :=
  Nat.mod_lt _ (Nat.two_pow_pos _)

theorem ciosDigit_lt (c : Config) (t : Nat) : ciosDigit c t < 2 ^ c.limbBits :=
  Nat.mod_lt _ (Nat.two_pow_pos _)

theorem ciosPass_eq (c : Config) (x y i t : Nat) :
    ciosPass c x y i t =
      (t + x * limb c y i + ciosDigit c (t + x * limb c y i) * c.modulus) / 2 ^ c.limbBits := rfl

theorem limbBase_dvd {c : Config} (h : FieldValid c) (hl : LimbValid c) (t : Nat) :
    2 ^ c.limbBits ∣ t + ciosDigit c t * c.modulus := by
  rw [← ZMod.natCast_eq_zero_iff, ciosDigit, Nat.cast_add, Nat.cast_mul, ZMod.natCast_mod,
    Nat.cast_mul, ZMod.natCast_mod, mul_assoc, montMInv_mul_modulus h hl, mul_neg_one, add_neg_cancel]

/-- The division of a pass is exact. -/
theorem ciosPass_mul {c : Config} (h : FieldValid c) (hl : LimbValid c) (x y i t : Nat) :
    ciosPass c x y i t * 2 ^ c.limbBits =
      t + x * limb c y i + ciosDigit c (t + x * limb c y i) * c.modulus := by
  rw [ciosPass_eq, Nat.div_mul_cancel (limbBase_dvd h hl _)]

/-- The accumulator is below `2M` again after a pass. -/
theorem ciosPass_lt {c : Config} {x t : Nat} (hx : x < c.modulus) (ht : t < 2 * c.modulus) (y i : Nat) :
    ciosPass c x y i t < 2 * c.modulus := by
  have hlimb : x * limb c y i ≤ c.modulus * (2 ^ c.limbBits - 1) :=
    Nat.mul_le_mul hx.le (Nat.le_sub_one_of_lt (limb_lt c y i))
  have hdigit : ciosDigit c (t + x * limb c y i) * c.modulus ≤ (2 ^ c.limbBits - 1) * c.modulus :=
    Nat.mul_le_mul_right _ (Nat.le_sub_one_of_lt (ciosDigit_lt c _))
  have hbase : 2 * c.modulus * 2 ^ c.limbBits =
      2 * c.modulus + c.modulus * (2 ^ c.limbBits - 1) + (2 ^ c.limbBits - 1) * c.modulus := by
    conv_lhs => rw [← Nat.sub_add_cancel (Nat.one_le_two_pow (n := c.limbBits))]
    ring
  rw [ciosPass_eq, Nat.div_lt_iff_lt_mul (Nat.two_pow_pos _), hbase]
  linarith

/-! ### All passes -/

theorem ciosPasses_lt {c : Config} {x : Nat} (hx : x < c.modulus) (y i : Nat) :
    ciosPasses c x y i < 2 * c.modulus := by
  induction i with
  | zero =>
    rw [ciosPasses]
    omega
  | succ i ih => exact ciosPass_lt hx ih y i

/-- After `i` passes the accumulator is `x` times the low `i` limbs of `y`, over `2^(i·B)`, modulo `M`. -/
theorem ciosPasses_mul {c : Config} (h : FieldValid c) (hl : LimbValid c) (x y i : Nat) :
    (ciosPasses c x y i * (2 ^ (c.limbBits * i) : Nat) : ZMod c.modulus) =
      x * (y % 2 ^ (c.limbBits * i) : Nat) := by
  induction i with
  | zero => simp [ciosPasses, Nat.mod_one]
  | succ i ih =>
    have hpass : (ciosPass c x y i (ciosPasses c x y i) * 2 ^ c.limbBits : ZMod c.modulus) =
        ciosPasses c x y i + x * limb c y i := by
      have hcast := congrArg (Nat.cast (R := ZMod c.modulus))
        (ciosPass_mul h hl x y i (ciosPasses c x y i))
      simpa using hcast
    have hlow : y % 2 ^ (c.limbBits * (i + 1)) =
        y % 2 ^ (c.limbBits * i) + 2 ^ (c.limbBits * i) * limb c y i := by
      rw [Nat.mul_succ, pow_add, Nat.mod_mul, limb]
    rw [ciosPasses, hlow, Nat.mul_succ, pow_add]
    push_cast at ih ⊢
    linear_combination (2 : ZMod c.modulus) ^ (c.limbBits * i) * hpass + ih

/-! ### The whole product -/

/-- The limbs are `R` wide together (rule R11). -/
theorem limbBits_mul_limbCount {c : Config} (hl : LimbValid c) :
    2 ^ (c.limbBits * limbCount c) = montR c := by
  have hwidth : c.limbBits * limbCount c = 8 * n8 c := by
    rw [limbCount, n8]
    rcases hl with hl | hl <;> rw [hl] <;> omega
  rw [hwidth, montR]

/-- A residue fits in `n8` bytes. -/
theorem modulus_lt_montR (c : Config) : c.modulus < montR c := by
  refine (lt_two_pow_bitlength c.modulus).trans_le (Nat.pow_le_pow_right (by norm_num) ?_)
  rw [n8, ceilDiv]
  omega

/-- Rule R85's congruence fixes the product. -/
theorem eq_fmul_of_mul_montR {c : Config} (h : FieldValid c) {v x y : Nat} (hv : v < c.modulus)
    (hmul : (v * montR c : ZMod c.modulus) = x * y) : v = fmul c x y := by
  rw [fmul, ← Nat.mod_eq_of_lt hv, ← ZMod.natCast_eq_natCast_iff']
  push_cast
  linear_combination (montRInv c : ZMod c.modulus) * hmul - (v : ZMod c.modulus) * montR_mul_inv h

/-- Settles O29: the passes give the congruence of rule R85 below `2M`, and one subtraction the residue. -/
theorem ciosMeetsContract : Obligations.CiosMeetsContract := by
  intro c h hl x y hx hy
  refine ⟨?_, fun i _ => ciosPasses_lt hx y i⟩
  have hlt := ciosPasses_lt hx y (limbCount c)
  have hmul := ciosPasses_mul h hl x y (limbCount c)
  rw [limbBits_mul_limbCount hl, Nat.mod_eq_of_lt (hy.trans (modulus_lt_montR c))] at hmul
  simp only [ciosMul]
  split
  · rename_i hle
    refine eq_fmul_of_mul_montR h (by omega) ?_
    rw [Nat.cast_sub hle, ZMod.natCast_self, sub_zero, hmul]
  · exact eq_fmul_of_mul_montR h (by omega) hmul

end Sys2Proof.Machine
end

section
/-! PROOFS. The batch algorithms with one inversion (rules R95, R125). The back-substitution undoes the
running products element by element; on the curve a pair's denominator is 0 only where the pair needs no
division. -/

namespace Sys2Proof.Machine

/-! ### The batch inverse (rule R95) -/

/-- The running product after one more element, a zero left out (rule R95). -/
def nextProduct (c : Config) (acc x : Nat) : Nat := if x = 0 then acc else fmul c acc x

theorem nextProduct_ne_zero {c : Config} (h : FieldValid c) {acc x : Nat}
    (hacc : residueValue c acc ≠ 0) (hx : x < c.modulus) : residueValue c (nextProduct c acc x) ≠ 0 := by
  have : Fact c.modulus.Prime := ⟨h.1⟩
  unfold nextProduct
  split
  · exact hacc
  · rename_i hx0
    rw [residueValue_fmul]
    exact mul_ne_zero hacc (residueValue_ne_zero h hx hx0)

theorem prefixProducts_cons (c : Config) (acc x : Nat) (xs : List Nat) :
    prefixProducts c acc (x :: xs) =
      (acc :: (prefixProducts c (nextProduct c acc x) xs).1,
        (prefixProducts c (nextProduct c acc x) xs).2) := rfl

/-- The product that is inverted is never 0. -/
theorem prefixProducts_ne_zero {c : Config} (h : FieldValid c) {xs : List Nat} (hxs : Canonical c xs)
    {acc : Nat} (hacc : residueValue c acc ≠ 0) :
    residueValue c (prefixProducts c acc xs).2 ≠ 0 := by
  induction xs generalizing acc with
  | nil => exact hacc
  | cons x xs ih =>
    obtain ⟨hx, hxs⟩ := List.forall_mem_cons.1 hxs
    exact ih hxs (nextProduct_ne_zero h hacc hx)

/-- The back-substitution gives every inverse, and the inverse of the product it started from. -/
theorem backSubstitute_prefixProducts {c : Config} [Fact c.modulus.Prime] (h : FieldValid c)
    {xs : List Nat} (hxs : Canonical c xs) {acc inv : Nat} (hacc : residueValue c acc ≠ 0)
    (hinv : residueValue c inv = (residueValue c (prefixProducts c acc xs).2)⁻¹) :
    (backSubstitute c inv (xs.zip (prefixProducts c acc xs).1)).1 = xs.map (finvOrZero c) ∧
      residueValue c (backSubstitute c inv (xs.zip (prefixProducts c acc xs).1)).2 =
        (residueValue c acc)⁻¹ := by
  induction xs generalizing acc with
  | nil => exact ⟨rfl, hinv⟩
  | cons x xs ih =>
    obtain ⟨hx, hxs⟩ := List.forall_mem_cons.1 hxs
    obtain ⟨houts, hrest⟩ := ih hxs (nextProduct_ne_zero h hacc hx) hinv
    rw [prefixProducts_cons, List.zip_cons_cons, backSubstitute, List.map_cons]
    rcases eq_or_ne x 0 with rfl | hx0
    · exact ⟨by simp [houts], by simpa [nextProduct] using hrest⟩
    · have hv := residueValue_ne_zero h hx hx0
      have hnext : nextProduct c acc x = fmul c acc x := if_neg hx0
      rw [hnext] at houts hrest ⊢
      rw [residueValue_fmul] at hrest
      simp only [if_neg hx0]
      constructor
      · rw [houts, finvOrZero_of_ne_zero hx0]
        congr 1
        refine residueValue_injective h (fmul_lt (modulus_pos h) _ _) (finv_lt (modulus_pos h) _) ?_
        rw [residueValue_fmul, hrest, residueValue_finv h hv]
        field_simp
      · rw [residueValue_fmul, hrest]
        field_simp

theorem batchInverse_eq_map {c : Config} (h : FieldValid c) {xs : List Nat} (hxs : Canonical c xs) :
    batchInverse c xs = xs.map (finvOrZero c) := by
  have : Fact c.modulus.Prime := ⟨h.1⟩
  have hone : residueValue c (montOne c) ≠ 0 := by
    rw [residueValue_montOne h]
    exact one_ne_zero
  exact (backSubstitute_prefixProducts h hxs hone
    (residueValue_finv h (prefixProducts_ne_zero h hxs hone))).1

/-! ### The batched affine addition (rule R125) -/

theorem invertDenominator_of_ne_zero {c : Config} {den : Nat} (hden : den ≠ 0) (x1 y1 y2 : Nat) :
    invertDenominator c x1 y1 y2 den = finvOrZero c den := by
  rw [invertDenominator, if_neg hden, finvOrZero_of_ne_zero hden]

theorem chordDenominator_ne_zero {c : Config} (h : FieldValid c) {x1 x2 : Nat} (hx1 : x1 < c.modulus)
    (hx2 : x2 < c.modulus) (hne : x1 ≠ x2) : fsub c x2 x1 ≠ 0 := by
  rw [Ne, ← residueValue_eq_zero h (fsub_lt hx2 hx1), residueValue_fsub _ hx1, sub_eq_zero]
  exact fun heq => hne (residueValue_injective h hx2 hx1 heq).symm

/-- Two points of the curve with equal `x` that are not opposite are equal, so their `2·y` is not 0. -/
theorem tangentDenominator_ne_zero {c : Config} (h : FieldValid c) {x y1 y2 : Nat}
    (hy1 : y1 < c.modulus) (hy2 : y2 < c.modulus)
    (hcurve1 : residueValue c y1 ^ 2 = residueValue c x ^ 3 + (c.curveB : ZMod c.modulus))
    (hcurve2 : residueValue c y2 ^ 2 = residueValue c x ^ 3 + (c.curveB : ZMod c.modulus))
    (hne : fadd c y1 y2 ≠ 0) : fadd c y1 y1 ≠ 0 := by
  have : Fact c.modulus.Prime := ⟨h.1⟩
  have hsum : residueValue c y1 ≠ -residueValue c y2 := fun heq => hne <| by
    rw [← residueValue_eq_zero h (fadd_lt hy1 hy2), residueValue_fadd, heq, neg_add_cancel]
  have heq := (sq_eq_sq_iff_eq_or_eq_neg.1 (hcurve1.trans hcurve2.symm)).resolve_right hsum
  rwa [← residueValue_injective h hy1 hy2 heq] at hne

theorem pairDenominator_lt {c : Config} {p q : Aff} (hp : Canonical c (affCoords p))
    (hq : Canonical c (affCoords q)) : pairDenominator c p q < c.modulus := by
  obtain ⟨hpx, hpy⟩ := canonical_pair.1 hp
  obtain ⟨hqx, hqy⟩ := canonical_pair.1 hq
  unfold pairDenominator
  split_ifs
  · omega
  · omega
  · exact fadd_lt hpy hpy
  · exact fsub_lt hqx hpx

/-- A pair on the curve, finished with the inverse of its own denominator, is its sum. -/
theorem finishPair_eq_addAffine {c : Config} (h : FieldValid c) {p q : Aff}
    (hp : Canonical c (affCoords p)) (hq : Canonical c (affCoords q)) (hcp : OnCurveAff c p)
    (hcq : OnCurveAff c q) :
    finishPair c p q (finvOrZero c (pairDenominator c p q)) = addAffine c p q := by
  obtain ⟨hpx, hpy⟩ := canonical_pair.1 hp
  obtain ⟨hqx, hqy⟩ := canonical_pair.1 hq
  by_cases hp0 : p = affZero
  · simp only [finishPair, addAffine, if_pos hp0]
  by_cases hq0 : q = affZero
  · simp only [finishPair, addAffine, if_neg hp0, if_pos hq0]
  simp only [finishPair, addAffine, pairDenominator, if_neg hp0, if_neg hq0,
    if_neg (not_or.2 ⟨hp0, hq0⟩)]
  by_cases hx : p.x = q.x
  · by_cases hy : fadd c p.y q.y = 0
    · simp only [if_pos hx, if_pos hy]
    · have hcp' := hcp.resolve_left hp0
      have hcq' := hcq.resolve_left hq0
      rw [← hx] at hcq'
      simp only [if_pos hx, if_neg hy,
        invertDenominator_of_ne_zero (tangentDenominator_ne_zero h hpy hqy hcp' hcq' hy)]
  · simp only [if_neg hx, invertDenominator_of_ne_zero (chordDenominator_ne_zero h hpx hqx hx)]

/-- Settles O30: the batch inverse element by element, and each pair with its own denominator's inverse. -/
theorem batchAlgorithmsRefine : Obligations.BatchAlgorithmsRefine := by
  intro c h
  refine ⟨fun xs hxs => batchInverse_eq_map h hxs, fun pqs hpqs => ?_⟩
  have hpair : ∀ pq ∈ pqs, Canonical c (affCoords pq.1) ∧ Canonical c (affCoords pq.2) :=
    fun pq hmem => List.forall_mem_append.1 (hpqs pq hmem).1
  have hdens : Canonical c (pqs.map fun pq => pairDenominator c pq.1 pq.2) :=
    List.forall_mem_map.2 fun pq hmem => pairDenominator_lt (hpair pq hmem).1 (hpair pq hmem).2
  rw [batchAffineAdd, batchInverse_eq_map h hdens, List.map_map, ← List.map_prod_left_eq_zip,
    List.map_map]
  refine List.map_congr_left fun pq hmem => ?_
  obtain ⟨hp, hq⟩ := hpair pq hmem
  obtain ⟨-, hcp, hcq⟩ := hpqs pq hmem
  exact finishPair_eq_addAffine h hp hq hcp hcq

end Sys2Proof.Machine
end

section
/-! PROOFS. Stored points and their classes (`41_curve.md`): which results are canonical, when two
Jacobian triples are of one class, and what writing a triple of a class leaves in the state. -/

namespace Sys2Proof.Machine

/-! ### Canonical points -/

theorem canonical_affCoords {c : Config} {p : Aff} :
    Canonical c (affCoords p) ↔ p.x < c.modulus ∧ p.y < c.modulus := canonical_pair

theorem canonical_jacCoords {c : Config} {p : Jac} :
    Canonical c (jacCoords p) ↔ p.x < c.modulus ∧ p.y < c.modulus ∧ p.z < c.modulus := by
  rw [jacCoords, Canonical, List.forall_mem_cons, ← canonical_pair]

theorem canonical_affsCoords {c : Config} {ps : List Aff} :
    Canonical c (affsCoords ps) ↔ ∀ p ∈ ps, Canonical c (affCoords p) := List.forall_mem_flatMap

theorem canonical_jacsCoords {c : Config} {ps : List Jac} :
    Canonical c (jacsCoords ps) ↔ ∀ p ∈ ps, Canonical c (jacCoords p) := List.forall_mem_flatMap

theorem canonical_affZero {c : Config} (h : FieldValid c) : Canonical c (affCoords affZero) :=
  canonical_affCoords.2 ⟨modulus_pos h, modulus_pos h⟩

theorem canonical_jacZero {c : Config} (h : FieldValid c) : Canonical c (jacCoords jacZero) :=
  canonical_jacCoords.2 ⟨modulus_pos h, modulus_pos h, modulus_pos h⟩

theorem canonical_chordPoint {c : Config} (h : FieldValid c) {x1 y1 x2 : Nat} (hx1 : x1 < c.modulus)
    (hy1 : y1 < c.modulus) (hx2 : x2 < c.modulus) (m : Nat) :
    Canonical c (affCoords (chordPoint c x1 y1 x2 m)) :=
  canonical_affCoords.2 ⟨fsub_lt (fsub_lt (fsqr_lt (modulus_pos h) _) hx1) hx2,
    fsub_lt (fmul_lt (modulus_pos h) _ _) hy1⟩

theorem canonical_addAffine {c : Config} (h : FieldValid c) {p q : Aff}
    (hp : Canonical c (affCoords p)) (hq : Canonical c (affCoords q)) :
    Canonical c (affCoords (addAffine c p q)) := by
  obtain ⟨hpx, hpy⟩ := canonical_affCoords.1 hp
  obtain ⟨hqx, -⟩ := canonical_affCoords.1 hq
  unfold addAffine
  split_ifs
  · exact hq
  · exact hp
  · exact canonical_affZero h
  · exact canonical_chordPoint h hpx hpy hqx _
  · exact canonical_chordPoint h hpx hpy hqx _

theorem canonical_negAffine {c : Config} {p : Aff} (hp : Canonical c (affCoords p)) :
    Canonical c (affCoords (negAffine c p)) := by
  obtain ⟨hx, hy⟩ := canonical_affCoords.1 hp
  exact canonical_affCoords.2 ⟨hx, fneg_lt hy⟩

theorem canonical_toJac {c : Config} (h : FieldValid c) {p : Aff} (hp : Canonical c (affCoords p)) :
    Canonical c (jacCoords (toJac c p)) := by
  obtain ⟨hx, hy⟩ := canonical_affCoords.1 hp
  unfold toJac
  split
  · exact canonical_jacZero h
  · exact canonical_jacCoords.2 ⟨hx, hy, Nat.mod_lt _ (modulus_pos h)⟩

theorem canonical_toAffine {c : Config} (h : FieldValid c) (p : Jac) :
    Canonical c (affCoords (toAffine c p)) := by
  unfold toAffine
  split
  · exact canonical_affZero h
  · exact canonical_affCoords.2 ⟨fmul_lt (modulus_pos h) _ _, fmul_lt (modulus_pos h) _ _⟩

theorem fdbl_lt {c : Config} {t : Nat} (ht : t < c.modulus) : fdbl c t < c.modulus := fadd_lt ht ht

theorem canonical_jdbl {c : Config} (h : FieldValid c) (p : Jac) :
    Canonical c (jacCoords (jdbl c p)) := by
  have hmul := fmul_lt (modulus_pos h)
  have hsqr := fsqr_lt (modulus_pos h)
  unfold jdbl
  split
  · exact canonical_jacZero h
  · have hd := fdbl_lt (fsub_lt (fsub_lt (hsqr (fadd c p.x (fsqr c p.y))) (hsqr p.x))
      (hsqr (fsqr c p.y)))
    exact canonical_jacCoords.2 ⟨fsub_lt (hsqr _) (fdbl_lt hd),
      fsub_lt (hmul _ _) (fdbl_lt (fdbl_lt (fdbl_lt (hsqr _)))), fdbl_lt (hmul _ _)⟩

theorem canonical_jadd {c : Config} (h : FieldValid c) {p q : Jac} (hp : Canonical c (jacCoords p))
    (hq : Canonical c (jacCoords q)) : Canonical c (jacCoords (jadd c p q)) := by
  have hmul := fmul_lt (modulus_pos h)
  have hsqr := fsqr_lt (modulus_pos h)
  unfold jadd
  split
  · exact hq
  split
  · exact hp
  dsimp only
  split
  · split
    · exact canonical_jdbl h p
    · exact canonical_jacZero h
  · exact canonical_jacCoords.2 ⟨fsub_lt (fsub_lt (hsqr _) (hmul _ _)) (fdbl_lt (hmul _ _)),
      fsub_lt (hmul _ _) (fdbl_lt (hmul _ _)), hmul _ _⟩

theorem canonical_jmulBits {c : Config} (h : FieldValid c) {p : Jac} (hp : Canonical c (jacCoords p))
    (k n : Nat) {acc : Jac} (hacc : Canonical c (jacCoords acc)) :
    Canonical c (jacCoords (jmulBits c p k n acc)) := by
  induction n generalizing acc with
  | zero => exact hacc
  | succ n ih =>
    rw [jmulBits]
    split
    · exact ih (canonical_jadd h (canonical_jdbl h acc) hp)
    · exact ih (canonical_jdbl h acc)

theorem canonical_jmul {c : Config} (h : FieldValid c) {p : Jac} (hp : Canonical c (jacCoords p))
    (k : Nat) : Canonical c (jacCoords (jmul c p k)) :=
  canonical_jmulBits h hp k _ (canonical_jacZero h)

/-! ### Values of points -/

/-- Two products of residues are equal where the products of their values are. -/
theorem fmul_eq_fmul_iff {c : Config} (h : FieldValid c) {a b d e : Nat} :
    fmul c a b = fmul c d e ↔
      residueValue c a * residueValue c b = residueValue c d * residueValue c e := by
  rw [← residueValue_fmul, ← residueValue_fmul]
  exact ⟨congrArg _, residueValue_injective h (fmul_lt (modulus_pos h) _ _)
    (fmul_lt (modulus_pos h) _ _)⟩

/-- The values of `PTOAFF`'s pair are `X/Z²` and `Y/Z³` (rule R112). -/
theorem residueValue_toAffine {c : Config} [Fact c.modulus.Prime] (h : FieldValid c) {p : Jac}
    (hz : p.z < c.modulus) (hz0 : p.z ≠ 0) :
    residueValue c (toAffine c p).x = residueValue c p.x / residueValue c p.z ^ 2 ∧
      residueValue c (toAffine c p).y = residueValue c p.y / residueValue c p.z ^ 3 := by
  have hv := residueValue_ne_zero h hz hz0
  simp only [toAffine, if_neg hz0, residueValue_fmul, residueValue_fsqr, residueValue_finv h hv]
  constructor
  · field_simp
  · field_simp

/-- The equation of rule R110, checked on residues, is the equation of their values. -/
theorem curveEq_iff {c : Config} (h : FieldValid c) (x y : Nat) : curveEq c x y = true ↔
    residueValue c y ^ 2 = residueValue c x ^ 3 + (c.curveB : ZMod c.modulus) := by
  have hpos := modulus_pos h
  have hvalue : residueValue c (fadd c (fmul c (fsqr c x) x) (mont c c.curveB)) =
      residueValue c x ^ 3 + (c.curveB : ZMod c.modulus) := by
    rw [residueValue_fadd, residueValue_fmul, residueValue_fsqr, residueValue_mont h]
    ring
  rw [curveEq, decide_eq_true_iff, ← hvalue, ← residueValue_fsqr]
  exact ⟨congrArg _, residueValue_injective h (fsqr_lt hpos _)
    (fadd_lt (fmul_lt hpos _ _) (mont_lt hpos _))⟩

theorem onCurveA_of_onCurveAff {c : Config} (h : FieldValid c) {p : Aff} (hp : OnCurveAff c p) :
    onCurveA c p = true := by
  rw [onCurveA, Bool.or_eq_true, decide_eq_true_iff, curveEq_iff h]
  exact hp

theorem allOnCurve_of_onCurveAff {c : Config} (h : FieldValid c) {ps : List Aff}
    (hps : ∀ p ∈ ps, OnCurveAff c p) : allOnCurve c ps = true :=
  List.all_eq_true.2 fun p hp => onCurveA_of_onCurveAff h (hps p hp)

theorem onCurveJ_of_onCurveJac {c : Config} (h : FieldValid c) {p : Jac} (hz : p.z < c.modulus)
    (hp : OnCurveJac c p) : onCurveJ c p = true := by
  have : Fact c.modulus.Prime := ⟨h.1⟩
  rw [onCurveJ, Bool.or_eq_true, decide_eq_true_iff, curveEq_iff h]
  refine or_iff_not_imp_left.2 fun hz0 => ?_
  obtain ⟨hx, hy⟩ := residueValue_toAffine h hz hz0
  have hv := residueValue_ne_zero h hz hz0
  rw [hx, hy, div_pow, div_pow, hp.resolve_left hz0]
  field_simp

/-! ### Classes (rule R112) -/

theorem sameClass_refl (c : Config) (p : Jac) : SameClass c p p :=
  (eq_or_ne p.z 0).imp (fun hz => ⟨hz, hz⟩) fun hz => ⟨hz, hz, rfl, rfl⟩

theorem SameClass.symm {c : Config} {p q : Jac} (hpq : SameClass c p q) : SameClass c q p :=
  hpq.imp And.symm fun ⟨hp, hq, hx, hy⟩ => ⟨hq, hp, hx.symm, hy.symm⟩

theorem SameClass.z_eq_zero_iff {c : Config} {p q : Jac} (hpq : SameClass c p q) :
    p.z = 0 ↔ q.z = 0 := by
  rcases hpq with ⟨hp, hq⟩ | ⟨hp, hq, -⟩
  · exact iff_of_true hp hq
  · exact iff_of_false hp hq

theorem SameClass.trans {c : Config} (h : FieldValid c) {p q r : Jac} (hz : q.z < c.modulus)
    (hpq : SameClass c p q) (hqr : SameClass c q r) : SameClass c p r := by
  have : Fact c.modulus.Prime := ⟨h.1⟩
  rcases hpq with ⟨hp, hq⟩ | ⟨hp, hq, hx, hy⟩
  · exact .inl ⟨hp, hqr.z_eq_zero_iff.1 hq⟩
  · rcases hqr with ⟨hq', -⟩ | ⟨-, hr, hx', hy'⟩
    · exact absurd hq' hq
    · have hv := residueValue_ne_zero h hz hq
      refine .inr ⟨hp, hr, mul_right_cancel₀ (pow_ne_zero 2 hv) ?_,
        mul_right_cancel₀ (pow_ne_zero 3 hv) ?_⟩
      · linear_combination residueValue c r.z ^ 2 * hx + residueValue c p.z ^ 2 * hx'
      · linear_combination residueValue c r.z ^ 3 * hy + residueValue c p.z ^ 3 * hy'

/-- Scaling by a non-zero residue stays in the class. -/
theorem sameClass_scaleJac {c : Config} (h : FieldValid c) {k : Nat} (hk0 : 0 < k)
    (hk : k < c.modulus) {p : Jac} (hz : p.z < c.modulus) : SameClass c (scaleJac c k p) p := by
  have : Fact c.modulus.Prime := ⟨h.1⟩
  have hkv := residueValue_ne_zero h hk hk0.ne'
  have hzero : fmul c k p.z = 0 ↔ p.z = 0 := by
    rw [← residueValue_eq_zero h hz, ← residueValue_eq_zero h (fmul_lt (modulus_pos h) k p.z),
      residueValue_fmul, mul_eq_zero, or_iff_right hkv]
  rcases eq_or_ne p.z 0 with hz0 | hz0
  · exact .inl ⟨hzero.2 hz0, hz0⟩
  · refine .inr ⟨mt hzero.1 hz0, hz0, ?_, ?_⟩
    · simp only [scaleJac, residueValue_fmul, residueValue_fsqr]
      ring
    · simp only [scaleJac, residueValue_fmul, residueValue_fsqr]
      ring

/-- `PEQ`'s comparison of residues is the comparison of the classes (rule R123). -/
theorem jacEq_iff {c : Config} (h : FieldValid c) {p q : Jac} :
    jacEq c p q = true ↔ SameClass c p q := by
  unfold jacEq SameClass
  split_ifs with hz
  · rw [decide_eq_true_iff]
    exact ⟨.inl, fun hclass => hclass.resolve_right fun ⟨hp, hq, _⟩ => hz.elim hp hq⟩
  · obtain ⟨hp, hq⟩ := not_or.1 hz
    simp only [decide_eq_true_iff, fmul_eq_fmul_iff h, residueValue_fmul, residueValue_fsqr,
      ← pow_succ, hp, hq, ne_eq, not_false_iff, true_and, false_and, false_or]

/-- A canonical triple's affine pair depends on its class only. -/
theorem SameClass.toAffine_eq {c : Config} (h : FieldValid c) {p q : Jac} (hp : p.z < c.modulus)
    (hq : q.z < c.modulus) (hpq : SameClass c p q) : toAffine c p = toAffine c q := by
  have : Fact c.modulus.Prime := ⟨h.1⟩
  rcases hpq with ⟨hp0, hq0⟩ | ⟨hp0, hq0, hx, hy⟩
  · rw [toAffine, if_pos hp0, toAffine, if_pos hq0]
  · obtain ⟨hpx, hpy⟩ := residueValue_toAffine h hp hp0
    obtain ⟨hqx, hqy⟩ := residueValue_toAffine h hq hq0
    have hpv := residueValue_ne_zero h hp hp0
    have hqv := residueValue_ne_zero h hq hq0
    obtain ⟨hpxlt, hpylt⟩ := canonical_affCoords.1 (canonical_toAffine h p)
    obtain ⟨hqxlt, hqylt⟩ := canonical_affCoords.1 (canonical_toAffine h q)
    rw [Aff.mk.injEq]
    refine ⟨residueValue_injective h hpxlt hqxlt ?_, residueValue_injective h hpylt hqylt ?_⟩
    · rw [hpx, hqx, div_eq_div_iff (pow_ne_zero 2 hpv) (pow_ne_zero 2 hqv), hx]
    · rw [hpy, hqy, div_eq_div_iff (pow_ne_zero 3 hpv) (pow_ne_zero 3 hqv), hy]

/-- Settles O39: `PTOAFF`, `PEQ` and `PISZ` depend on the class only. -/
theorem classesAreRespected : Obligations.ClassesAreRespected := by
  intro c h p p' q hp hp' hq
  obtain ⟨-, -, hpz⟩ := canonical_jacCoords.1 hp
  obtain ⟨-, -, hpz'⟩ := canonical_jacCoords.1 hp'
  refine ⟨fun k hk0 hk => sameClass_scaleJac h hk0 hk hpz, fun hclass => ?_⟩
  refine ⟨hclass.toAffine_eq h hpz hpz', ?_, ?_, hclass.z_eq_zero_iff⟩
  · rw [Bool.eq_iff_iff, jacEq_iff h, jacEq_iff h]
    exact ⟨hclass.symm.trans h hpz, hclass.trans h hpz'⟩
  · rw [Bool.eq_iff_iff, jacEq_iff h, jacEq_iff h]
    exact ⟨fun hqp => hqp.trans h hpz hclass, fun hqp => hqp.trans h hpz' hclass.symm⟩

/-! ### The triple a group command writes (rules R115, R127) -/

theorem canonical_jacResult {c : Config} (h : FieldValid c) (draw : Nat) (onCurve : Bool) {p : Jac}
    (hp : Canonical c (jacCoords p)) : Canonical c (jacCoords (jacResult c draw onCurve p)) := by
  have hpos := modulus_pos h
  have hmul := fmul_lt hpos
  unfold jacResult
  split
  · split
    · unfold anyRepresentative
      split
      · exact canonical_jacCoords.2 ⟨Nat.mod_lt _ hpos, Nat.mod_lt _ hpos, hpos⟩
      · exact canonical_jacCoords.2 ⟨hmul _ _, hmul _ _, hmul _ _⟩
    · exact hp
  · exact canonical_jacCoords.2 ⟨Nat.mod_lt _ hpos, Nat.mod_lt _ hpos, Nat.mod_lt _ hpos⟩

/-- On the curve the written triple is of the class of the reference triple, whichever form the
configuration asks for. -/
theorem sameClass_jacResult {c : Config} (h : FieldValid c) (draw : Nat) {p : Jac}
    (hz : p.z < c.modulus) : SameClass c (jacResult c draw true p) p := by
  rw [jacResult, if_pos rfl]
  split
  · unfold anyRepresentative
    split
    · rename_i hz0
      exact .inl ⟨rfl, hz0⟩
    · have hscale : Config.freeNat draw 0 % (c.modulus - 1) < c.modulus - 1 :=
        Nat.mod_lt _ (by have := two_lt_modulus h; omega)
      exact sameClass_scaleJac h (by omega) (by omega) hz
  · exact sameClass_refl c p

/-- Writing a Jacobian result, in a state whose workers and draw counter may have moved on from `s`. -/
theorem wroteClassOf_storeJacResult {s u : State} (h : FieldValid s.cfg) (hkeep : KeepsRegisters s u)
    (hmem : u.mem = s.mem) (dst : Word) {onCurve : Bool} {P : Prop} (hon : P → onCurve = true)
    {p : Jac} (hp : Canonical s.cfg (jacCoords p)) :
    WroteClassOf s (storeJacResult u dst onCurve p) dst P p := by
  obtain ⟨hcfg, hrest⟩ := hkeep
  obtain ⟨-, -, hz⟩ := canonical_jacCoords.1 hp
  refine ⟨⟨hcfg, hrest⟩, jacResult s.cfg u.draws onCurve p, canonical_jacResult h _ _ hp, ?_,
    fun hP => ?_⟩
  · rw [storeJacResult_mem, hcfg, hmem]
  · rw [hon hP]
    exact sameClass_jacResult h _ hz

theorem keepsRegisters_refl (s : State) : KeepsRegisters s s := ⟨rfl, rfl, rfl, rfl, rfl, rfl⟩

end Sys2Proof.Machine
end

section
/-! PROOFS. The curve commands (`41_curve.md`): what each does once its checks are past, and
what it writes. -/

namespace Sys2Proof.Machine

/-! ### What each curve command does once its checks are past -/

theorem padda_runsOn (grp : Byte) (dst p q : Word) (s : State) :
    RunsOn (.padda grp dst p q) s (affCoords (affAt s p.toNat) ++ affCoords (affAt s q.toNat))
      (.ok (storeAff s dst (addAffine s.cfg (affAt s p.toNat) (affAt s q.toNat)))) := rfl

theorem padd_runsOn (grp : Byte) (dst p q : Word) (s : State) :
    RunsOn (.padd grp dst p q) s (jacCoords (jacAt s p.toNat) ++ jacCoords (jacAt s q.toNat))
      (.ok (storeJacResult s dst
        (onCurveJ s.cfg (jacAt s p.toNat) && onCurveJ s.cfg (jacAt s q.toNat))
        (jadd s.cfg (jacAt s p.toNat) (jacAt s q.toNat)))) := rfl

theorem pdbl_runsOn (grp : Byte) (dst p : Word) (s : State) :
    RunsOn (.pdbl grp dst p) s (jacCoords (jacAt s p.toNat))
      (.ok (storeJacResult s dst (onCurveJ s.cfg (jacAt s p.toNat))
        (jdbl s.cfg (jacAt s p.toNat)))) := rfl

theorem pneg_runsOn (grp : Byte) (dst p : Word) (s : State) :
    RunsOn (.pneg grp dst p) s (jacCoords (jacAt s p.toNat))
      (.ok (storeJac s dst (negJac s.cfg (jacAt s p.toNat)))) := rfl

theorem pnega_runsOn (grp : Byte) (dst p : Word) (s : State) :
    RunsOn (.pnega grp dst p) s (affCoords (affAt s p.toNat))
      (.ok (storeAff s dst (negAffine s.cfg (affAt s p.toNat)))) := rfl

theorem pmul_runsOn (grp : Byte) (dst p k : Word) (s : State) :
    RunsOn (.pmul grp dst p k) s (jacCoords (jacAt s p.toNat))
      (.ok (storeJacResult s dst (onCurveJ s.cfg (jacAt s p.toNat))
        (jmul s.cfg (jacAt s p.toNat) (scalarAt s k.toNat)))) := rfl

theorem ptoaff_runsOn (grp : Byte) (dst p : Word) (s : State) :
    RunsOn (.ptoaff grp dst p) s (jacCoords (jacAt s p.toNat))
      (.ok (storeAff s dst (toAffine s.cfg (jacAt s p.toNat)))) := rfl

theorem peq_runsOn (grp : Byte) (p q : Word) (s : State) :
    RunsOn (.peq grp p q) s (jacCoords (jacAt s p.toNat) ++ jacCoords (jacAt s q.toNat))
      (.ok (setRes s (boolRes (jacEq s.cfg (jacAt s p.toNat) (jacAt s q.toNat))))) := rfl

theorem pisz_runsOn (grp : Byte) (p : Word) (s : State) :
    RunsOn (.pisz grp p) s (jacCoords (jacAt s p.toNat))
      (.ok (setRes s (boolRes (decide ((jacAt s p.toNat).z = 0))))) := rfl

theorem pbadd_runsOn (grp : Byte) (dst ps qs n : Word) (s : State) :
    RunsOn (.pbadd grp dst ps qs n) s (affsCoords (affsAt s ps n.toNat ++ affsAt s qs n.toNat))
      (.ok (storeAffs s dst
        (List.zipWith (addAffine s.cfg) (affsAt s ps n.toNat) (affsAt s qs n.toNat)))) := rfl

theorem pbtoaff_runsOn (grp : Byte) (dst src n : Word) (s : State) :
    RunsOn (.pbtoaff grp dst src n) s (jacsCoords (jacsAt s src n.toNat))
      (.ok (storeAffs s dst ((jacsAt s src n.toNat).map fun p =>
        toAffineBatched s.cfg p (finvOrZero s.cfg p.z)))) := rfl

/-! ### The cases of `addAffine` (rule R113) -/

/-- A product with the inverse of a non-zero residue, times that residue. -/
theorem fmul_invertDenominator_cancel {c : Config} (h : FieldValid c) {a den : Nat}
    (ha : a < c.modulus) (hden : den < c.modulus) (hden0 : den ≠ 0) (x1 y1 y2 : Nat) :
    fmul c (fmul c a (invertDenominator c x1 y1 y2 den)) den = a := by
  have : Fact c.modulus.Prime := ⟨h.1⟩
  have hv := residueValue_ne_zero h hden hden0
  refine residueValue_injective h (fmul_lt (modulus_pos h) _ _) ha ?_
  rw [residueValue_fmul, residueValue_fmul, invertDenominator_of_ne_zero hden0,
    finvOrZero_of_ne_zero hden0, residueValue_finv h hv, inv_mul_cancel_right₀ hv]

/-- The chord of two canonical points of different `x`, its slope given by its equation. -/
theorem addAffine_chord {c : Config} (h : FieldValid c) {p q : Aff} (hp : Canonical c (affCoords p))
    (hq : Canonical c (affCoords q)) (hp0 : p ≠ affZero) (hq0 : q ≠ affZero) (hx : p.x ≠ q.x) :
    ∃ m, m < c.modulus ∧ fmul c m (fsub c q.x p.x) = fsub c q.y p.y ∧
      addAffine c p q = chordPoint c p.x p.y q.x m := by
  obtain ⟨hpx, hpy⟩ := canonical_affCoords.1 hp
  obtain ⟨hqx, hqy⟩ := canonical_affCoords.1 hq
  refine ⟨_, fmul_lt (modulus_pos h) _ _, fmul_invertDenominator_cancel h (fsub_lt hqy hpy)
    (fsub_lt hqx hpx) (chordDenominator_ne_zero h hpx hqx hx) p.x p.y q.y, ?_⟩
  rw [addAffine, if_neg hp0, if_neg hq0, if_neg hx]

/-- The tangent where `2·y1` is not 0, its slope given by its equation. -/
theorem addAffine_tangent {c : Config} (h : FieldValid c) {p q : Aff} (hp : Canonical c (affCoords p))
    (hp0 : p ≠ affZero) (hq0 : q ≠ affZero) (hx : p.x = q.x) (hsum : fadd c p.y q.y ≠ 0)
    (hden : fadd c p.y p.y ≠ 0) :
    ∃ m, m < c.modulus ∧ fmul c m (fadd c p.y p.y) = fmul c (mont c 3) (fsqr c p.x) ∧
      addAffine c p q = chordPoint c p.x p.y q.x m := by
  obtain ⟨hpx, hpy⟩ := canonical_affCoords.1 hp
  have hpos := modulus_pos h
  refine ⟨_, fmul_lt hpos _ _, fmul_invertDenominator_cancel h (fmul_lt hpos (mont c 3) (fsqr c p.x))
    (fadd_lt hpy hpy) hden p.x p.y q.y, ?_⟩
  rw [addAffine, if_neg hp0, if_neg hq0, if_pos hx, if_neg hsum]

/-! ### The statements -/

/-- Settles O32: `addAffine` case by case, the slopes given by their equations. -/
theorem affineAddResult : Obligations.AffineAddResult := by
  intro s grp dst p q h hadm a b c
  have hruns := padda_runsOn grp dst p q s
  refine ⟨hruns.traps hadm, fun hc => ?_⟩
  obtain ⟨ha, hb⟩ := List.forall_mem_append.1 hc
  obtain ⟨-, hay⟩ := canonical_affCoords.1 ha
  obtain ⟨-, hby⟩ := canonical_affCoords.1 hb
  refine ⟨addAffine c a b, canonical_addAffine h ha hb, hruns.completes hadm hc, ?_⟩
  rw [← fadd_eq_mod hay hby, ← fadd_eq_mod hay hay]
  split_ifs with ha0 hb0 hopp hx
  · rw [addAffine, if_pos ha0]
  · rw [addAffine, if_neg ha0, if_pos hb0]
  · rw [addAffine, if_neg ha0, if_neg hb0, if_pos hopp.1, if_pos hopp.2]
  · exact addAffine_chord h ha hb ha0 hb0 hx
  · have hx : a.x = b.x := not_not.1 hx
    exact fun hden => addAffine_tangent h ha ha0 hb0 hx (fun hsum => hopp ⟨hx, hsum⟩) hden

/-- Settles O33: the conditional form of the negation is `−y` modulo `M`. -/
theorem negationResults : Obligations.NegationResults := by
  intro s grp dst p
  refine ⟨fun hadm => ⟨fun hc => ?jac, (pneg_runsOn grp dst p s).traps hadm⟩,
    fun hadm => ⟨fun hc => ?aff, (pnega_runsOn grp dst p s).traps hadm⟩⟩
  case jac =>
    obtain ⟨-, hy, -⟩ := canonical_jacCoords.1 hc
    rw [(pneg_runsOn grp dst p s).completes hadm hc, ← fneg_eq_mod hy]
    rfl
  case aff =>
    obtain ⟨-, hy⟩ := canonical_affCoords.1 hc
    rw [(pnega_runsOn grp dst p s).completes hadm hc, ← fneg_eq_mod hy]
    rfl

/-- Settles O34: the triple written is of the class of the formulas' triple. -/
theorem jacobianAddDoubleResults : Obligations.JacobianAddDoubleResults := by
  intro s grp dst p q h
  refine ⟨fun hadm => ⟨fun hc => ?add, (padd_runsOn grp dst p q s).traps hadm⟩,
    fun hadm => ⟨fun hc => ?dbl, (pdbl_runsOn grp dst p s).traps hadm⟩⟩
  case add =>
    obtain ⟨hp, hq⟩ := List.forall_mem_append.1 hc
    obtain ⟨-, -, hpz⟩ := canonical_jacCoords.1 hp
    obtain ⟨-, -, hqz⟩ := canonical_jacCoords.1 hq
    refine ⟨_, (padd_runsOn grp dst p q s).completes hadm hc, rfl,
      wroteClassOf_storeJacResult h (keepsRegisters_refl s) rfl dst (fun ⟨hcp, hcq⟩ => ?_)
        (canonical_jadd h hp hq)⟩
    rw [onCurveJ_of_onCurveJac h hpz hcp, onCurveJ_of_onCurveJac h hqz hcq, Bool.and_self]
  case dbl =>
    obtain ⟨-, -, hpz⟩ := canonical_jacCoords.1 hc
    exact ⟨_, (pdbl_runsOn grp dst p s).completes hadm hc, rfl,
      wroteClassOf_storeJacResult h (keepsRegisters_refl s) rfl dst (onCurveJ_of_onCurveJac h hpz)
        (canonical_jdbl h _)⟩

/-- Settles O35: the triple written is of the class of the loop's triple. -/
theorem scalarMultipleResult : Obligations.ScalarMultipleResult := by
  intro s grp dst p k h hadm
  have hruns := pmul_runsOn grp dst p k s
  refine ⟨fun hc => ?_, hruns.traps hadm⟩
  obtain ⟨-, -, hpz⟩ := canonical_jacCoords.1 hc
  exact ⟨_, hruns.completes hadm hc, rfl, wroteClassOf_storeJacResult h (keepsRegisters_refl s) rfl
    dst (onCurveJ_of_onCurveJac h hpz) (canonical_jmul h hc _)⟩

/-- `PTOAFF`'s pair, given by the equations that fix it (rule R122). -/
theorem toAffine_mul {c : Config} (h : FieldValid c) {p : Jac} (hp : Canonical c (jacCoords p))
    (hz0 : p.z ≠ 0) : fmul c (toAffine c p).x (fsqr c p.z) = p.x ∧
      fmul c (toAffine c p).y (fmul c (fsqr c p.z) p.z) = p.y := by
  have : Fact c.modulus.Prime := ⟨h.1⟩
  obtain ⟨hx, hy, hz⟩ := canonical_jacCoords.1 hp
  obtain ⟨hvx, hvy⟩ := residueValue_toAffine h hz hz0
  have hv := residueValue_ne_zero h hz hz0
  constructor
  · refine residueValue_injective h (fmul_lt (modulus_pos h) _ _) hx ?_
    rw [residueValue_fmul, residueValue_fsqr, hvx, div_mul_cancel₀ _ (pow_ne_zero 2 hv)]
  · refine residueValue_injective h (fmul_lt (modulus_pos h) _ _) hy ?_
    rw [residueValue_fmul, residueValue_fmul, residueValue_fsqr, ← pow_succ, hvy,
      div_mul_cancel₀ _ (pow_ne_zero 3 hv)]

/-- Settles O36: `z` is inverted only where it is not 0, and times its powers the pair is `(X, Y)`. -/
theorem normaliseResult : Obligations.NormaliseResult := by
  intro s grp dst p h hadm c j
  have hruns := ptoaff_runsOn grp dst p s
  exact ⟨hruns.traps hadm, fun hc => ⟨toAffine c j, canonical_toAffine h j, hruns.completes hadm hc,
    fun hz0 => if_pos hz0, toAffine_mul h hc⟩⟩

/-- Settles O37: `RES` is the comparison, which `jacEq_iff` reads as equality of classes. -/
theorem pointPredicateResults : Obligations.PointPredicateResults := by
  intro s grp p q h
  refine ⟨fun hadm => ⟨(peq_runsOn grp p q s).traps hadm, fun hc => ⟨fun hclass => ?same,
      fun hclass => ?different⟩⟩,
    fun hadm => ⟨(pisz_runsOn grp p s).traps hadm, fun hc => ?isZero⟩⟩
  case same =>
    rw [(peq_runsOn grp p q s).completes hadm hc, (jacEq_iff h).2 hclass]
    rfl
  case different =>
    rw [(peq_runsOn grp p q s).completes hadm hc,
      Bool.eq_false_iff.2 fun heq => hclass ((jacEq_iff h).1 heq)]
    rfl
  case isZero =>
    simp only [(pisz_runsOn grp p s).completes hadm hc, boolRes, decide_eq_true_iff]

/-- A batched normalisation inverts `z` as `PTOAFF` does (rule R126). -/
theorem toAffineBatched_finvOrZero (c : Config) (p : Jac) :
    toAffineBatched c p (finvOrZero c p.z) = toAffine c p := by
  unfold toAffineBatched toAffine
  split
  · rfl
  · rename_i hz0
    rw [finvOrZero_of_ne_zero hz0]

/-- Settles O38: both batches are arrays, indexed alike. -/
theorem pointBatchResults : Obligations.PointBatchResults := by
  intro s grp dst ps qs n
  refine ⟨fun hadm => ⟨fun hc => ?add, (pbadd_runsOn grp dst ps qs n s).traps hadm⟩,
    fun hadm => ⟨fun hc => ?normalise, (pbtoaff_runsOn grp dst ps n s).traps hadm⟩⟩
  case add =>
    rw [(pbadd_runsOn grp dst ps qs n s).completes hadm hc, storeAffs, affsAt, affsAt, arrayAt,
      arrayAt, List.zipWith_map, List.zipWith_self, List.flatMap_map]
  case normalise =>
    simp only [(pbtoaff_runsOn grp dst ps n s).completes hadm hc, toAffineBatched_finvOrZero,
      storeAffs, jacsAt, arrayAt, List.flatMap_map]

end Sys2Proof.Machine
end

section
/-! PROOFS. The formulas of rules R113, R116 and R121 are Mathlib's group law on `y² = x³ + b`. The
slope of a chord or tangent is known by its equation, so each formula is a matter of field arithmetic. -/

namespace Sys2Proof.Machine

open WeierstrassCurve.Affine

theorem fieldValid_of_fact {c : Config} [hp : Fact c.modulus.Prime] (hodd : c.modulus % 2 = 1) :
    FieldValid c := ⟨hp.out, hodd⟩

theorem two_ne_zero_of_fieldValid {c : Config} (h : FieldValid c) : (2 : ZMod c.modulus) ≠ 0 := by
  intro h0
  have hdvd := (ZMod.natCast_eq_zero_iff 2 c.modulus).1 (by exact_mod_cast h0)
  have := Nat.le_of_dvd two_pos hdvd
  have := two_lt_modulus h
  omega

@[simp] theorem residueValue_zero (c : Config) : residueValue c 0 = 0 := by
  simp [residueValue_eq]

section Points

variable {c : Config} [Fact c.modulus.Prime]

/-! ### Points of the group -/

/-- The equation of rule R110 holds for the coordinates of a point. -/
theorem equation_of_nonsingular {x y : ZMod c.modulus} (hxy : (curveOf c).Nonsingular x y) :
    y ^ 2 = x ^ 3 + (c.curveB : ZMod c.modulus) := by
  have heq := (equation_iff x y).1 hxy.1
  linear_combination heq

/-- No point of the group is spelled `(0,0)` (rule R111): a curve through that pair is singular there. -/
theorem not_nonsingular_origin : ¬(curveOf c).Nonsingular (0 : ZMod c.modulus) 0 := by
  simp [nonsingular_iff]

/-- Two points of equal `x` are equal or opposite. -/
theorem eq_or_opposite {x y y' : ZMod c.modulus} (hy : (curveOf c).Nonsingular x y)
    (hy' : (curveOf c).Nonsingular x y') : y = y' ∨ y + y' = 0 := by
  have heq := (equation_of_nonsingular hy).trans (equation_of_nonsingular hy').symm
  exact (sq_eq_sq_iff_eq_or_eq_neg.1 heq).imp_right add_eq_zero_iff_eq_neg.2

/-- The sum of two points that are not opposite, the slope being known. -/
theorem exists_add_of_slope {x₁ y₁ x₂ y₂ x₃ y₃ m : ZMod c.modulus}
    {h₁ : (curveOf c).Nonsingular x₁ y₁} {h₂ : (curveOf c).Nonsingular x₂ y₂}
    (hne : ¬(x₁ = x₂ ∧ y₁ = (curveOf c).negY x₂ y₂)) (hslope : (curveOf c).slope x₁ x₂ y₁ y₂ = m)
    (hx₃ : x₃ = m ^ 2 - x₁ - x₂) (hy₃ : y₃ = m * (x₁ - x₃) - y₁) :
    ∃ h₃, Point.some x₁ y₁ h₁ + Point.some x₂ y₂ h₂ = Point.some x₃ y₃ h₃ := by
  have hX : (curveOf c).addX x₁ x₂ ((curveOf c).slope x₁ x₂ y₁ y₂) = x₃ := by
    rw [hslope, hx₃, addX]
    ring
  have hY : (curveOf c).addY x₁ x₂ y₁ ((curveOf c).slope x₁ x₂ y₁ y₂) = y₃ := by
    rw [addY, negAddY, hX, hslope, hy₃, negY]
    ring
  have h₃ : (curveOf c).Nonsingular x₃ y₃ := by
    have hadd := nonsingular_add h₁ h₂ hne
    rwa [hX, hY] at hadd
  exact ⟨h₃, (Point.add_some hne).trans (some_congr hX hY)⟩

/-- The third point of a chord is the sum.  Unlike in `add_chord`, that it is on the curve is a
conclusion. -/
theorem exists_add_chord {x₁ y₁ x₂ y₂ x₃ y₃ m : ZMod c.modulus}
    {h₁ : (curveOf c).Nonsingular x₁ y₁} {h₂ : (curveOf c).Nonsingular x₂ y₂} (hx : x₁ ≠ x₂)
    (hm : m * (x₂ - x₁) = y₂ - y₁) (hx₃ : x₃ = m ^ 2 - x₁ - x₂) (hy₃ : y₃ = m * (x₁ - x₃) - y₁) :
    ∃ h₃, Point.some x₁ y₁ h₁ + Point.some x₂ y₂ h₂ = Point.some x₃ y₃ h₃ := by
  refine exists_add_of_slope (fun hxy => hx hxy.1) ?_ hx₃ hy₃
  rw [slope_of_X_ne hx, div_eq_iff (sub_ne_zero.2 hx)]
  linear_combination hm

/-- The third point of a tangent is the double.  Unlike in `add_tangent`, that it is on the curve is a
conclusion. -/
theorem exists_add_tangent {x₁ y₁ x₃ y₃ m : ZMod c.modulus} {h₁ : (curveOf c).Nonsingular x₁ y₁}
    (hy : 2 * y₁ ≠ 0) (hm : m * (2 * y₁) = 3 * x₁ ^ 2) (hx₃ : x₃ = m ^ 2 - x₁ - x₁)
    (hy₃ : y₃ = m * (x₁ - x₃) - y₁) :
    ∃ h₃, Point.some x₁ y₁ h₁ + Point.some x₁ y₁ h₁ = Point.some x₃ y₃ h₃ := by
  have hneg : (curveOf c).negY x₁ y₁ = -y₁ := by
    rw [negY]
    ring
  have hne : y₁ ≠ (curveOf c).negY x₁ y₁ := by
    rw [hneg]
    exact fun h0 => hy (by linear_combination h0)
  refine exists_add_of_slope (fun hxy => hne hxy.2) ?_ hx₃ hy₃
  rw [slope_of_Y_ne rfl hne, div_eq_iff (sub_ne_zero.2 hne), hneg]
  linear_combination -hm

/-! ### Affine points (rule R113) -/

omit [Fact c.modulus.Prime] in
theorem affStandsFor_affZero : AffStandsFor c affZero 0 := .inl ⟨rfl, rfl⟩

/-- A stored pair whose values are a point's coordinates stands for that point. -/
theorem affStandsFor_some {p : Aff}
    {hp : (curveOf c).Nonsingular (residueValue c p.x) (residueValue c p.y)} :
    AffStandsFor c p (.some _ _ hp) := by
  refine .inr ⟨?_, hp, rfl⟩
  rintro rfl
  simp only [affZero, residueValue_zero] at hp
  exact not_nonsingular_origin hp

theorem affStandsFor_negAffine {p : Aff} {P : (curveOf c).Point} (hy : p.y < c.modulus)
    (hP : AffStandsFor c p P) : AffStandsFor c (negAffine c p) (-P) := by
  rcases hP with ⟨rfl, rfl⟩ | ⟨-, hp, rfl⟩
  · exact affStandsFor_affZero
  · have hneg : (curveOf c).negY (residueValue c p.x) (residueValue c p.y) =
        residueValue c (negAffine c p).y := by
      rw [negY, negAffine, residueValue_fneg hy]
      ring
    have hns : (curveOf c).Nonsingular (residueValue c (negAffine c p).x)
        (residueValue c (negAffine c p).y) := hneg ▸ (nonsingular_neg ..).2 hp
    have hpoint : -Point.some _ _ hp = Point.some _ _ hns := some_congr rfl hneg
    rw [hpoint]
    exact affStandsFor_some

/-- The values of the third point of a line, from those of its slope and of the two points. -/
theorem residueValue_chordPoint (h : FieldValid c) {x1 y1 x2 : Nat} (hx1 : x1 < c.modulus)
    (hy1 : y1 < c.modulus) (hx2 : x2 < c.modulus) (m : Nat) :
    residueValue c (chordPoint c x1 y1 x2 m).x =
        residueValue c m ^ 2 - residueValue c x1 - residueValue c x2 ∧
      residueValue c (chordPoint c x1 y1 x2 m).y = residueValue c m *
        (residueValue c x1 - residueValue c (chordPoint c x1 y1 x2 m).x) - residueValue c y1 := by
  obtain ⟨hx3, -⟩ := canonical_affCoords.1 (canonical_chordPoint h hx1 hy1 hx2 m)
  constructor
  · rw [chordPoint, residueValue_fsub _ hx2, residueValue_fsub _ hx1, residueValue_fsqr]
  · rw [← residueValue_fsub _ hx3, ← residueValue_fmul, ← residueValue_fsub _ hy1]
    rfl

/-- `addAffine` is the group law. -/
theorem affStandsFor_addAffine (h : FieldValid c) {p q : Aff} {P Q : (curveOf c).Point}
    (hp : Canonical c (affCoords p)) (hq : Canonical c (affCoords q)) (hP : AffStandsFor c p P)
    (hQ : AffStandsFor c q Q) : AffStandsFor c (addAffine c p q) (P + Q) := by
  rcases hP with ⟨rfl, rfl⟩ | ⟨hp0, h₁, rfl⟩
  · rw [addAffine, if_pos rfl, ← Point.zero_def, zero_add]
    exact hQ
  rcases hQ with ⟨rfl, rfl⟩ | ⟨hq0, h₂, rfl⟩
  · rw [addAffine, if_neg hp0, if_pos rfl, ← Point.zero_def, add_zero]
    exact affStandsFor_some
  obtain ⟨hpx, hpy⟩ := canonical_affCoords.1 hp
  obtain ⟨hqx, hqy⟩ := canonical_affCoords.1 hq
  by_cases hx : p.x = q.x
  · obtain ⟨qx, qy⟩ := q
    obtain rfl : p.x = qx := hx
    by_cases hsum : fadd c p.y qy = 0
    · have hopp : residueValue c p.y + residueValue c qy = 0 := by
        rw [← residueValue_fadd, hsum, residueValue_zero]
      rw [addAffine, if_neg hp0, if_neg hq0, if_pos rfl, if_pos hsum, opposite_sum h₁ h₂ hopp]
      exact affStandsFor_affZero
    · have hne : residueValue c p.y + residueValue c qy ≠ 0 := by
        rw [← residueValue_fadd]
        exact residueValue_ne_zero h (fadd_lt hpy hqy) hsum
      obtain rfl : p.y = qy :=
        residueValue_injective h hpy hqy ((eq_or_opposite h₁ h₂).resolve_right hne)
      obtain ⟨m, -, hm, hadd⟩ := addAffine_tangent h hp hp0 hq0 rfl hsum hsum
      obtain ⟨hvx, hvy⟩ := residueValue_chordPoint h hpx hpy hpx m
      have hslope : residueValue c m * (2 * residueValue c p.y) = 3 * residueValue c p.x ^ 2 := by
        have hvalue := congrArg (residueValue c) hm
        rw [residueValue_fmul, residueValue_fadd, residueValue_fmul, residueValue_mont h,
          residueValue_fsqr] at hvalue
        linear_combination hvalue
      obtain ⟨h₃, hsum₃⟩ := exists_add_tangent (h₁ := h₁) (by rwa [two_mul]) hslope hvx hvy
      rw [hadd, hsum₃]
      exact affStandsFor_some
  · obtain ⟨m, -, hm, hadd⟩ := addAffine_chord h hp hq hp0 hq0 hx
    obtain ⟨hvx, hvy⟩ := residueValue_chordPoint h hpx hpy hqx m
    have hslope := congrArg (residueValue c) hm
    rw [residueValue_fmul, residueValue_fsub _ hpx, residueValue_fsub _ hpy] at hslope
    obtain ⟨h₃, hsum₃⟩ := exists_add_chord (h₁ := h₁) (h₂ := h₂)
      (fun heq => hx (residueValue_injective h hpx hqx heq)) hslope hvx hvy
    rw [hadd, hsum₃]
    exact affStandsFor_some

/-! ### Jacobian triples (rule R116) -/

theorem residueValue_fdbl (x : Nat) : residueValue c (fdbl c x) = 2 * residueValue c x := by
  rw [fdbl, residueValue_fadd, two_mul]

/-- The values of the doubling formulas. -/
theorem residueValue_jdbl (h : FieldValid c) {p : Jac} (hz0 : p.z ≠ 0) :
    residueValue c (jdbl c p).x = (3 * residueValue c p.x ^ 2) ^ 2 -
        8 * residueValue c p.x * residueValue c p.y ^ 2 ∧
      residueValue c (jdbl c p).y = 3 * residueValue c p.x ^ 2 *
        (4 * residueValue c p.x * residueValue c p.y ^ 2 - residueValue c (jdbl c p).x) -
        8 * residueValue c p.y ^ 4 ∧
      residueValue c (jdbl c p).z = 2 * residueValue c p.y * residueValue c p.z := by
  have hsqr := fsqr_lt (modulus_pos h)
  have hd := fdbl_lt (fsub_lt (fsub_lt (hsqr (fadd c p.x (fsqr c p.y))) (hsqr p.x))
    (hsqr (fsqr c p.y)))
  have h4 := fdbl_lt (fdbl_lt (fdbl_lt (hsqr (fsqr c p.y))))
  rw [jdbl, if_neg hz0]
  simp only [residueValue_fsub _ (fdbl_lt hd), residueValue_fsub _ h4, residueValue_fsub _ (hsqr _),
    residueValue_fsub _ (fsub_lt (hsqr _) (fdbl_lt hd)), residueValue_fdbl,
    residueValue_fadd, residueValue_fmul, residueValue_fsqr]
  refine ⟨?_, ?_, ?_⟩
  · ring
  · ring
  · ring

/-- A stored triple whose affine values are a point's coordinates stands for that point. -/
theorem jacStandsFor_some {p : Jac} (hz0 : p.z ≠ 0)
    {hp : (curveOf c).Nonsingular (residueValue c p.x / residueValue c p.z ^ 2)
      (residueValue c p.y / residueValue c p.z ^ 3)} :
    JacStandsFor c p (.some _ _ hp) := .inr ⟨hz0, hp, rfl⟩

theorem jacStandsFor_zero {p : Jac} (hz0 : p.z = 0) : JacStandsFor c p 0 := .inl ⟨hz0, rfl⟩

theorem jacStandsFor_jdbl (h : FieldValid c) {p : Jac} {P : (curveOf c).Point}
    (hp : Canonical c (jacCoords p)) (hP : JacStandsFor c p P) :
    JacStandsFor c (jdbl c p) (P + P) := by
  obtain ⟨-, hy, hz⟩ := canonical_jacCoords.1 hp
  rcases hP with ⟨hz0, rfl⟩ | ⟨hz0, h₁, rfl⟩
  · rw [jdbl, if_pos hz0, ← Point.zero_def, add_zero]
    exact jacStandsFor_zero rfl
  obtain ⟨hvx, hvy, hvz⟩ := residueValue_jdbl h hz0
  obtain ⟨-, -, hz3⟩ := canonical_jacCoords.1 (canonical_jdbl h p)
  have h2 := two_ne_zero_of_fieldValid h
  have hZ := residueValue_ne_zero h hz hz0
  by_cases hY : residueValue c p.y = 0
  · rw [opposite_sum h₁ h₁ (by simp [hY])]
    refine jacStandsFor_zero ((residueValue_eq_zero h hz3).1 ?_)
    rw [hvz, hY, mul_zero, zero_mul]
  · have hz30 : (jdbl c p).z ≠ 0 := by
      rw [Ne, ← residueValue_eq_zero h hz3, hvz]
      exact mul_ne_zero (mul_ne_zero h2 hY) hZ
    obtain ⟨h₃, hsum⟩ := exists_add_tangent (h₁ := h₁)
      (x₃ := residueValue c (jdbl c p).x / residueValue c (jdbl c p).z ^ 2)
      (y₃ := residueValue c (jdbl c p).y / residueValue c (jdbl c p).z ^ 3)
      (m := 3 * residueValue c p.x ^ 2 / residueValue c (jdbl c p).z)
      (mul_ne_zero h2 (div_ne_zero hY (pow_ne_zero 3 hZ)))
      (by rw [hvz]; field_simp) (by rw [hvx, hvz]; field_simp; ring)
      (by rw [hvy, hvx, hvz]; field_simp; ring)
    rw [hsum]
    exact jacStandsFor_some hz30

/-- The values of the addition formulas, for triples of the affine values `x₁`, `y₁` and `x₂`, `y₂`. -/
theorem residueValue_jadd (h : FieldValid c) {p q : Jac} (hpz0 : p.z ≠ 0) (hqz0 : q.z ≠ 0)
    (hu : fmul c p.x (fsqr c q.z) ≠ fmul c q.x (fsqr c p.z)) {x₁ y₁ x₂ y₂ w : ZMod c.modulus}
    (hx₁ : residueValue c p.x = x₁ * residueValue c p.z ^ 2)
    (hy₁ : residueValue c p.y = y₁ * residueValue c p.z ^ 3)
    (hx₂ : residueValue c q.x = x₂ * residueValue c q.z ^ 2)
    (hy₂ : residueValue c q.y = y₂ * residueValue c q.z ^ 3)
    (hw : w = residueValue c p.z * residueValue c q.z) :
    residueValue c (jadd c p q).x =
        4 * w ^ 6 * ((y₂ - y₁) ^ 2 - (x₂ - x₁) ^ 2 * (x₁ + x₂)) ∧
      residueValue c (jadd c p q).y = 2 * w ^ 3 * (y₂ - y₁) *
        (4 * w ^ 6 * x₁ * (x₂ - x₁) ^ 2 - residueValue c (jadd c p q).x) -
          8 * w ^ 9 * y₁ * (x₂ - x₁) ^ 3 ∧
      residueValue c (jadd c p q).z = 2 * w ^ 3 * (x₂ - x₁) := by
  have hmul := fmul_lt (modulus_pos h)
  have hsqr := fsqr_lt (modulus_pos h)
  have hx3 : ∀ a b d e, fsub c (fsub c (fsqr c a) (fmul c b d)) (fdbl c (fmul c e d)) < c.modulus :=
    fun a b d e => fsub_lt (fsub_lt (hsqr _) (hmul _ _)) (fdbl_lt (hmul _ _))
  rw [jadd, if_neg hpz0, if_neg hqz0, if_neg hu]
  simp only [residueValue_fsub _ (hmul _ _), residueValue_fsub _ (hsqr _),
    residueValue_fsub _ (fdbl_lt (hmul _ _)), residueValue_fsub _ (hx3 _ _ _ _), residueValue_fdbl,
    residueValue_fadd, residueValue_fmul, residueValue_fsqr, hx₁, hy₁, hx₂, hy₂, hw]
  refine ⟨?_, ?_, ?_⟩
  · ring
  · ring
  · ring

/-- The triple of the addition formulas is the third point of the chord. -/
theorem jadd_third_point {x₁ y₁ x₂ y₂ w X Y Z : ZMod c.modulus} (h2 : (2 : ZMod c.modulus) ≠ 0)
    (hw : w ≠ 0) (hd : x₂ - x₁ ≠ 0)
    (hX : X = 4 * w ^ 6 * ((y₂ - y₁) ^ 2 - (x₂ - x₁) ^ 2 * (x₁ + x₂)))
    (hY : Y = 2 * w ^ 3 * (y₂ - y₁) * (4 * w ^ 6 * x₁ * (x₂ - x₁) ^ 2 - X) -
      8 * w ^ 9 * y₁ * (x₂ - x₁) ^ 3)
    (hZ : Z = 2 * w ^ 3 * (x₂ - x₁)) :
    X / Z ^ 2 = ((y₂ - y₁) / (x₂ - x₁)) ^ 2 - x₁ - x₂ ∧
      Y / Z ^ 3 = (y₂ - y₁) / (x₂ - x₁) * (x₁ - X / Z ^ 2) - y₁ := by
  subst hX hY hZ
  constructor
  · field_simp
    ring
  · field_simp
    ring

/-- The formulas of rule R116 are the group law. -/
theorem jacStandsFor_jadd (h : FieldValid c) {p q : Jac} {P Q : (curveOf c).Point}
    (hp : Canonical c (jacCoords p)) (hq : Canonical c (jacCoords q)) (hP : JacStandsFor c p P)
    (hQ : JacStandsFor c q Q) : JacStandsFor c (jadd c p q) (P + Q) := by
  have hdbl := jacStandsFor_jdbl h hp hP
  rcases hP with ⟨hpz0, rfl⟩ | ⟨hpz0, h₁, rfl⟩
  · rw [jadd, if_pos hpz0, ← Point.zero_def, zero_add]
    exact hQ
  rcases hQ with ⟨hqz0, rfl⟩ | ⟨hqz0, h₂, rfl⟩
  · rw [jadd, if_neg hpz0, if_pos hqz0, ← Point.zero_def, add_zero]
    exact jacStandsFor_some hpz0
  obtain ⟨-, -, hpz⟩ := canonical_jacCoords.1 hp
  obtain ⟨-, -, hqz⟩ := canonical_jacCoords.1 hq
  have hpv := residueValue_ne_zero h hpz hpz0
  have hqv := residueValue_ne_zero h hqz hqz0
  have hxiff : fmul c p.x (fsqr c q.z) = fmul c q.x (fsqr c p.z) ↔
      residueValue c p.x / residueValue c p.z ^ 2 = residueValue c q.x / residueValue c q.z ^ 2 := by
    rw [fmul_eq_fmul_iff h, residueValue_fsqr, residueValue_fsqr,
      div_eq_div_iff (pow_ne_zero 2 hpv) (pow_ne_zero 2 hqv)]
  have hyiff : fmul c p.y (fmul c q.z (fsqr c q.z)) = fmul c q.y (fmul c p.z (fsqr c p.z)) ↔
      residueValue c p.y / residueValue c p.z ^ 3 = residueValue c q.y / residueValue c q.z ^ 3 := by
    rw [fmul_eq_fmul_iff h, residueValue_fmul, residueValue_fmul, residueValue_fsqr,
      residueValue_fsqr, ← pow_succ', ← pow_succ',
      div_eq_div_iff (pow_ne_zero 3 hpv) (pow_ne_zero 3 hqv)]
  by_cases hu : fmul c p.x (fsqr c q.z) = fmul c q.x (fsqr c p.z)
  · have hx := hxiff.1 hu
    by_cases hs : fmul c p.y (fmul c q.z (fsqr c q.z)) = fmul c q.y (fmul c p.z (fsqr c p.z))
    · rw [jadd, if_neg hpz0, if_neg hqz0, if_pos hu, if_pos hs, ← some_congr (h := h₁) hx (hyiff.1 hs)]
      exact hdbl
    · have h₂' := h₂
      rw [← hx] at h₂'
      have hopp := (eq_or_opposite h₁ h₂').resolve_left fun heq => hs (hyiff.2 heq)
      rw [jadd, if_neg hpz0, if_neg hqz0, if_pos hu, if_neg hs,
        some_congr (h := h₂) (h' := h₂') hx.symm rfl, opposite_sum h₁ h₂' hopp]
      exact jacStandsFor_zero rfl
  · have hx := mt hxiff.2 hu
    obtain ⟨hvx, hvy, hvz⟩ := residueValue_jadd h hpz0 hqz0 hu
      (div_mul_cancel₀ _ (pow_ne_zero 2 hpv)).symm (div_mul_cancel₀ _ (pow_ne_zero 3 hpv)).symm
      (div_mul_cancel₀ _ (pow_ne_zero 2 hqv)).symm (div_mul_cancel₀ _ (pow_ne_zero 3 hqv)).symm rfl
    obtain ⟨-, -, hz3⟩ := canonical_jacCoords.1 (canonical_jadd h hp hq)
    have h2 := two_ne_zero_of_fieldValid h
    have hd := sub_ne_zero.2 (Ne.symm hx)
    have hz30 : (jadd c p q).z ≠ 0 := by
      rw [Ne, ← residueValue_eq_zero h hz3, hvz]
      exact mul_ne_zero (mul_ne_zero h2 (pow_ne_zero 3 (mul_ne_zero hpv hqv))) hd
    obtain ⟨hx₃, hy₃⟩ := jadd_third_point h2 (mul_ne_zero hpv hqv) hd hvx hvy hvz
    obtain ⟨h₃, hsum⟩ := exists_add_chord (h₁ := h₁) (h₂ := h₂) hx (div_mul_cancel₀ _ hd) hx₃ hy₃
    rw [hsum]
    exact jacStandsFor_some hz30

theorem jacStandsFor_negJac {p : Jac} {P : (curveOf c).Point} (hy : p.y < c.modulus)
    (hP : JacStandsFor c p P) : JacStandsFor c (negJac c p) (-P) := by
  rcases hP with ⟨hz0, rfl⟩ | ⟨hz0, hp, rfl⟩
  · exact jacStandsFor_zero hz0
  · have hneg : (curveOf c).negY (residueValue c p.x / residueValue c p.z ^ 2)
        (residueValue c p.y / residueValue c p.z ^ 3) =
          residueValue c (negJac c p).y / residueValue c p.z ^ 3 := by
      rw [negY, negJac, residueValue_fneg hy]
      ring
    exact .inr ⟨hz0, hneg ▸ (nonsingular_neg ..).2 hp, some_congr rfl hneg⟩

/-! ### The double-and-add loop (rule R121) -/

/-- The loop over the low `n` bits doubles the accumulator `n` times and adds these bits' multiple. -/
theorem jacStandsFor_jmulBits (h : FieldValid c) {p : Jac} {P : (curveOf c).Point}
    (hp : Canonical c (jacCoords p)) (hP : JacStandsFor c p P) (k n : Nat) {acc : Jac}
    {A : (curveOf c).Point} (hacc : Canonical c (jacCoords acc)) (hA : JacStandsFor c acc A) :
    JacStandsFor c (jmulBits c p k n acc) (2 ^ n • A + (k % 2 ^ n) • P) := by
  induction n generalizing acc A with
  | zero => simpa [jmulBits, Nat.mod_one] using hA
  | succ n ih =>
    have hdbl := canonical_jdbl h acc
    have hAA := jacStandsFor_jdbl h hacc hA
    have hdouble : 2 ^ (n + 1) • A = 2 ^ n • (A + A) := by rw [pow_succ, mul_nsmul', two_nsmul]
    rw [jmulBits, Nat.mod_pow_succ, ← Nat.toNat_testBit, hdouble]
    cases hbit : k.testBit n with
    | true =>
      have hsum : 2 ^ n • (A + A) + (k % 2 ^ n + 2 ^ n * true.toNat) • P =
          2 ^ n • (A + A + P) + (k % 2 ^ n) • P := by
        rw [Bool.toNat_true, mul_one, add_nsmul, nsmul_add (A + A) P]
        abel
      rw [hsum]
      exact ih (canonical_jadd h hdbl hp) (jacStandsFor_jadd h hdbl hp hAA hP)
    | false => simpa using ih hdbl hAA

end Points

/-! ### The statements -/

/-- Settles O40: infinities, opposite points, the tangent and the chord, each Mathlib's own case. -/
theorem addAffineIsGroupLaw : Obligations.AddAffineIsGroupLaw := by
  intro c _ hodd p q P Q hc hP hQ
  have h := fieldValid_of_fact hodd
  obtain ⟨hp, hq⟩ := List.forall_mem_append.1 hc
  obtain ⟨-, hy⟩ := canonical_affCoords.1 hp
  exact ⟨affStandsFor_addAffine h hp hq hP hQ, canonical_addAffine h hp hq,
    affStandsFor_negAffine hy hP⟩

/-- Settles O41: the formulas' triple has the affine values of the chord's or tangent's third point. -/
theorem jacobianFormulasAdd : Obligations.JacobianFormulasAdd := by
  intro c _ hodd p q P Q hc hP hQ
  have h := fieldValid_of_fact hodd
  obtain ⟨hp, hq⟩ := List.forall_mem_append.1 hc
  obtain ⟨-, hy, -⟩ := canonical_jacCoords.1 hp
  exact ⟨jacStandsFor_jadd h hp hq hP hQ, jacStandsFor_jdbl h hp hP, jacStandsFor_negJac hy hP,
    List.forall_mem_append.2 ⟨canonical_jadd h hp hq, canonical_jdbl h p⟩⟩

/-- Settles O42: the loop over all bits of the stored width, from an accumulator that stands for `O`. -/
theorem scalarMultipleLoop : Obligations.ScalarMultipleLoop := by
  intro c _ hodd p P k hp hP hk
  have h := fieldValid_of_fact hodd
  have hloop := jacStandsFor_jmulBits h hp hP k (8 * c.scalarBytes) (canonical_jacZero h)
    (jacStandsFor_zero (p := jacZero) rfl)
  rw [nsmul_zero, zero_add, Nat.mod_eq_of_lt hk] at hloop
  exact hloop

end Sys2Proof.Machine
end

section
/-! PROOFS. Sums of points as the commands compute them (`44_chain_reduce.md`, `45_multiexp.md`): every
triple is canonical, the chunks are those of rule R192, and where every task fits all of them run; then
the commands that write such a sum. -/

namespace Sys2Proof.Machine

/-! ### Canonical sums -/

theorem canonical_signedPoint {c : Config} (h : FieldValid c) {ps : List Aff}
    (hps : ∀ p ∈ ps, Canonical c (affCoords p)) (e : EntryWord) :
    Canonical c (affCoords (signedPoint c ps e)) := by
  have hget : Canonical c (affCoords (ps.getD (pointIndex e) affZero)) := by
    rw [List.getD_eq_getElem?_getD]
    cases hp : ps[pointIndex e]? with
    | none => exact canonical_affZero h
    | some p => exact hps p (List.mem_of_getElem? hp)
  unfold signedPoint
  dsimp only
  split
  · exact canonical_negAffine hget
  · exact hget

theorem canonical_pairwiseSums {c : Config} (h : FieldValid c) : ∀ {l : List Aff},
    (∀ p ∈ l, Canonical c (affCoords p)) → ∀ p ∈ pairwiseSums c l, Canonical c (affCoords p)
  | [], hl => hl
  | [_], hl => hl
  | p :: q :: rest, hl => by
    obtain ⟨hp, hl⟩ := List.forall_mem_cons.1 hl
    obtain ⟨hq, hl⟩ := List.forall_mem_cons.1 hl
    rw [pairwiseSums]
    exact List.forall_mem_cons.2 ⟨canonical_addAffine h hp hq, canonical_pairwiseSums h hl⟩

theorem canonical_chainPasses {c : Config} (h : FieldValid c) (n : Nat) {ls : List (List Aff)}
    (hls : ∀ l ∈ ls, ∀ p ∈ l, Canonical c (affCoords p)) :
    ∀ l ∈ chainPasses c n ls, ∀ p ∈ l, Canonical c (affCoords p) := by
  induction n generalizing ls with
  | zero => exact hls
  | succ n ih =>
    rw [chainPasses]
    split
    · exact ih (List.forall_mem_map.2 fun l hl => canonical_pairwiseSums h (hls l hl))
    · exact hls

theorem canonical_chainReduce {c : Config} (h : FieldValid c) {ls : List (List Aff)}
    (hls : ∀ l ∈ ls, ∀ p ∈ l, Canonical c (affCoords p)) :
    ∀ p ∈ chainReduce c ls, Canonical c (affCoords p) := by
  refine List.forall_mem_map.2 fun l hl => ?_
  have hpoints := canonical_chainPasses h (longest ls) hls l hl
  cases l with
  | nil => exact canonical_affZero h
  | cons p rest => exact hpoints p List.mem_cons_self

theorem canonical_bucketSum {c : Config} (h : FieldValid c) {bs : List Aff}
    (hbs : ∀ b ∈ bs, Canonical c (affCoords b)) : Canonical c (jacCoords (bucketSum c bs)) := by
  refine (List.foldlRecOn (motive := fun ra : Jac × Jac => Canonical c (jacCoords ra.1) ∧
    Canonical c (jacCoords ra.2)) bs.reverse _ ⟨canonical_jacZero h, canonical_jacZero h⟩ ?_).2
  rintro ⟨running, acc⟩ ⟨hrunning, hacc⟩ b hb
  have hnext := canonical_jadd h hrunning (canonical_toJac h (hbs b (List.mem_reverse.1 hb)))
  exact ⟨hnext, canonical_jadd h hacc hnext⟩

theorem canonical_jdblTimes {c : Config} (h : FieldValid c) (n : Nat) {p : Jac}
    (hp : Canonical c (jacCoords p)) : Canonical c (jacCoords (jdblTimes c n p)) := by
  induction n generalizing p with
  | zero => exact hp
  | succ n ih => exact ih (canonical_jdbl h p)

theorem canonical_roundFold {c : Config} (h : FieldValid c) (w : Nat) {rs : List Jac}
    (hrs : ∀ r ∈ rs, Canonical c (jacCoords r)) : Canonical c (jacCoords (roundFold c w rs)) :=
  List.foldlRecOn (motive := fun p => Canonical c (jacCoords p)) rs.reverse _ (canonical_jacZero h)
    fun _ hacc r hr => canonical_jadd h (canonical_jdblTimes h w hacc) (hrs r (List.mem_reverse.1 hr))

theorem canonical_roundSum {c : Config} (h : FieldValid c) (w : Nat) {ps : List Aff}
    (hps : ∀ p ∈ ps, Canonical c (affCoords p)) (es : List EntryWord) :
    Canonical c (jacCoords (roundSum c w ps es)) :=
  canonical_bucketSum h <| canonical_chainReduce h <| List.forall_mem_map.2 fun _ _ =>
    List.forall_mem_map.2 fun e _ => canonical_signedPoint h hps e

theorem canonical_bucketMethod {c : Config} (h : FieldValid c) (w bits : Nat) {ps : List Aff}
    (hps : ∀ p ∈ ps, Canonical c (affCoords p)) (ks : List Nat) :
    Canonical c (jacCoords (bucketMethod c w bits ps ks)) :=
  canonical_roundFold h w (List.forall_mem_map.2 fun es _ => canonical_roundSum h w hps es)

theorem canonical_endomorphism {c : Config} (h : FieldValid c) {p : Aff}
    (hp : Canonical c (affCoords p)) : Canonical c (affCoords (endomorphism c p)) :=
  canonical_affCoords.2 ⟨fmul_lt (modulus_pos h) _ _, (canonical_affCoords.1 hp).2⟩

theorem canonical_foldSign {c : Config} (k : Int) {p : Aff} (hp : Canonical c (affCoords p)) :
    Canonical c (affCoords (foldSign c k p)) := by
  unfold foldSign
  split
  · exact canonical_negAffine hp
  · exact hp

theorem canonical_taskInputs {c : Config} (h : FieldValid c) {pks : List (Aff × Nat)}
    (hpks : ∀ pk ∈ pks, Canonical c (affCoords pk.1)) :
    ∀ e ∈ taskInputs c pks, Canonical c (affCoords e.1) := by
  unfold taskInputs
  split
  · refine List.forall_mem_flatMap.2 fun pk hpk => ?_
    have hp := hpks pk hpk
    exact List.forall_mem_cons.2 ⟨canonical_foldSign _ hp,
      List.forall_mem_singleton.2 (canonical_foldSign _ (canonical_endomorphism h hp))⟩
  · exact hpks

theorem canonical_foldChunks {c : Config} (h : FieldValid c) {rs : List Jac}
    (hrs : ∀ r ∈ rs, Canonical c (jacCoords r)) : Canonical c (jacCoords (foldChunks c rs)) :=
  List.foldlRecOn (motive := fun p => Canonical c (jacCoords p)) rs _ (canonical_jacZero h)
    fun _ hacc r hr => canonical_jadd h hacc (hrs r hr)

theorem canonical_naiveMultiExp {c : Config} (h : FieldValid c) {pks : List (Aff × Nat)}
    (hpks : ∀ pk ∈ pks, Canonical c (affCoords pk.1)) :
    Canonical c (jacCoords (naiveMultiExp c pks)) :=
  List.foldlRecOn (motive := fun p => Canonical c (jacCoords p)) pks _ (canonical_jacZero h)
    fun _ hacc pk hpk => canonical_jadd h hacc (canonical_jmul h (canonical_toJac h (hpks pk hpk)) _)

/-! ### The chunks of rule R192 -/

theorem chunkSize_pos {c : Config} (hd : DispatchValid c) (n : Nat) : 0 < chunkSize c n := by
  obtain ⟨-, hmin, hmax, -⟩ := hd
  unfold chunkSize
  omega

/-- One chunk more than the rest of the list has. -/
theorem ceilDiv_eq_succ {n size : Nat} (hn : 0 < n) (hsize : 0 < size) :
    ceilDiv n size = ceilDiv (n - size) size + 1 := by
  unfold ceilDiv
  rw [← Nat.add_div_right _ hsize]
  rcases le_total size n with hle | hle
  · congr 1
    omega
  · rw [Nat.sub_eq_zero_of_le hle, Nat.div_eq_of_lt_le (k := 1), Nat.div_eq_of_lt_le (k := 1)]
    all_goals omega

/-- The list cut into chunks, as the chunks by their index. -/
theorem chunksOf_eq_map {α : Type} {size : Nat} (hsize : 0 < size) (n : Nat) (l : List α)
    (hn : l.length ≤ n) : chunksOf size n l =
      (List.range (ceilDiv l.length size)).map fun j => (l.drop (j * size)).take size := by
  have hempty : ceilDiv 0 size = 0 := Nat.div_eq_of_lt (by omega)
  induction n generalizing l with
  | zero =>
    rw [List.length_eq_zero_iff.1 (Nat.le_zero.1 hn), chunksOf, List.length_nil, hempty]
    rfl
  | succ n ih =>
    cases l with
    | nil =>
      rw [chunksOf, List.length_nil, hempty]
      rfl
    | cons x xs =>
      have hrest : ((x :: xs).drop size).length ≤ n := by
        rw [List.length_drop]
        omega
      have hlen : 0 < (x :: xs).length := Nat.succ_pos _
      rw [chunksOf, ih _ hrest, ceilDiv_eq_succ hlen hsize, List.range_succ_eq_map, List.map_cons, List.map_map, Nat.zero_mul, List.drop_zero,
        List.length_drop]
      refine congrArg _ (List.map_congr_left fun j _ => ?_)
      rw [Function.comp_apply, List.drop_drop, Nat.succ_mul, Nat.add_comm]

/-- The chunks a multi-exponentiation makes (rule R192). -/
theorem chunksOf_eq_chunkAt {c : Config} (hd : DispatchValid c) (pks : List (Aff × Nat)) :
    chunksOf (chunkSize c pks.length) pks.length pks =
      (List.range (chunkCount c pks.length)).map (chunkAt c pks) :=
  chunksOf_eq_map (chunkSize_pos hd _) _ _ le_rfl

theorem mem_of_mem_chunkAt {c : Config} {pks : List (Aff × Nat)} {j : Nat} {pk : Aff × Nat}
    (h : pk ∈ chunkAt c pks j) : pk ∈ pks := List.mem_of_mem_drop (List.mem_of_mem_take h)

/-! ### Chunk tasks (rules R193, R196) -/

/-- What a chunk task that raises nothing computes (rule R193). -/
def taskSum (c : Config) (pks : List (Aff × Nat)) : Jac :=
  bucketMethod c (taskWidth c pks.length) (taskBits c) ((taskInputs c pks).map Prod.fst)
    ((taskInputs c pks).map Prod.snd)

/-- All a chunk task can do: raise its fault, or compute its sum. -/
theorem chunkTask_eq (c : Config) (pks : List (Aff × Nat)) :
    chunkTask c pks = (taskFault c pks).elim (.ok (taskSum c pks)) .error := by
  unfold chunkTask taskFault arenaAlloc
  rw [Nat.zero_add]
  by_cases harena : c.arenaSize < taskDemand c pks.length
  · simp only [if_pos harena, Option.elim]
  · have hglv : (c.glvEnabled && pks.any fun pk => !glvFits c pk.2) = true ↔
        c.glvEnabled = true ∧ ∃ pk ∈ pks, glvFits c pk.2 = false := by simp
    simp only [if_neg harena, hglv]
    split
    · rfl
    · rfl

theorem canonical_taskSum {c : Config} (h : FieldValid c) {pks : List (Aff × Nat)}
    (hpks : ∀ pk ∈ pks, Canonical c (affCoords pk.1)) : Canonical c (jacCoords (taskSum c pks)) :=
  canonical_bucketMethod h _ _ (List.forall_mem_map.2 (canonical_taskInputs h hpks)) _

/-- Where no task raises anything, all of them run. -/
theorem runTasks_eq_ok {c : Config} {ts : List (List (Aff × Nat))}
    (hts : ∀ t ∈ ts, taskFault c t = none) : runTasks c ts = .ok (ts.map (taskSum c)) := by
  induction ts with
  | nil => rfl
  | cons t ts ih =>
    obtain ⟨ht, hts⟩ := List.forall_mem_cons.1 hts
    rw [runTasks, chunkTask_eq, ht, ih hts]
    rfl

/-- The sums of the chunk tasks, in chunk order (rule R194). -/
def chunkSums (c : Config) (pks : List (Aff × Nat)) : List Jac :=
  (List.range (chunkCount c pks.length)).map fun j => taskSum c (chunkAt c pks j)

theorem canonical_chunkSums {c : Config} (h : FieldValid c) {pks : List (Aff × Nat)}
    (hpks : ∀ pk ∈ pks, Canonical c (affCoords pk.1)) :
    ∀ r ∈ chunkSums c pks, Canonical c (jacCoords r) :=
  List.forall_mem_map.2 fun _ _ =>
    canonical_taskSum h fun pk hpk => hpks pk (mem_of_mem_chunkAt hpk)

theorem multiExp_eq_ok {c : Config} (hd : DispatchValid c) {pks : List (Aff × Nat)}
    (hfit : TasksFit c pks) : multiExp c pks = .ok (foldChunks c (chunkSums c pks)) := by
  have hts : ∀ t ∈ (List.range (chunkCount c pks.length)).map (chunkAt c pks), taskFault c t = none :=
    List.forall_mem_map.2 fun j hj => hfit j (List.mem_range.1 hj)
  rw [multiExp, chunksOf_eq_chunkAt hd, runTasks_eq_ok hts, List.map_map]
  rfl

theorem multiExp_nil (c : Config) : multiExp c [] = .ok jacZero := rfl

/-! ### The stage commands that write a sum -/

theorem bred_runsOn (grp : Byte) (dst bs c : Word) (s : State) :
    RunsOn (.bred grp dst bs c) s (affsCoords (affsAt s bs (bucketCount s.cfg c.toNat)))
      (.ok (storeJacResult s dst (allOnCurve s.cfg (affsAt s bs (bucketCount s.cfg c.toNat)))
        (bucketSum s.cfg (affsAt s bs (bucketCount s.cfg c.toNat))))) := rfl

theorem rfold_runsOn (grp : Byte) (dst rs m c : Word) (s : State) :
    RunsOn (.rfold grp dst rs m c) s (jacsCoords (jacsAt s rs m.toNat))
      (.ok (storeJacResult s dst ((jacsAt s rs m.toNat).all (onCurveJ s.cfg))
        (roundFold s.cfg c.toNat (jacsAt s rs m.toNat)))) := rfl

/-- Settles O53: the triple written is of the class of the sweep's, or of the fold's. -/
theorem sweepAndFoldResults : Obligations.SweepAndFoldResults := by
  intro s grp dst src m c h
  refine ⟨fun hadm => ⟨fun hc => ?sweep, (bred_runsOn grp dst src c s).traps hadm⟩,
    fun hadm => ⟨fun hc => ?fold, (rfold_runsOn grp dst src m c s).traps hadm⟩⟩
  case sweep =>
    exact ⟨_, (bred_runsOn grp dst src c s).completes hadm hc, rfl,
      wroteClassOf_storeJacResult h (keepsRegisters_refl s) rfl dst (allOnCurve_of_onCurveAff h)
        (canonical_bucketSum h (canonical_affsCoords.1 hc))⟩
  case fold =>
    have hrounds := canonical_jacsCoords.1 hc
    refine ⟨_, (rfold_runsOn grp dst src m c s).completes hadm hc, rfl,
      wroteClassOf_storeJacResult h (keepsRegisters_refl s) rfl dst (fun hon => ?_)
        (canonical_roundFold h _ hrounds)⟩
    refine List.all_eq_true.2 fun r hr => ?_
    obtain ⟨-, -, hz⟩ := canonical_jacCoords.1 (hrounds r hr)
    exact onCurveJ_of_onCurveJac h hz (hon r hr)

/-! ### The multi-exponentiation commands -/

/-- An admitted `MEXP` or `MEXPN` goes on to the entry checks of its own (rules R190, R197). -/
theorem checkEntry_of_admitted {i : Instr} {grp : Byte} {dst ps psLen ks ksLen n : Word} {s : State}
    (hi : i = .mexp grp dst ps psLen ks ksLen n ∨ i = .mexpn grp dst ps psLen ks ksLen n)
    (hadm : Admitted s.cfg i) (k : Except Cause State) :
    checkEntry grp dst ps psLen ks ksLen n s k =
      check (psLen.toNat % (2 * n8 s.cfg) = 0 ∧ ksLen.toNat % s.cfg.scalarBytes = 0)
        .lengthNotMultiple (check
          (psLen.toNat / (2 * n8 s.cfg) = n.toNat ∧ ksLen.toNat / s.cfg.scalarBytes = n.toNat)
          .countMismatch (checkCanonical s.cfg (affsCoords (affsAt s ps n.toNat)) k)) := by
  obtain ⟨hwf, haddr⟩ := hadm
  simp only [Instr.wellFormed, Bool.and_eq_true] at hwf
  obtain ⟨⟨hgrp, -⟩, -⟩ := hwf
  rcases hi with rfl | rfl
  · exact (check_pos hgrp).trans (checkOperands_pos haddr _)
  · exact (check_pos hgrp).trans (checkOperands_pos haddr _)

/-- Buffers that hold `n` elements each, with canonical points, pass the entry checks. -/
theorem checkEntry_pos {i : Instr} {grp : Byte} {dst ps psLen ks ksLen n : Word} {s : State}
    (hi : i = .mexp grp dst ps psLen ks ksLen n ∨ i = .mexpn grp dst ps psLen ks ksLen n)
    (hadm : Admitted s.cfg i) (hn8 : 0 < n8 s.cfg) (hbytes : 0 < s.cfg.scalarBytes)
    (hps : psLen.toNat = n.toNat * (2 * n8 s.cfg)) (hks : ksLen.toNat = n.toNat * s.cfg.scalarBytes)
    (hc : Canonical s.cfg (affsCoords (affsAt s ps n.toNat))) (k : Except Cause State) :
    checkEntry grp dst ps psLen ks ksLen n s k = k := by
  rw [checkEntry_of_admitted hi hadm, hps, hks, Nat.mul_mod_left, Nat.mul_mod_left,
    Nat.mul_div_cancel _ (by omega), Nat.mul_div_cancel _ hbytes, check_pos ⟨rfl, rfl⟩,
    check_pos ⟨rfl, rfl⟩, checkCanonical, check_pos hc]

theorem n8_pos {c : Config} (h : FieldValid c) : 0 < n8 c := by
  refine Nat.pos_of_ne_zero fun h0 => ?_
  have hlt := modulus_lt_montR c
  rw [montR, h0] at hlt
  have := two_lt_modulus h
  omega

theorem canonical_pointScalars {s : State} {ps ks : Word} {n : Nat}
    (hc : Canonical s.cfg (affsCoords (affsAt s ps n))) :
    ∀ pk ∈ pointScalars s ps ks n, Canonical s.cfg (affCoords pk.1) :=
  fun _ hpk => canonical_affsCoords.1 hc _ (List.of_mem_zip hpk).1

/-- Settles O58: no task, and the triple written is of the class of the naive sum's. -/
theorem mexpnResult : Obligations.MexpnResult := by
  intro s grp dst ps psLen ks ksLen n h hbytes hadm hps hks hc
  have hexec : exec (.mexpn grp dst ps psLen ks ksLen n) s =
      .next (storeJacResult s dst (allOnCurve s.cfg (affsAt s ps n.toNat))
        (naiveMultiExp s.cfg (pointScalars s ps ks n.toNat))) :=
    congrArg (runCommand _ s) (checkEntry_pos (.inr rfl) hadm (n8_pos h) hbytes hps hks hc _)
  exact ⟨_, hexec, rfl, wroteClassOf_storeJacResult h (keepsRegisters_refl s) rfl dst
    (allOnCurve_of_onCurveAff h) (canonical_naiveMultiExp h (canonical_pointScalars hc))⟩

/-- `MEXP` past its checks, where its tasks have the sum `sum` (rules R191, R195). -/
theorem exec_mexp_of_multiExp {grp : Byte} {dst ps psLen ks ksLen n : Word} {s : State} {sum : Jac}
    (h : FieldValid s.cfg) (hbytes : 0 < s.cfg.scalarBytes)
    (hadm : Admitted s.cfg (.mexp grp dst ps psLen ks ksLen n))
    (hps : psLen.toNat = n.toNat * (2 * n8 s.cfg)) (hks : ksLen.toNat = n.toNat * s.cfg.scalarBytes)
    (hc : Canonical s.cfg (affsCoords (affsAt s ps n.toNat)))
    (hsum : multiExp s.cfg (pointScalars s ps ks n.toNat) = .ok sum) :
    exec (.mexp grp dst ps psLen ks ksLen n) s =
      .next (finishMexp s dst (pointScalars s ps ks n.toNat) sum) := by
  refine (congrArg (runCommand _ s)
    (checkEntry_pos (.inl rfl) hadm (n8_pos h) hbytes hps hks hc _)).trans ?_
  rw [hsum]
  rfl

theorem wroteClassOf_finishMexp {s : State} (h : FieldValid s.cfg) (dst : Word)
    (pks : List (Aff × Nat)) {sum : Jac} (hsum : Canonical s.cfg (jacCoords sum)) :
    WroteClassOf s (finishMexp s dst pks sum) dst
      (∀ e ∈ pks ++ taskInputs s.cfg pks, OnCurveAff s.cfg e.1) sum := by
  have hon : (∀ e ∈ pks ++ taskInputs s.cfg pks, OnCurveAff s.cfg e.1) →
      (allOnCurve s.cfg (pks.map Prod.fst) &&
        allOnCurve s.cfg ((taskInputs s.cfg pks).map Prod.fst)) = true := fun hall => by
    obtain ⟨hpks, hinputs⟩ := List.forall_mem_append.1 hall
    rw [allOnCurve_of_onCurveAff h (List.forall_mem_map.2 hpks),
      allOnCurve_of_onCurveAff h (List.forall_mem_map.2 hinputs), Bool.and_self]
  unfold finishMexp
  split
  · exact wroteClassOf_storeJacResult h (keepsRegisters_refl s) rfl dst hon hsum
  · exact wroteClassOf_storeJacResult h (u := retireWorkers s) (keepsRegisters_refl s) rfl dst hon hsum

theorem finishMexp_nil_workers (s : State) (dst : Word) (sum : Jac) :
    (finishMexp s dst [] sum).workers = s.workers := rfl

theorem finishMexp_workers {s : State} {pks : List (Aff × Nat)} (hpks : pks ≠ []) (dst : Word)
    (sum : Jac) : (finishMexp s dst pks sum).workers = idleWorkers s := by
  rw [finishMexp, if_neg hpks]
  rfl

/-- Settles O55: all tasks run, and the triple written is of the class of their fold. -/
theorem mexpResult : Obligations.MexpResult := by
  intro s grp dst ps psLen ks ksLen n h hd hadm hps hks hc hfit
  obtain ⟨-, -, -, -, hbytes, -⟩ := id hd
  have hsum := multiExp_eq_ok hd hfit
  have hcanonical := canonical_foldChunks h
    (canonical_chunkSums h (canonical_pointScalars (ks := ks) hc))
  refine ⟨_, _, exec_mexp_of_multiExp h hbytes hadm hps hks hc hsum, hsum,
    wroteClassOf_finishMexp h dst _ hcanonical, fun hn => ?none, fun hn => ?some⟩
  case none =>
    subst hn
    exact ⟨Except.ok.inj (hsum.symm.trans (multiExp_nil s.cfg)), finishMexp_nil_workers s dst _⟩
  case some =>
    have hne : pointScalars s ps ks n.toNat ≠ [] := fun hnil => hn <| by
      have hlen := congrArg List.length hnil
      rw [pointScalars_length] at hlen
      exact BitVec.eq_of_toNat_eq hlen
    rw [finishMexp_workers hne]
    exact ⟨idleWorkers_length s, fun w => idleWorkers_ap⟩

end Sys2Proof.Machine
end

section
/-! PROOFS. Valid instances with GLV (rules R110, R141 to R144, R242): what the conditions on the parameters
bring about, and what `GLVSPLIT` leaves to be read back. -/

namespace Sys2Proof.Machine

/-! ### The endomorphism -/

/-- With `b ≠ 0` the pair `(0,0)` is not on the curve (rules R110, R111). -/
theorem ne_affZero_of_equation {c : Config} (hb : CurveValid c) {p : Aff}
    (hp : residueValue c p.y ^ 2 = residueValue c p.x ^ 3 + (c.curveB : ZMod c.modulus)) :
    p ≠ affZero := by
  rintro rfl
  have hb0 : (c.curveB : ZMod c.modulus) = 0 := by simpa [affZero] using hp.symm
  exact hb (Nat.mod_eq_zero_of_dvd ((ZMod.natCast_eq_zero_iff _ _).1 hb0))

@[simp] theorem endomorphism_affZero (c : Config) : endomorphism c affZero = affZero := by
  simp [endomorphism, affZero, fmul]

/-- `φ` multiplies `x` by a cube root of 1, so it maps the curve to itself (rule R144). -/
theorem onCurveAff_endomorphism {c : Config} (h : FieldValid c) (he : EndomorphismValid c) {p : Aff}
    (hp : OnCurveAff c p) : OnCurveAff c (endomorphism c p) := by
  obtain ⟨-, hcube, -⟩ := he
  have hbeta : residueValue c c.beta ^ 3 = 1 := by
    rw [residueValue, ← Nat.cast_pow]
    exact (natCast_eq_one_iff h.1.one_lt _).2 hcube
  rcases hp with rfl | hp
  · exact .inl (endomorphism_affZero c)
  · refine .inr ?_
    rw [endomorphism, residueValue_fmul, hp]
    linear_combination -residueValue c p.x ^ 3 * hbeta

/-! ### The split (rule R142) -/

/-- A scalar's split is that of its residue modulo `r`. -/
theorem glvSplit_mod (c : Config) (k : Nat) : glvSplit c (k % c.groupOrder) = glvSplit c k := by
  simp only [glvSplit, Nat.mod_mod]

/-- The two coordinates are the scalar's residue less multiples of the lattice vectors. -/
theorem glvSplit_eq (c : Config) (k : Nat) : ∃ c1 c2 : Int,
    (glvSplit c k).1 = ((k % c.groupOrder : Nat) : Int) - c1 * c.v1 - c2 * c.u1 ∧
      (glvSplit c k).2 = -(c1 * c.v2 + c2 * c.u2) := ⟨_, _, rfl, rfl⟩

theorem glvFits_iff {c : Config} {k : Nat} : glvFits c k = true ↔
    (glvSplit c k).1.natAbs < 2 ^ c.glvBits ∧ (glvSplit c k).2.natAbs < 2 ^ c.glvBits := by
  rw [glvFits, Bool.and_eq_true, decide_eq_true_iff, decide_eq_true_iff]

/-- Condition (f) of rule R141 speaks of the scalars below `r`, and so of all. -/
theorem glvFits_of_valid {c : Config} (hl : LatticeValid c) (hf : SplitsFit c) (k : Nat) :
    glvFits c k = true := by
  obtain ⟨hr, -⟩ := hl
  obtain ⟨hfit, -⟩ := hf
  rw [glvFits_iff, ← glvSplit_mod, ← glvFits_iff]
  exact hfit _ (Nat.mod_lt _ (by omega))

/-- What is taken off the scalar are lattice vectors, so `k1 + k2·λ ≡ k (mod r)` (rule R141 (d)). -/
theorem glvSplit_sum {c : Config} (hl : LatticeValid c) (k : Nat) :
    ((glvSplit c k).1 + (glvSplit c k).2 * c.lambda - k) % c.groupOrder = 0 := by
  obtain ⟨-, hv, hu, -⟩ := hl
  obtain ⟨v, hv⟩ := Int.dvd_of_emod_eq_zero hv
  obtain ⟨u, hu⟩ := Int.dvd_of_emod_eq_zero hu
  have hk : ((k % c.groupOrder : Nat) : Int) = k - c.groupOrder * (k / c.groupOrder : Nat) := by
    rw [eq_sub_iff_add_eq]
    exact_mod_cast Nat.mod_add_div k c.groupOrder
  obtain ⟨c1, c2, h1, h2⟩ := glvSplit_eq c k
  rw [h1, h2, hk]
  exact Int.emod_eq_zero_of_dvd ⟨-(k / c.groupOrder : Nat) - c1 * v - c2 * u,
    by linear_combination -c1 * hv - c2 * hu⟩

theorem taskFault_ne_glvBasis {c : Config} (hfit : ∀ k, glvFits c k = true)
    (pks : List (Aff × Nat)) : taskFault c pks ≠ some .glvBasis := by
  simp only [taskFault, hfit]
  split
  · simp
  · simp

/-! ### `GLVSPLIT` (rule R143) -/

theorem exec_glvsplit_of_fits {s : State} {grp : Byte} {dst k : Word}
    (hglv : s.cfg.glvEnabled = true) (hadm : Admitted s.cfg (.glvsplit grp dst k))
    (hfit : glvFits s.cfg (scalarAt s k.toNat) = true) :
    exec (.glvsplit grp dst k) s = .next (setRes
      (storeScalars s dst [(glvSplit s.cfg (scalarAt s k.toNat)).1.natAbs,
        (glvSplit s.cfg (scalarAt s k.toNat)).2.natAbs])
      (signRes (glvSplit s.cfg (scalarAt s k.toNat)).1 (glvSplit s.cfg (scalarAt s k.toNat)).2)) := by
  obtain ⟨hwf, haddr⟩ := hadm
  simp only [Instr.wellFormed, Bool.and_eq_true] at hwf
  obtain ⟨⟨hgrp, -⟩, -⟩ := hwf
  exact congrArg (runCommand _ s) <| (check_pos hglv).trans <| (check_pos hgrp).trans <|
    (checkOperands_pos haddr _).trans (check_pos hfit)

/-- A part of a string of bytes written is read back. -/
theorem readBytes_writeBytes_append (m : Memory) (a : Nat) (xs ys zs : List Byte) :
    readBytes (writeBytes m a (xs ++ ys ++ zs)) (a + xs.length) ys.length = ys := by
  refine List.ext_getElem (readBytes_length ..) fun i _ hi => ?_
  simp only [readBytes, List.getElem_map, List.getElem_range, readByte_writeBytes]
  rw [if_pos (by simp only [List.length_append]; omega), Nat.add_assoc, Nat.add_sub_cancel_left,
    List.append_assoc]
  simp [List.getElem?_append_right, List.getElem?_append_left, hi]

/-- The two scalars of an array of two, read back. -/
theorem scalarAt_storeScalars_pair (s : State) (dst : Word) {m1 m2 : Nat}
    (h1 : m1 < 256 ^ s.cfg.scalarBytes) (h2 : m2 < 256 ^ s.cfg.scalarBytes) :
    scalarAt (storeScalars s dst [m1, m2]) dst.toNat = m1 ∧
      scalarAt (storeScalars s dst [m1, m2]) (dst.toNat + s.cfg.scalarBytes) = m2 := by
  have hfirst := readBytes_writeBytes_append s.mem dst.toNat [] (scalarBytes s.cfg m1)
    (scalarBytes s.cfg m2 ++ [])
  have hsecond := readBytes_writeBytes_append s.mem dst.toNat (scalarBytes s.cfg m1)
    (scalarBytes s.cfg m2) []
  rw [scalarBytes_length, scalarBytes_length, List.append_assoc] at hsecond
  rw [scalarBytes_length] at hfirst
  constructor
  · exact (congrArg leValue hfirst).trans (leValue_leBytes_of_lt h1)
  · exact (congrArg leValue hsecond).trans (leValue_leBytes_of_lt h2)

/-- The sign bits that `GLVSPLIT` puts into `RES`. -/
theorem signRes_getLsbD (k1 k2 : Int) : (signRes k1 k2).getLsbD 0 = decide (k1 < 0) ∧
    (signRes k1 k2).getLsbD 1 = decide (k2 < 0) := by
  unfold signRes
  by_cases h1 : k1 < 0
  · by_cases h2 : k2 < 0
    · simp [h1, h2]
    · simp [h1, h2]
  · by_cases h2 : k2 < 0
    · simp [h1, h2]
    · simp [h1, h2]

/-- A magnitude with its sign is the number. -/
theorem signed_magnitude {b : Bool} {m : Nat} {k : Int} (hb : b = decide (k < 0))
    (hm : m = k.natAbs) : (if b then (-1 : Int) else 1) * m = k := by
  simp only [hb, hm, decide_eq_true_iff]
  split
  · omega
  · omega

/-- Settles O60: the parameters' conditions clause by clause; the split is read back whole, since it fits. -/
theorem validGlvInstance : Obligations.ValidGlvInstance := by
  rintro c ⟨h, -, -, hb, -, hglvValid⟩ hglv
  obtain ⟨hlattice, hendo, hsplits⟩ := hglvValid hglv
  have hfit := glvFits_of_valid hlattice hsplits
  refine ⟨fun p => ne_affZero_of_equation hb,
    fun p hp hon => ⟨onCurveAff_endomorphism h hendo hon, canonical_endomorphism h hp⟩,
    taskFault_ne_glvBasis hfit, ?_⟩
  rintro s grp dst k rfl hadm
  obtain ⟨hfit1, hfit2⟩ := glvFits_iff.1 (hfit (scalarAt s k.toNat))
  have hwidth : 2 ^ s.cfg.glvBits ≤ 256 ^ s.cfg.scalarBytes := by
    rw [show 256 = 2 ^ 8 from rfl, ← pow_mul]
    exact Nat.pow_le_pow_right two_pos hsplits.2
  obtain ⟨hread1, hread2⟩ := scalarAt_storeScalars_pair s dst (hfit1.trans_le hwidth)
    (hfit2.trans_le hwidth)
  obtain ⟨hsign1, hsign2⟩ := signRes_getLsbD (glvSplit s.cfg (scalarAt s k.toNat)).1
    (glvSplit s.cfg (scalarAt s k.toNat)).2
  refine ⟨_, exec_glvsplit_of_fits hglv hadm (hfit _), rfl, rfl, hread1.trans_lt hfit1,
    hread2.trans_lt hfit2, ?_⟩
  exact (congrArg₂ (fun k1 k2 : Int => (k1 + k2 * s.cfg.lambda - scalarAt s k.toNat) %
      s.cfg.groupOrder) (signed_magnitude hsign1 hread1) (signed_magnitude hsign2 hread2)).trans
    (glvSplit_sum hlattice (scalarAt s k.toNat))

end Sys2Proof.Machine
end

section
/-! PROOFS. The GLV commands and the laws of the split (`42_glv.md`): the rounding is exact, both commands go on
from their static checks to what they read, and the expansion keeps the sum of its inputs. -/

namespace Sys2Proof.Machine

/-! ### The rounding of rule R142 -/

theorem roundDiv_of_pos {num den : Int} (hden : 0 < den) :
    roundDiv num den = ⌊(num : ℚ) / den + 1 / 2⌋ := by
  have hq : (num : ℚ) / den + 1 / 2 = ((2 * num + den : Int) : ℚ) / ((2 * den : Int) : ℚ) := by
    have : (den : ℚ) ≠ 0 := by exact_mod_cast hden.ne'
    push_cast
    field_simp
  rw [hq, Int.floor_div_cast_of_nonneg (by omega), Int.floor_intCast, roundDiv,
    if_neg (not_lt_of_gt hden)]

/-- A negative denominator is made positive first. -/
theorem roundDiv_of_neg {num den : Int} (hden : den < 0) :
    roundDiv num den = roundDiv (-num) (-den) := by
  rw [roundDiv, if_pos hden, roundDiv, if_neg (by omega)]

/-- `round` is the floor of the exact quotient plus a half, whatever the sign of the denominator. -/
theorem roundDiv_eq_floor {num den : Int} (hden : den ≠ 0) :
    roundDiv num den = ⌊(num : ℚ) / den + 1 / 2⌋ := by
  rcases lt_or_gt_of_ne hden with hneg | hpos
  · rw [roundDiv_of_neg hneg, roundDiv_of_pos (by omega), Int.cast_neg, Int.cast_neg, neg_div_neg_eq]
  · exact roundDiv_of_pos hpos

/-- Settles O43: the two coordinates are what `roundDiv` gives, and the congruence is `glvSplit_sum`. -/
theorem glvSplitLaws : Obligations.GlvSplitLaws := by
  intro c hl k
  obtain ⟨-, -, -, hdet⟩ := id hl
  refine ⟨⟨_, _, ?first, ?second, rfl, rfl⟩, glvSplit_sum hl k⟩
  case first =>
    rw [roundDiv_eq_floor hdet]
    push_cast
    rfl
  case second =>
    rw [roundDiv_eq_floor hdet]
    push_cast
    rfl

/-! ### Admitted GLV commands -/

/-- An admitted GLV command passes its static checks. -/
theorem exec_of_admitted_glv {i : Instr} {s : State} {k : Except Cause State} (hi : i.isGlv = true)
    (hadm : Admitted s.cfg i) (hexec : exec i s = runCommand i.opcode s (checkGlv s.cfg <|
      checkGroup i.grp <| checkOperands s.cfg (addressOperands s.cfg i) k)) :
    exec i s = runCommand i.opcode s k := by
  obtain ⟨hwf, haddr⟩ := hadm
  simp only [Instr.wellFormed, Bool.and_eq_true, hi, Bool.not_true, Bool.or_false] at hwf
  obtain ⟨⟨hgrp, hglv⟩, -⟩ := hwf
  rw [hexec, checkGlv, check_pos hglv, checkGroup, check_pos hgrp, checkOperands_pos haddr]

theorem exec_glvsplit {s : State} {grp : Byte} {dst k : Word}
    (hadm : Admitted s.cfg (.glvsplit grp dst k)) : exec (.glvsplit grp dst k) s =
      runCommand 0x30#8 s (check (glvFits s.cfg (scalarAt s k.toNat) = true) .glvBasis <|
        .ok (setRes
          (storeScalars s dst [(glvSplit s.cfg (scalarAt s k.toNat)).1.natAbs,
            (glvSplit s.cfg (scalarAt s k.toNat)).2.natAbs])
          (signRes (glvSplit s.cfg (scalarAt s k.toNat)).1
            (glvSplit s.cfg (scalarAt s k.toNat)).2))) :=
  exec_of_admitted_glv rfl hadm rfl

theorem exec_glvexp {s : State} {grp : Byte} {dstP dstK ps ks n : Word}
    (hadm : Admitted s.cfg (.glvexp grp dstP dstK ps ks n)) :
    exec (.glvexp grp dstP dstK ps ks n) s = runCommand 0x31#8 s
      (checkCanonical s.cfg (affsCoords (affsAt s ps n.toNat)) <|
        check (∀ k ∈ scalarsAt s ks n.toNat, glvFits s.cfg k = true) .glvBasis <|
        .ok (storeTwo s
          dstP.toNat ((glvExpand s.cfg (pointScalars s ps ks n.toNat)).flatMap fun e =>
            affBytes s.cfg e.1)
          dstK.toNat ((glvExpand s.cfg (pointScalars s ps ks n.toNat)).flatMap fun e =>
            scalarBytes s.cfg e.2))) :=
  exec_of_admitted_glv rfl hadm rfl

/-! ### `GLVSPLIT` (rule R143) -/

theorem not_glvFits_iff {c : Config} {k : Nat} : ¬glvFits c k = true ↔
    2 ^ c.glvBits ≤ (glvSplit c k).1.natAbs ∨ 2 ^ c.glvBits ≤ (glvSplit c k).2.natAbs := by
  rw [glvFits_iff, not_and_or, not_lt, not_lt]

theorem storeScalars_pair (s : State) (dst : Word) (m1 m2 : Nat) :
    storeScalars s dst [m1, m2] = storeBytes s dst.toNat
      (leBytes s.cfg.scalarBytes m1 ++ leBytes s.cfg.scalarBytes m2) := by
  simp [storeScalars, scalarBytes]

/-- Settles O44: past the static checks only the check of the two magnitudes is left. -/
theorem glvSplitResult : Obligations.GlvSplitResult := by
  intro s grp dst k hadm k1 k2
  refine ⟨fun hfit => ?_, fun hover => ?_⟩
  · rw [exec_glvsplit hadm, check_pos (glvFits_iff.2 hfit), storeScalars_pair]
    rfl
  · rw [Faults, exec_glvsplit hadm, check_neg (not_glvFits_iff.2 hover)]
    rfl

/-! ### `GLVEXP` (rule R145) -/

/-- The points and scalars of a batch, by their index. -/
theorem pointScalars_eq_map (s : State) (ps ks : Word) (n : Nat) :
    pointScalars s ps ks n = (List.range n).map fun i =>
      (affAt s (ps.toNat + i * (2 * n8 s.cfg)), scalarAt s (ks.toNat + i * s.cfg.scalarBytes)) := by
  rw [pointScalars, affsAt, scalarsAt, arrayAt, arrayAt, List.zip_map']

theorem canonical_affAt_of_affsAt {s : State} {ps : Word} {n i : Nat}
    (hc : Canonical s.cfg (affsCoords (affsAt s ps n))) (hi : i < n) :
    Canonical s.cfg (affCoords (affAt s (ps.toNat + i * (2 * n8 s.cfg)))) :=
  canonical_affsCoords.1 hc _ (List.mem_map_of_mem (List.mem_range.2 hi))

theorem glvFits_scalarsAt_iff {s : State} {ks : Word} {n : Nat} :
    (∀ k ∈ scalarsAt s ks n, glvFits s.cfg k = true) ↔ ∀ i, i < n →
      (glvSplit s.cfg (scalarAt s (ks.toNat + i * s.cfg.scalarBytes))).1.natAbs < 2 ^ s.cfg.glvBits ∧
      (glvSplit s.cfg (scalarAt s (ks.toNat + i * s.cfg.scalarBytes))).2.natAbs <
        2 ^ s.cfg.glvBits := by
  simp only [scalarsAt, arrayAt, List.forall_mem_map, List.mem_range, glvFits_iff]

/-- A sign folded into a canonical point, with `−y` as arithmetic modulo `M`. -/
theorem foldSign_eq_mod {c : Config} {p : Aff} (hy : p.y < c.modulus) (k : Int) :
    foldSign c k p = if k < 0 then ⟨p.x, (c.modulus - p.y) % c.modulus⟩ else p := by
  rw [foldSign, negAffine, fneg_eq_mod hy]

/-- The two outputs of one input are stored side by side, and the inputs one after the other. -/
theorem flatMap_glvExpand {α : Type} (c : Config) (f : Aff × Nat → List α) (pks : List (Aff × Nat)) :
    (glvExpand c pks).flatMap f = pks.flatMap fun pk =>
      f (foldSign c (glvSplit c pk.2).1 pk.1, (glvSplit c pk.2).1.natAbs) ++
        f (foldSign c (glvSplit c pk.2).2 (endomorphism c pk.1), (glvSplit c pk.2).2.natAbs) := by
  simp only [glvExpand, glvEntries, List.flatMap_assoc, List.flatMap_cons, List.flatMap_nil,
    List.append_nil]

/-- Two outputs stored, each spelled another way. -/
theorem wroteTwo_storeTwo (s : State) (a a' : Nat) {bs cs bs' cs' : List Byte} (h : bs = cs)
    (h' : bs' = cs') : WroteTwo s (storeTwo s a bs a' bs') a cs a' cs' := by
  subst h h'
  exact ⟨⟨storeTwo_cfg .., storeTwo_status .., storeTwo_err .., storeTwo_res .., storeTwo_host ..,
    storeTwo_answer ..⟩, storeTwo_workers .., readByte_storeTwo s a bs a' bs'⟩

/-- Settles O45: the checks in their order, then the two outputs, input by input. -/
theorem glvExpandResult : Obligations.GlvExpandResult := by
  intro s grp dstP dstK ps ks n hadm c point split fits fold
  refine ⟨fun hc => ?trap, fun hc => ⟨fun hfit => ?misfit, fun hfit => ?completes⟩⟩
  case trap =>
    rw [Faults, exec_glvexp hadm, checkCanonical, check_neg hc]
    rfl
  case misfit =>
    rw [Faults, exec_glvexp hadm, checkCanonical, check_pos hc,
      check_neg (mt glvFits_scalarsAt_iff.1 hfit)]
    rfl
  case completes =>
    rw [exec_glvexp hadm, checkCanonical, check_pos hc, check_pos (glvFits_scalarsAt_iff.2 hfit)]
    refine ⟨_, rfl, wroteTwo_storeTwo s dstP.toNat dstK.toNat ?points ?scalars⟩
    case points =>
      rw [flatMap_glvExpand, pointScalars_eq_map, List.flatMap_map]
      refine List.flatMap_congr fun i hi => ?_
      obtain ⟨-, hy⟩ := canonical_affCoords.1 (canonical_affAt_of_affsAt hc (List.mem_range.1 hi))
      rw [foldSign_eq_mod hy, foldSign_eq_mod (p := endomorphism c (point i)) hy]
      rfl
    case scalars =>
      rw [flatMap_glvExpand, pointScalars_eq_map, List.flatMap_map]
      rfl

/-! ### The law of rule R146 -/

/-- The two entries of the first input come first. -/
theorem glvExpand_cons (c : Config) (pk : Aff × Nat) (pks : List (Aff × Nat)) :
    glvExpand c (pk :: pks) = (foldSign c (glvSplit c pk.2).1 pk.1, (glvSplit c pk.2).1.natAbs) ::
      (foldSign c (glvSplit c pk.2).2 (endomorphism c pk.1), (glvSplit c pk.2).2.natAbs) ::
        glvExpand c pks := rfl

section Points

variable {c : Config} [Fact c.modulus.Prime]

/-- The group element that a point with a folded-in sign stands for. -/
def signedElement (k : Int) (P : (curveOf c).Point) : (curveOf c).Point := if k < 0 then -P else P

theorem affStandsFor_foldSign {p : Aff} {P : (curveOf c).Point} (hy : p.y < c.modulus)
    (hP : AffStandsFor c p P) (k : Int) : AffStandsFor c (foldSign c k p) (signedElement k P) := by
  unfold foldSign signedElement
  split
  · exact affStandsFor_negAffine hy hP
  · exact hP

/-- The magnitude times the signed element is the signed multiple. -/
theorem natAbs_nsmul_signedElement (k : Int) (P : (curveOf c).Point) :
    k.natAbs • signedElement k P = k • P := by
  unfold signedElement
  split
  · rename_i hneg
    rw [← natCast_zsmul, Int.ofNat_natAbs_of_nonpos hneg.le, neg_zsmul, zsmul_neg, neg_neg]
  · rename_i hnonneg
    rw [← natCast_zsmul, Int.natAbs_of_nonneg (not_lt.1 hnonneg)]

/-- The two halves of a split sum to the scalar's multiple, for a point whose order divides `r`. -/
theorem glvSplit_zsmul (hl : LatticeValid c) (k : Nat) {P : (curveOf c).Point}
    (hP : c.groupOrder • P = 0) :
    (glvSplit c k).1 • P + (glvSplit c k).2 • c.lambda • P = k • P := by
  obtain ⟨m, hm⟩ := Int.dvd_of_emod_eq_zero (glvSplit_sum hl k)
  have hsum : (glvSplit c k).1 + (glvSplit c k).2 * c.lambda = k + m * c.groupOrder := by
    linear_combination hm
  rw [← mul_zsmul', ← add_zsmul, mul_comm c.lambda, hsum, add_zsmul, mul_zsmul, natCast_zsmul,
    natCast_zsmul, hP, zsmul_zero, add_zero]

theorem weightedSum_cons (k : Nat) (ks : List Nat) (P : (curveOf c).Point)
    (Ps : List (curveOf c).Point) :
    weightedSum c (k :: ks) (P :: Ps) = k • P + weightedSum c ks Ps := List.sum_cons

/-- The group elements that the expanded points stand for, with the sum of the points they come from. -/
theorem exists_glvExpand_points (hl : LatticeValid c) {pks : List (Aff × Nat)}
    {Ps : List (curveOf c).Point} (hc : ∀ pk ∈ pks, Canonical c (affCoords pk.1))
    (hPs : List.Forall₂ (fun pk P => GlvPoint c pk.1 P) pks Ps) :
    ∃ Qs : List (curveOf c).Point,
      List.Forall₂ (fun e Q => AffStandsFor c e.1 Q) (glvExpand c pks) Qs ∧
      weightedSum c ((glvExpand c pks).map Prod.snd) Qs = weightedSum c (pks.map Prod.snd) Ps := by
  induction hPs with
  | nil => exact ⟨[], .nil, rfl⟩
  | @cons pk P pks Ps hpoint _ ih =>
    obtain ⟨hpk, hc⟩ := List.forall_mem_cons.1 hc
    obtain ⟨Qs, hQs, hsum⟩ := ih hc
    obtain ⟨hP, horder, hphi⟩ := hpoint
    obtain ⟨-, hy⟩ := canonical_affCoords.1 hpk
    rw [glvExpand_cons]
    refine ⟨signedElement (glvSplit c pk.2).1 P ::
      signedElement (glvSplit c pk.2).2 (c.lambda • P) :: Qs,
      .cons (affStandsFor_foldSign hy hP _)
        (.cons (affStandsFor_foldSign (p := endomorphism c pk.1) hy hphi _) hQs), ?_⟩
    rw [List.map_cons, List.map_cons, List.map_cons, weightedSum_cons, weightedSum_cons,
      weightedSum_cons, hsum, natAbs_nsmul_signedElement, natAbs_nsmul_signedElement, ← add_assoc,
      glvSplit_zsmul hl _ horder]

end Points

/-- Settles O46, input by input: each splits into two entries whose multiples sum to its own. -/
theorem glvExpansionKeepsSum : Obligations.GlvExpansionKeepsSum := by
  intro c _ _ hl pks Ps hc hPs
  exact exists_glvExpand_points hl
    (fun _ hpk => canonical_affsCoords.1 hc _ (List.mem_map_of_mem hpk)) hPs

end Sys2Proof.Machine
end

section
/-! PROOFS. Entries and digits (`43_schedule_sort.md`): the fields of an entry as arithmetic on its number, and
the digits of a scalar by recursion on the rounds.  A signed digit is its window with the carry added, less
what it carries on, so the carries cancel in the sum. -/

namespace Sys2Proof.Machine

/-! ### The fields of an entry (rule R155) -/

theorem pointIndex_eq_mod (e : EntryWord) : pointIndex e = e.toNat % 2 ^ 32 := by
  rw [pointIndex, BitVec.extractLsb'_toNat, Nat.shiftRight_zero]

theorem bucketIndex_eq_mod (e : EntryWord) : bucketIndex e = e.toNat / 2 ^ 32 % 2 ^ 31 := by
  rw [bucketIndex, BitVec.extractLsb'_toNat, Nat.shiftRight_eq_div_pow]

theorem entrySign_eq_decide (e : EntryWord) : entrySign e = decide (2 ^ 63 ≤ e.toNat) :=
  BitVec.msb_eq_decide e

/-- The number an entry stands for, before it is cut to 64 bits. -/
theorem scheduleEntry_toNat (i : Nat) (d : Int) : (scheduleEntry i d).toNat =
    (if d = 0 then 2 ^ 64 - 1
      else i + d.natAbs * 2 ^ 32 + (if d < 0 then 2 ^ 63 else 0)) % 2 ^ 64 := by
  unfold scheduleEntry
  split
  · rfl
  · rw [BitVec.toNat_ofNat]

/-- With 32 bits of index and 31 of magnitude nothing is cut. -/
theorem scheduleEntry_toNat_of_lt {i : Nat} {d : Int} (hi : i < 2 ^ 32) (hd : d ≠ 0)
    (hmag : d.natAbs < 2 ^ 31) :
    (scheduleEntry i d).toNat = i + d.natAbs * 2 ^ 32 + (if d < 0 then 2 ^ 63 else 0) := by
  rw [scheduleEntry_toNat, if_neg hd, Nat.mod_eq_of_lt]
  split
  · omega
  · omega

theorem scheduleEntry_fields {i : Nat} {d : Int} (hi : i < 2 ^ 32) (hd : d ≠ 0)
    (hmag : d.natAbs < 2 ^ 31) :
    pointIndex (scheduleEntry i d) = i ∧ bucketIndex (scheduleEntry i d) = d.natAbs ∧
      entrySign (scheduleEntry i d) = decide (d < 0) := by
  rw [pointIndex_eq_mod, bucketIndex_eq_mod, entrySign_eq_decide, decide_eq_decide,
    scheduleEntry_toNat_of_lt hi hd hmag]
  split
  · omega
  · omega

/-- A bucket number takes at most 31 bits, and with signed digits at most 30. -/
theorem bucketCount_lt {cfg : Config} {c : Nat} (hc : c ≤ 31) :
    bucketCount cfg c < 2 ^ 31 ∧ (cfg.signedDigits = true → bucketCount cfg c ≤ 2 ^ 30) := by
  have hpow : 2 ^ c ≤ 2 ^ 31 := Nat.pow_le_pow_right two_pos hc
  have hhalf : 2 ^ (c - 1) ≤ 2 ^ 30 := Nat.pow_le_pow_right two_pos (by omega)
  unfold bucketCount
  split
  · exact ⟨by omega, fun _ => hhalf⟩
  · rename_i hunsigned
    exact ⟨by omega, fun hsigned => absurd hsigned hunsigned⟩

/-- `SKIP` is negative with magnitude `2^31 − 1`, which no signed digit has. -/
theorem scheduleEntry_ne_skipEntry {cfg : Config} {c i : Nat} {d : Int} (hc : c ≤ 31) (hi : i < 2 ^ 32)
    (hd : d ≠ 0) (hmag : d.natAbs ≤ bucketCount cfg c) (hneg : d < 0 → cfg.signedDigits = true) :
    scheduleEntry i d ≠ skipEntry := by
  intro hskip
  obtain ⟨hlt, hsigned⟩ := bucketCount_lt (cfg := cfg) hc
  obtain ⟨-, hbucket, hsign⟩ := scheduleEntry_fields hi hd (hmag.trans_lt hlt)
  rw [hskip] at hbucket hsign
  have hmax : d.natAbs = 2 ^ 31 - 1 := hbucket.symm
  have hle := hsigned (hneg (of_decide_eq_true hsign.symm))
  omega

/-! ### The number a list of digits stands for (rule R156) -/

/-- The digits, round 0 first, each times its round's power of `2^c`. -/
def digitSum (c : Nat) (ds : List Int) : Int :=
  ((List.range ds.length).map fun r => ds.getD r 0 * 2 ^ (r * c)).sum

theorem digitSum_cons (c : Nat) (d : Int) (ds : List Int) :
    digitSum c (d :: ds) = d + 2 ^ c * digitSum c ds := by
  have hround : ∀ r, ds.getD r 0 * (2 : Int) ^ ((r + 1) * c) = 2 ^ c * (ds.getD r 0 * 2 ^ (r * c)) :=
    fun r => by ring
  simp only [digitSum, List.length_cons, List.range_succ_eq_map, List.map_cons, List.map_map,
    List.sum_cons, Function.comp_def, List.getD_cons_zero, List.getD_cons_succ, Nat.succ_eq_add_one,
    hround, List.sum_map_mul_left, Nat.zero_mul, pow_zero, mul_one]

/-! ### Unsigned digits (rule R157) -/

theorem unsignedDigits_length (c m k : Nat) : (unsignedDigits c m k).length = m := by
  induction m generalizing k with
  | zero => rfl
  | succ m ih => rw [unsignedDigits, List.length_cons, ih]

/-- Each unsigned digit is a window of the scalar. -/
theorem unsignedDigits_getD {c m k r : Nat} (hr : r < m) :
    (unsignedDigits c m k).getD r 0 = ((k / 2 ^ (r * c) % 2 ^ c : Nat) : Int) := by
  induction m generalizing k r with
  | zero => omega
  | succ m ih =>
    rw [unsignedDigits]
    cases r with
    | zero => rw [List.getD_cons_zero, Nat.zero_mul, pow_zero, Nat.div_one]
    | succ r =>
      rw [List.getD_cons_succ, ih (by omega), Nat.div_div_eq_div_mul, ← pow_add, Nat.succ_mul,
        Nat.add_comm c]

theorem mem_unsignedDigits {c m k : Nat} {d : Int} (h : d ∈ unsignedDigits c m k) :
    0 ≤ d ∧ d < 2 ^ c := by
  induction m generalizing k with
  | zero => cases h
  | succ m ih =>
    rw [unsignedDigits, List.mem_cons] at h
    rcases h with rfl | h
    · exact ⟨Int.natCast_nonneg _, by exact_mod_cast Nat.mod_lt k (Nat.two_pow_pos c)⟩
    · exact ih h

theorem digitSum_unsignedDigits {c m k : Nat} (hk : k < 2 ^ (m * c)) :
    digitSum c (unsignedDigits c m k) = k := by
  induction m generalizing k with
  | zero =>
    rw [Nat.zero_mul, pow_zero, Nat.lt_one_iff] at hk
    rw [hk]
    rfl
  | succ m ih =>
    have hrest : k / 2 ^ c < 2 ^ (m * c) :=
      Nat.div_lt_of_lt_mul (by rwa [← pow_add, Nat.add_comm, ← Nat.succ_mul])
    rw [unsignedDigits, digitSum_cons, ih hrest]
    exact_mod_cast Nat.mod_add_div k (2 ^ c)

/-! ### Signed digits (rule R158) -/

/-- What a window with its carry added carries on. -/
def signedCarry (c w : Nat) : Nat := if 2 ^ (c - 1) < w then 1 else 0

/-- What is carried on is taken off the digit. -/
theorem signedDigitsFrom_succ (c m k carry : Nat) : signedDigitsFrom c (m + 1) k carry =
    (((k % 2 ^ c + carry : Nat) : Int) - 2 ^ c * signedCarry c (k % 2 ^ c + carry)) ::
      signedDigitsFrom c m (k / 2 ^ c) (signedCarry c (k % 2 ^ c + carry)) := by
  rw [signedDigitsFrom, signedCarry]
  split
  · rw [Nat.cast_one, mul_one]
  · rw [Nat.cast_zero, mul_zero, sub_zero]

theorem signedCarry_cases (c w : Nat) :
    (2 ^ (c - 1) < w ∧ signedCarry c w = 1) ∨ (w ≤ 2 ^ (c - 1) ∧ signedCarry c w = 0) := by
  unfold signedCarry
  split
  · exact .inl ⟨‹_›, rfl⟩
  · exact .inr ⟨not_lt.1 ‹_›, rfl⟩

theorem signedDigitsFrom_length (c m k carry : Nat) :
    (signedDigitsFrom c m k carry).length = m := by
  induction m generalizing k carry with
  | zero => rfl
  | succ m ih => rw [signedDigitsFrom_succ, List.length_cons, ih]

theorem signedCarry_le_one (c w : Nat) : signedCarry c w ≤ 1 := by
  rcases signedCarry_cases c w with ⟨-, h⟩ | ⟨-, h⟩
  · exact h.le
  · exact h.le.trans zero_le_one

/-- A digit that carries on is above `−2^(c−1)`, and one that does not is at most `2^(c−1)`. -/
theorem signedDigit_bounds {c w : Nat} (hc : 1 ≤ c) (hw : w ≤ 2 ^ c) :
    -((2 : Int) ^ (c - 1) - 1) ≤ (w : Int) - 2 ^ c * signedCarry c w ∧
      (w : Int) - 2 ^ c * signedCarry c w ≤ 2 ^ (c - 1) := by
  have hwindow : (2 : Int) ^ c = 2 ^ (c - 1) * 2 := by exact_mod_cast (Nat.two_pow_pred_mul_two hc).symm
  have hhalf : ((2 ^ (c - 1) : Nat) : Int) = 2 ^ (c - 1) := Nat.cast_pow ..
  have hpos := Nat.two_pow_pos (c - 1)
  rw [← Nat.two_pow_pred_mul_two hc] at hw
  rcases signedCarry_cases c w with ⟨hlt, hcarry⟩ | ⟨hle, hcarry⟩
  · rw [hcarry, hwindow]
    omega
  · rw [hcarry]
    omega

theorem mem_signedDigitsFrom {c m k carry : Nat} {d : Int} (hc : 1 ≤ c) (hcarry : carry ≤ 1)
    (h : d ∈ signedDigitsFrom c m k carry) : -((2 : Int) ^ (c - 1) - 1) ≤ d ∧ d ≤ 2 ^ (c - 1) := by
  induction m generalizing k carry with
  | zero => cases h
  | succ m ih =>
    rw [signedDigitsFrom_succ, List.mem_cons] at h
    rcases h with rfl | h
    · have hmod := Nat.mod_lt k (Nat.two_pow_pos c)
      exact signedDigit_bounds hc (by omega)
    · exact ih (signedCarry_le_one ..) h

/-- What is left after one round, with what that round carries, keeps to the bound. -/
theorem div_add_signedCarry_le {c k carry bound : Nat} (hk : k + carry ≤ 2 ^ c * bound) :
    k / 2 ^ c + signedCarry c (k % 2 ^ c + carry) ≤ bound := by
  have hdiv := Nat.mod_add_div k (2 ^ c)
  rcases signedCarry_cases c (k % 2 ^ c + carry) with ⟨hw, hnext⟩ | ⟨-, hnext⟩
  · have hpos : 0 < k % 2 ^ c + carry := (Nat.zero_le _).trans_lt hw
    have hlt : 2 ^ c * (k / 2 ^ c) < 2 ^ c * bound := by omega
    rw [hnext]
    exact Nat.lt_of_mul_lt_mul_left hlt
  · have hle : 2 ^ c * (k / 2 ^ c) ≤ 2 ^ c * bound := by omega
    rw [hnext]
    exact Nat.le_of_mul_le_mul_left hle (Nat.two_pow_pos c)

/-- With the last round at most half a window, nothing is carried out of it. -/
theorem digitSum_signedDigitsFrom {c m k carry : Nat} (hc : 1 ≤ c)
    (hk : k + carry ≤ 2 ^ (m * c) * 2 ^ (c - 1)) :
    digitSum c (signedDigitsFrom c (m + 1) k carry) = ((k + carry : Nat) : Int) := by
  induction m generalizing k carry with
  | zero =>
    have hhalf := Nat.two_pow_pred_mul_two hc
    have hpos := Nat.two_pow_pos (c - 1)
    rw [Nat.zero_mul, pow_zero, one_mul] at hk
    have hmod : k % 2 ^ c = k := Nat.mod_eq_of_lt (by omega)
    rw [signedDigitsFrom_succ, digitSum_cons, signedDigitsFrom, hmod, signedCarry, if_neg (by omega)]
    simp [digitSum]
  | succ m ih =>
    have hrest : k / 2 ^ c + signedCarry c (k % 2 ^ c + carry) ≤ 2 ^ (m * c) * 2 ^ (c - 1) := by
      refine div_add_signedCarry_le ?_
      rwa [← Nat.mul_assoc, ← pow_add, Nat.add_comm c, ← Nat.succ_mul]
    rw [signedDigitsFrom_succ, digitSum_cons, ih hrest]
    have hdiv : ((k % 2 ^ c : Nat) : Int) + 2 ^ c * ((k / 2 ^ c : Nat) : Int) = k := by
      exact_mod_cast Nat.mod_add_div k (2 ^ c)
    push_cast at hdiv ⊢
    linear_combination hdiv

/-! ### The digits of a scalar (rules R156 to R158) -/

theorem scalarDigits_length (cfg : Config) (c m k : Nat) : (scalarDigits cfg c m k).length = m := by
  unfold scalarDigits
  split
  · exact signedDigitsFrom_length c m k 0
  · exact unsignedDigits_length c m k

/-- No digit's magnitude is beyond the last bucket, and only signed digits are negative. -/
theorem mem_scalarDigits {cfg : Config} {c m k : Nat} {d : Int} (hc : 1 ≤ c)
    (h : d ∈ scalarDigits cfg c m k) :
    d.natAbs ≤ bucketCount cfg c ∧ (d < 0 → cfg.signedDigits = true) := by
  unfold scalarDigits at h
  unfold bucketCount
  split at h
  · rename_i hsigned
    obtain ⟨hlo, hhi⟩ := mem_signedDigitsFrom hc zero_le_one h
    have hcast : ((2 ^ (c - 1) : Nat) : Int) = 2 ^ (c - 1) := Nat.cast_pow ..
    rw [if_pos hsigned]
    exact ⟨by omega, fun _ => hsigned⟩
  · rename_i hunsigned
    obtain ⟨hlo, hhi⟩ := mem_unsignedDigits h
    have hcast : ((2 ^ c : Nat) : Int) = 2 ^ c := Nat.cast_pow ..
    rw [if_neg hunsigned]
    exact ⟨by omega, fun hneg => absurd hneg (not_lt.2 hlo)⟩

/-- The rounds of rule R156 are enough for every scalar below `2^bits`. -/
theorem digitSum_scalarDigits {cfg : Config} {c bits k : Nat} (hc : 1 ≤ c) (hk : k < 2 ^ bits) :
    digitSum c (scalarDigits cfg c (roundCount cfg bits c) k) = k := by
  unfold scalarDigits roundCount
  split
  · have hbits : bits ≤ bits / c * c + (c - 1) := by
      have := Nat.div_add_mod' bits c
      have := Nat.mod_lt bits hc
      omega
    refine digitSum_signedDigitsFrom hc ?_
    rw [← pow_add]
    exact hk.le.trans (Nat.pow_le_pow_right two_pos hbits)
  · have hbits : bits ≤ ceilDiv bits c * c := by
      have := Nat.div_add_mod' (bits + c - 1) c
      have := Nat.mod_lt (bits + c - 1) hc
      unfold ceilDiv
      omega
    exact digitSum_unsignedDigits (hk.trans_le (Nat.pow_le_pow_right two_pos hbits))

/-- Settles O48: the fields from `scheduleEntry_fields`, the digits by the form the configuration names. -/
theorem digitsAndEntries : Obligations.DigitsAndEntries := by
  intro cfg c hc hc31
  refine ⟨fun i d hi hd hmag hneg => ?entry, fun bits k hk => ?digits⟩
  case entry =>
    obtain ⟨hlt, -⟩ := bucketCount_lt (cfg := cfg) hc31
    obtain ⟨hpoint, hbucket, hsign⟩ := scheduleEntry_fields hi hd (hmag.trans_lt hlt)
    exact ⟨hpoint, hbucket, hsign, scheduleEntry_ne_skipEntry hc31 hi hd hmag hneg⟩
  case digits =>
    have hsum := digitSum_scalarDigits (cfg := cfg) hc hk
    rw [digitSum, scalarDigits_length] at hsum
    refine ⟨scalarDigits_length .., hsum, fun d hd hd0 => ?_, fun hsigned d hd => ?_,
      fun hunsigned r hr => ?_⟩
    · exact ⟨Int.natAbs_pos.2 hd0, (mem_scalarDigits hc hd).1⟩
    · rw [scalarDigits, if_pos hsigned] at hd
      exact mem_signedDigitsFrom hc zero_le_one hd
    · rw [scalarDigits, if_neg (by simp [hunsigned])]
      exact unsignedDigits_getD hr

end Sys2Proof.Machine
end

section
/-! PROOFS. The two-pass counting sort (rule R160).  While entries are scattered, each bucket's part of the array
holds the entries placed so far and then `SKIP`s for those to come; the next free position of a bucket is the
first of these. -/

namespace Sys2Proof.Machine

/-! ### The entries of one bucket -/

theorem bucketEntries_eq_filter (es : List EntryWord) (b : Nat) :
    bucketEntries es b = es.filter fun e => e ≠ skipEntry ∧ bucketIndex e = b := by
  simp only [bucketEntries, Bool.decide_and]

theorem mem_bucketEntries {es : List EntryWord} {b : Nat} {e : EntryWord} :
    e ∈ bucketEntries es b ↔ e ∈ es ∧ e ≠ skipEntry ∧ bucketIndex e = b := by
  rw [bucketEntries_eq_filter, List.mem_filter, decide_eq_true_iff]

theorem bucketIndex_of_mem_bucketEntries {es : List EntryWord} {b : Nat} {e : EntryWord}
    (h : e ∈ bucketEntries es b) : bucketIndex e = b := by
  obtain ⟨-, -, hb⟩ := mem_bucketEntries.1 h
  exact hb

theorem bucketEntries_append (es es' : List EntryWord) (b : Nat) :
    bucketEntries (es ++ es') b = bucketEntries es b ++ bucketEntries es' b :=
  List.filter_append ..

theorem bucketEntries_cons (e : EntryWord) (es : List EntryWord) (b : Nat) :
    bucketEntries (e :: es) b =
      if e ≠ skipEntry ∧ bucketIndex e = b then e :: bucketEntries es b else bucketEntries es b := by
  simp only [bucketEntries_eq_filter, List.filter_cons, decide_eq_true_iff]

/-- An entry's own bucket, with the entry at its end. -/
theorem bucketEntries_concat (es : List EntryWord) (e : EntryWord) (b : Nat) :
    bucketEntries (es ++ [e]) b =
      if e ≠ skipEntry ∧ bucketIndex e = b then bucketEntries es b ++ [e] else bucketEntries es b := by
  rw [bucketEntries_append, bucketEntries_cons]
  split
  · rfl
  · exact List.append_nil _

/-! ### The sorted list and the offsets -/

theorem sortedEntries_succ (nb : Nat) (es : List EntryWord) :
    sortedEntries (nb + 1) es = sortedEntries nb es ++ bucketEntries es (nb + 1) := by
  rw [sortedEntries, List.range_succ, List.flatMap_append, List.flatMap_singleton, sortedEntries]

theorem bucketOffset_zero (es : List EntryWord) : bucketOffset es 0 = 0 :=
  (sortedEntries_length 0 es).symm

theorem bucketOffset_succ (es : List EntryWord) (b : Nat) :
    bucketOffset es (b + 1) = bucketOffset es b + (bucketEntries es (b + 1)).length := by
  rw [← sortedEntries_length, ← sortedEntries_length, sortedEntries_succ, List.length_append]

theorem bucketOffsets_getD {nb b : Nat} (hb : b ≤ nb) (es : List EntryWord) :
    (bucketOffsets nb es).getD b 0 = bucketOffset es b := by
  rw [bucketOffsets, List.getD_eq_getElem _ _ (by simpa using Nat.lt_succ_of_le hb), List.getElem_map,
    List.getElem_range]

/-- Where all live entries are in buckets from 1 on, an offset counts the live entries up to its bucket. -/
theorem bucketOffset_eq_countP {es : List EntryWord}
    (hok : ∀ e ∈ es, e ≠ skipEntry → 1 ≤ bucketIndex e) (b : Nat) :
    bucketOffset es b = es.countP fun e => e ≠ skipEntry ∧ bucketIndex e ≤ b := by
  refine List.countP_congr fun e he => ?_
  simp only [Bool.and_eq_true, decide_eq_true_iff]
  exact ⟨fun ⟨⟨hlive, _⟩, hle⟩ => ⟨hlive, hle⟩, fun ⟨hlive, hle⟩ => ⟨⟨hlive, hok e he hlive⟩, hle⟩⟩

/-- A bucket looked for in the list of one bucket: all of the list, or nothing. -/
theorem filter_bucketEntries (es : List EntryWord) (b b' : Nat) :
    (bucketEntries es b').filter (fun e => bucketIndex e = b) =
      if b' = b then bucketEntries es b' else [] := by
  split
  · rename_i heq
    exact List.filter_eq_self.2 fun e he =>
      decide_eq_true ((bucketIndex_of_mem_bucketEntries he).trans heq)
  · rename_i hne
    exact List.filter_eq_nil_iff.2 fun e he h =>
      hne ((bucketIndex_of_mem_bucketEntries he).symm.trans (of_decide_eq_true h))

/-- Sorting is stable: a bucket of the sorted list is the bucket of the input. -/
theorem filter_sortedEntries (nb : Nat) (es : List EntryWord) (b : Nat) :
    (sortedEntries nb es).filter (fun e => bucketIndex e = b) =
      if 1 ≤ b ∧ b ≤ nb then bucketEntries es b else [] := by
  induction nb with
  | zero => rw [if_neg (by omega)]; rfl
  | succ nb ih =>
    rw [sortedEntries_succ, List.filter_append, ih, filter_bucketEntries]
    by_cases hb : nb + 1 = b
    · rw [if_pos hb, if_neg (by omega), if_pos (by omega), hb, List.nil_append]
    · have hrange : (1 ≤ b ∧ b ≤ nb + 1) ↔ (1 ≤ b ∧ b ≤ nb) := by omega
      rw [if_neg hb, List.append_nil, if_congr hrange rfl rfl]

theorem sortedEntries_pairwise (nb : Nat) (es : List EntryWord) :
    (sortedEntries nb es).Pairwise fun e e' => bucketIndex e ≤ bucketIndex e' := by
  have bucket_le : ∀ {j j' : Nat}, j ≤ j' → ∀ e ∈ bucketEntries es (j + 1),
      ∀ e' ∈ bucketEntries es (j' + 1), bucketIndex e ≤ bucketIndex e' := by
    intro j j' hle e he e' he'
    rw [bucketIndex_of_mem_bucketEntries he, bucketIndex_of_mem_bucketEntries he']
    exact Nat.succ_le_succ hle
  rw [sortedEntries, List.pairwise_flatMap]
  exact ⟨fun j _ => List.pairwise_of_forall_mem_list (bucket_le le_rfl),
    List.pairwise_lt_range.imp fun hlt => bucket_le hlt.le⟩

/-- Every live entry names one of the buckets `1 .. nb` (rule R161). -/
def LiveWithin (nb : Nat) (es : List EntryWord) : Prop :=
  ∀ e ∈ es, e ≠ skipEntry → 1 ≤ bucketIndex e ∧ bucketIndex e ≤ nb

theorem LiveWithin.filter_sortedEntries {nb : Nat} {es : List EntryWord} (h : LiveWithin nb es)
    (b : Nat) : (sortedEntries nb es).filter (fun e => bucketIndex e = b) = bucketEntries es b := by
  rw [Machine.filter_sortedEntries]
  split
  · rfl
  · rename_i hb
    refine (List.eq_nil_iff_forall_not_mem.2 fun e he => hb ?_).symm
    obtain ⟨hmem, hlive, rfl⟩ := mem_bucketEntries.1 he
    exact h e hmem hlive

/-- An entry occurs as often in the sorted list as in its bucket of the input. -/
theorem LiveWithin.sortedEntries_perm {nb : Nat} {es : List EntryWord} (h : LiveWithin nb es) :
    (sortedEntries nb es).Perm (es.filter fun e => e ≠ skipEntry) := by
  refine List.perm_iff_count.2 fun e => ?_
  have hown : decide (bucketIndex e = bucketIndex e) = true := decide_eq_true rfl
  rw [← List.count_filter (p := fun e' => decide (bucketIndex e' = bucketIndex e)) hown,
    h.filter_sortedEntries,
    ← List.count_filter (p := fun e' => decide (bucketIndex e' = bucketIndex e))
      (l := es.filter _) hown, List.filter_filter]
  simp only [bucketEntries, Bool.and_comm]

/-! ### The counting pass and the running sums -/

theorem countingPass_concat (nb : Nat) (es : List EntryWord) (e : EntryWord) :
    countingPass nb (es ++ [e]) = if e = skipEntry then countingPass nb es
      else (countingPass nb es).set (bucketIndex e)
        ((countingPass nb es).getD (bucketIndex e) 0 + 1) := by
  rw [countingPass, List.foldl_append, List.foldl_cons, List.foldl_nil]
  rfl

/-- The counts are the sizes of the buckets. -/
theorem countingPass_eq_map (nb : Nat) (es : List EntryWord) :
    countingPass nb es = (List.range (nb + 1)).map fun b => (bucketEntries es b).length := by
  induction es using List.reverseRecOn with
  | nil => simp [countingPass, bucketEntries]
  | append_singleton es e ih =>
    rw [countingPass_concat, ih]
    split
    · rename_i hskip
      simp only [bucketEntries_concat, hskip, ne_eq, not_true_eq_false, false_and, if_false]
    · rename_i hlive
      refine List.ext_getElem (by simp) fun b hb _ => ?_
      simp only [List.length_set, List.length_map, List.length_range] at hb
      simp only [List.getElem_set, List.getElem_map, List.getElem_range, bucketEntries_concat, hlive,
        ne_eq, not_false_eq_true, true_and]
      split
      · rename_i hown
        rw [List.getD_eq_getElem?_getD, hown]
        simp [hb]
      · rfl

/-- Running sums of the differences of `g` are the values of `g`. -/
theorem prefixSums_map_range' {f g : Nat → Nat} (hg : ∀ j, g (j + 1) = g j + f j) (n a : Nat) :
    prefixSums (g a) ((List.range' a n).map f) = (List.range' a (n + 1)).map g := by
  induction n generalizing a with
  | zero => rfl
  | succ n ih =>
    rw [List.range'_succ, List.map_cons, prefixSums, ← hg, ih]
    rfl

theorem prefixSums_countingPass (nb : Nat) (es : List EntryWord) :
    prefixSums 0 ((countingPass nb es).drop 1) = bucketOffsets nb es := by
  have hcounts : (countingPass nb es).drop 1 =
      (List.range' 0 nb).map fun j => (bucketEntries es (j + 1)).length := by
    rw [countingPass_eq_map, List.range_succ_eq_map, List.map_cons, List.drop_one, List.tail_cons,
      List.map_map, List.range_eq_range']
    rfl
  have hsums := prefixSums_map_range' (bucketOffset_succ es) nb 0
  rw [bucketOffset_zero, ← hcounts, ← List.range_eq_range'] at hsums
  exact hsums

/-! ### The scatter pass -/

/-- A bucket's part of the array after the entries `placed` and before the entries `coming`. -/
def fillingBucket (placed coming : List EntryWord) (b : Nat) : List EntryWord :=
  bucketEntries placed b ++ List.replicate (bucketEntries coming b).length skipEntry

/-- The array after the entries `placed` and before the entries `coming`. -/
def fillingArray (nb : Nat) (placed coming : List EntryWord) : List EntryWord :=
  (List.range nb).flatMap fun j => fillingBucket placed coming (j + 1)

theorem fillingArray_nil_right (nb : Nat) (es : List EntryWord) :
    fillingArray nb es [] = sortedEntries nb es := by
  simp only [fillingArray, fillingBucket, sortedEntries, bucketEntries, List.filter_nil,
    List.length_nil, List.replicate_zero, List.append_nil]

theorem fillingArray_length (nb : Nat) (placed coming : List EntryWord) :
    (fillingArray nb placed coming).length = bucketOffset (placed ++ coming) nb := by
  rw [← sortedEntries_length, fillingArray, sortedEntries, List.length_flatMap, List.length_flatMap]
  simp only [fillingBucket, bucketEntries_append, List.length_append, List.length_replicate]

/-- Before the first entry the array is all `SKIP`s. -/
theorem fillingArray_nil_left (nb : Nat) (es : List EntryWord) :
    fillingArray nb [] es = List.replicate (bucketOffset es nb) skipEntry := by
  refine List.eq_replicate_iff.2 ⟨fillingArray_length nb [] es, fun e he => ?_⟩
  obtain ⟨j, -, hj⟩ := List.mem_flatMap.1 he
  exact List.eq_of_mem_replicate hj

/-- Other buckets do not see an entry placed. -/
theorem fillingBucket_concat_of_ne {e : EntryWord} {b : Nat}
    (he : ¬(e ≠ skipEntry ∧ bucketIndex e = b)) (placed coming : List EntryWord) :
    fillingBucket (placed ++ [e]) coming b = fillingBucket placed (e :: coming) b := by
  rw [fillingBucket, fillingBucket, bucketEntries_concat, bucketEntries_cons, if_neg he, if_neg he]

theorem fillingArray_concat_skip (nb : Nat) (placed coming : List EntryWord) :
    fillingArray nb (placed ++ [skipEntry]) coming = fillingArray nb placed (skipEntry :: coming) := by
  have hskip : ∀ b, ¬(skipEntry ≠ skipEntry ∧ bucketIndex skipEntry = b) := fun _ h => h.1 rfl
  simp only [fillingArray, fillingBucket_concat_of_ne (hskip _)]

/-- Setting an element of one part of a list of parts. -/
theorem set_flatMap_range {α : Type} {f g : Nat → List α} {n j : Nat} {xs ys : List α} {x y : α}
    (hj : j < n) (hf : f j = xs ++ x :: ys) (hg : g j = xs ++ y :: ys) (hfg : ∀ i, i ≠ j → f i = g i) :
    ((List.range n).flatMap f).set (((List.range j).flatMap f).length + xs.length) y =
      (List.range n).flatMap g := by
  obtain ⟨m, rfl⟩ := Nat.exists_eq_add_of_lt hj
  have hbefore : (List.range j).flatMap f = (List.range j).flatMap g :=
    List.flatMap_congr fun i hi => hfg i (List.mem_range.1 hi).ne
  have hafter : (List.range m).flatMap (fun i => f (j + (i + 1))) =
      (List.range m).flatMap fun i => g (j + (i + 1)) :=
    List.flatMap_congr fun i _ => hfg _ (by omega)
  have hsplit : ∀ h : Nat → List α, (List.range (j + m + 1)).flatMap h = (List.range j).flatMap h ++
      (h j ++ (List.range m).flatMap fun i => h (j + (i + 1))) := fun h => by
    rw [Nat.add_assoc, List.range_add, List.range_succ_eq_map, List.map_cons, List.flatMap_append,
      List.flatMap_cons, List.map_map, List.flatMap_map]
    rfl
  rw [hsplit f, hsplit g, hf, hg, hbefore, hafter, List.set_append_right _ _ (Nat.le_add_right ..),
    Nat.add_sub_cancel_left, List.append_assoc, List.set_append_right _ _ le_rfl, Nat.sub_self,
    List.append_assoc]
  rfl

/-- Placing an entry sets the first free position of its bucket. -/
theorem fillingArray_set {nb j : Nat} {e : EntryWord} (hj : j < nb) (hlive : e ≠ skipEntry)
    (hb : bucketIndex e = j + 1) (placed coming : List EntryWord) :
    (fillingArray nb placed (e :: coming)).set
        (bucketOffset (placed ++ e :: coming) j + (bucketEntries placed (j + 1)).length) e =
      fillingArray nb (placed ++ [e]) coming := by
  rw [← fillingArray_length]
  refine set_flatMap_range (x := skipEntry)
    (ys := List.replicate (bucketEntries coming (j + 1)).length skipEntry) hj ?_ ?_ fun i hi => ?_
  · rw [fillingBucket, bucketEntries_cons, if_pos ⟨hlive, hb⟩, List.length_cons, List.replicate_succ]
  · rw [fillingBucket, bucketEntries_concat, if_pos ⟨hlive, hb⟩, List.append_assoc]
    rfl
  · exact (fillingBucket_concat_of_ne (fun h => hi (by omega)) placed coming).symm

/-- The next free position of each bucket after the entries `placed`, before the entries `coming`. -/
def NextFree (nb : Nat) (placed coming : List EntryWord) (pos : List Nat) : Prop :=
  nb < pos.length ∧ ∀ j, j < nb →
    pos.getD (j + 1) 0 = bucketOffset (placed ++ coming) j + (bucketEntries placed (j + 1)).length

theorem NextFree.concat_skip {nb : Nat} {placed coming : List EntryWord} {pos : List Nat}
    (h : NextFree nb placed (skipEntry :: coming) pos) :
    NextFree nb (placed ++ [skipEntry]) coming pos := by
  obtain ⟨hlen, hpos⟩ := h
  refine ⟨hlen, fun j hj => ?_⟩
  rw [hpos j hj, bucketEntries_concat, if_neg (fun h => h.1 rfl), List.append_assoc]
  rfl

theorem NextFree.concat_live {nb : Nat} {placed coming : List EntryWord} {pos : List Nat}
    {e : EntryWord} (h : NextFree nb placed (e :: coming) pos) (hlive : e ≠ skipEntry)
    (hb : bucketIndex e ≤ nb) : NextFree nb (placed ++ [e]) coming
      (pos.set (bucketIndex e) (pos.getD (bucketIndex e) 0 + 1)) := by
  obtain ⟨hlen, hpos⟩ := h
  refine ⟨by rwa [List.length_set], fun j hj => ?_⟩
  have happend : placed ++ [e] ++ coming = placed ++ e :: coming := List.append_assoc ..
  rw [bucketEntries_concat, happend, List.getD_eq_getElem?_getD, List.getElem?_set]
  by_cases hown : bucketIndex e = j + 1
  · rw [if_pos hown, if_pos (by omega), if_pos ⟨hlive, hown⟩, hown, hpos j hj, List.length_append]
    rfl
  · rw [if_neg hown, if_neg fun h => hown h.2, ← List.getD_eq_getElem?_getD, hpos j hj]

theorem scatterPass_cons_skip (es sorted : List EntryWord) (pos : List Nat) :
    scatterPass (skipEntry :: es) sorted pos = scatterPass es sorted pos := by
  rw [scatterPass, List.foldl_cons, if_pos rfl, scatterPass]

theorem scatterPass_cons_live {e : EntryWord} (he : e ≠ skipEntry) (es sorted : List EntryWord)
    (pos : List Nat) : scatterPass (e :: es) sorted pos =
      scatterPass es (sorted.set (pos.getD (bucketIndex e) 0) e)
        (pos.set (bucketIndex e) (pos.getD (bucketIndex e) 0 + 1)) := by
  rw [scatterPass, List.foldl_cons, if_neg he, scatterPass]

/-- The scatter pass fills the array. -/
theorem scatterPass_fillingArray {nb : Nat} {placed coming : List EntryWord} {pos : List Nat}
    (hok : LiveWithin nb coming) (hpos : NextFree nb placed coming pos) :
    (scatterPass coming (fillingArray nb placed coming) pos).1 =
      sortedEntries nb (placed ++ coming) := by
  induction coming generalizing placed pos with
  | nil => rw [List.append_nil, ← fillingArray_nil_right]; rfl
  | cons e coming ih =>
    obtain ⟨he, hrest⟩ := List.forall_mem_cons.1 hok
    rw [List.append_cons]
    by_cases hlive : e = skipEntry
    · subst hlive
      rw [scatterPass_cons_skip, ← fillingArray_concat_skip]
      exact ih hrest hpos.concat_skip
    · obtain ⟨hlo, hhi⟩ := he hlive
      obtain ⟨j, hj⟩ := Nat.exists_eq_add_of_le' hlo
      have hjnb : j < nb := by omega
      have hplace := fillingArray_set hjnb hlive hj placed coming
      obtain ⟨-, hfree⟩ := id hpos
      rw [← hfree j hjnb, ← hj] at hplace
      rw [scatterPass_cons_live hlive, hplace]
      exact ih hrest (hpos.concat_live hlive hhi)

/-- At the start the next free position of bucket `b` is `off[b−1]`. -/
theorem nextFree_bucketOffsets (nb : Nat) (es : List EntryWord) :
    NextFree nb [] es (0 :: bucketOffsets nb es) := by
  refine ⟨by simp, fun j hj => ?_⟩
  rw [List.getD_cons_succ, bucketOffsets_getD (by omega)]
  rfl

/-- Settles O50: the two passes from their invariants, the laws from the bucket's own entries. -/
theorem countingSortLaws : Obligations.CountingSortLaws := by
  intro nb es (hok : LiveWithin nb es)
  refine ⟨?sorts, hok.sortedEntries_perm, sortedEntries_pairwise nb es, fun b => ?stable, ?last, ?first⟩
  case sorts =>
    rw [countingSort, prefixSums_countingPass, bucketOffsets_getD le_rfl, ← fillingArray_nil_left]
    exact congrArg (·, bucketOffsets nb es)
      (scatterPass_fillingArray hok (nextFree_bucketOffsets nb es))
  case stable =>
    rw [hok.filter_sortedEntries, bucketEntries_eq_filter]
  case last =>
    rw [bucketOffsets_getD le_rfl, ← sortedEntries_length, hok.sortedEntries_perm.length_eq,
      ← List.countP_eq_length_filter, liveCount]
  case first =>
    rw [bucketOffsets_getD (Nat.zero_le nb), bucketOffset_zero]

end Sys2Proof.Machine
end

section
/-! PROOFS. `SCHED` and `BSORT` (rules R159, R161): past their static checks only the check of the scalars, or of
the entries, is left, and each output is written object by object. -/

namespace Sys2Proof.Machine

/-! ### Admitted commands -/

/-- An admitted command outside the GLV commands passes its static checks. -/
theorem exec_of_admitted {i : Instr} {s : State} {k : Except Cause State} (hadm : Admitted s.cfg i)
    (hexec : exec i s = runCommand i.opcode s (checkGroup i.grp <|
      check (i.paramsOk s.cfg = true) .badParam <|
        checkOperands s.cfg (addressOperands s.cfg i) k)) :
    exec i s = runCommand i.opcode s k := by
  obtain ⟨hwf, haddr⟩ := hadm
  simp only [Instr.wellFormed, Bool.and_eq_true] at hwf
  obtain ⟨⟨hgrp, -⟩, hparams⟩ := hwf
  rw [hexec, checkGroup, check_pos hgrp, check_pos hparams, checkOperands_pos haddr]

theorem exec_sched {s : State} {grp : Byte} {dstE dstC ks n c bits : Word}
    (hadm : Admitted s.cfg (.sched grp dstE dstC ks n c bits)) :
    exec (.sched grp dstE dstC ks n c bits) s = runCommand 0x40#8 s
      (check (∀ k ∈ scalarsAt s ks n.toNat, k < 2 ^ bits.toNat) .scalarRange <|
        .ok (storeTwo s
          dstE.toNat ((scheduleRounds s.cfg c.toNat (roundCount s.cfg bits.toNat c.toNat)
            (scalarsAt s ks n.toNat)).flatten.flatMap entryBytes)
          dstC.toNat ((scheduleRounds s.cfg c.toNat (roundCount s.cfg bits.toNat c.toNat)
            (scalarsAt s ks n.toNat)).flatMap fun es => countBytes (liveCount es)))) := by
  refine exec_of_admitted hadm ?_
  simp only [exec, execSched, checkWidth, checkBits, check_check]
  rfl

theorem exec_bsort {s : State} {grp : Byte} {dstS dstO es n c : Word}
    (hadm : Admitted s.cfg (.bsort grp dstS dstO es n c)) :
    exec (.bsort grp dstS dstO es n c) s = runCommand 0x41#8 s
      (check ((entriesAt s es n.toNat).all (entryOk s.cfg c.toNat) = true) .badEntry <|
        .ok (storeTwo s
          dstS.toNat ((sortedEntries (bucketCount s.cfg c.toNat)
            (entriesAt s es n.toNat)).flatMap entryBytes)
          dstO.toNat ((bucketOffsets (bucketCount s.cfg c.toNat)
            (entriesAt s es n.toNat)).flatMap countBytes))) :=
  exec_of_admitted hadm rfl

/-- The window width of an admitted `SCHED` (rule R68). -/
theorem width_of_admitted_sched {cfg : Config} {grp : Byte} {dstE dstC ks n c bits : Word}
    (hadm : Admitted cfg (.sched grp dstE dstC ks n c bits)) : 1 ≤ c.toNat ∧ c.toNat ≤ 31 := by
  obtain ⟨hwf, -⟩ := hadm
  simp only [Instr.wellFormed, Instr.paramsOk, widthOk, Bool.and_eq_true, decide_eq_true_iff] at hwf
  obtain ⟨-, hwidth, -⟩ := hwf
  exact hwidth

/-! ### `SCHED` (rule R159) -/

/-- A byte string of `n` bytes holds a number modulo `256^n`. -/
theorem leBytes_mod (n v : Nat) : leBytes n (v % 256 ^ n) = leBytes n v := by
  have h := leBytes_leValue (leBytes n v)
  rwa [leBytes_length, leValue_leBytes] at h

theorem entryBytes_scheduleEntry (i : Nat) (d : Int) : entryBytes (scheduleEntry i d) =
    leBytes 8 (if d = 0 then 2 ^ 64 - 1
      else i + d.natAbs * 2 ^ 32 + (if d < 0 then 2 ^ 63 else 0)) := by
  rw [entryBytes, scheduleEntry_toNat]
  exact leBytes_mod 8 _

theorem scalarsAt_lt_iff {s : State} {ks : Word} {n bound : Nat} :
    (∀ k ∈ scalarsAt s ks n, k < bound) ↔
      ∀ i, i < n → scalarAt s (ks.toNat + i * s.cfg.scalarBytes) < bound := by
  simp only [scalarsAt, arrayAt, List.forall_mem_map, List.mem_range]

/-- The schedule of the scalars in an array, round by round and point by point. -/
theorem scheduleRounds_scalarsAt (s : State) (c m : Nat) (ks : Word) (n : Nat) :
    scheduleRounds s.cfg c m (scalarsAt s ks n) = (List.range m).map fun r =>
      (List.range n).map fun i => scheduleEntry i
        ((scalarDigits s.cfg c m (scalarAt s (ks.toNat + i * s.cfg.scalarBytes))).getD r 0) := by
  refine List.map_congr_left fun r _ => List.ext_getElem (by simp) fun i _ _ => ?_
  simp [scalarsAt, arrayAt]

/-- An entry is `SKIP` where its digit is 0, and only there. -/
theorem scheduleEntry_eq_skipEntry_iff {cfg : Config} {c m k i r : Nat} (hc : 1 ≤ c) (hc31 : c ≤ 31)
    (hi : i < 2 ^ 32) (hr : r < m) :
    scheduleEntry i ((scalarDigits cfg c m k).getD r 0) = skipEntry ↔
      (scalarDigits cfg c m k).getD r 0 = 0 := by
  refine ⟨not_imp_not.1 fun hd => ?_, fun hd => if_pos hd⟩
  have hmem : (scalarDigits cfg c m k).getD r 0 ∈ scalarDigits cfg c m k := by
    have hlen : r < (scalarDigits cfg c m k).length := by rwa [scalarDigits_length]
    rw [List.getD_eq_getElem _ _ hlen]
    exact List.getElem_mem hlen
  obtain ⟨hmag, hneg⟩ := mem_scalarDigits hc hmem
  exact scheduleEntry_ne_skipEntry hc31 hi hd hmag hneg

/-- Settles O47: the check of the scalars, then the entries and the counts, round by round. -/
theorem scheduleResult : Obligations.ScheduleResult := by
  intro s grp dstE dstC ks n c bits hadm m digit
  refine ⟨fun ⟨i, hi, hwide⟩ => ?wide, fun hfit => ?completes⟩
  case wide =>
    rw [Faults, exec_sched hadm,
      check_neg fun h => absurd (scalarsAt_lt_iff.1 h i hi) (not_lt.2 hwide)]
    rfl
  case completes =>
    rw [exec_sched hadm, check_pos (scalarsAt_lt_iff.2 hfit), scheduleRounds_scalarsAt]
    refine ⟨_, rfl, wroteTwo_storeTwo s dstE.toNat dstC.toNat ?entries ?counts⟩
    case entries =>
      rw [← List.flatMap_def, List.flatMap_assoc]
      refine List.flatMap_congr fun r _ => ?_
      simp only [List.flatMap_map, entryBytes_scheduleEntry]
      rfl
    case counts =>
      obtain ⟨hc, hc31⟩ := width_of_admitted_sched hadm
      rw [List.flatMap_map]
      refine List.flatMap_congr fun r hr => congrArg countBytes ?_
      rw [liveCount, List.countP_map]
      refine List.countP_congr fun i hi => ?_
      simp only [Function.comp_apply, decide_eq_true_iff]
      exact not_congr (scheduleEntry_eq_skipEntry_iff hc hc31
        ((List.mem_range.1 hi).trans n.isLt) (List.mem_range.1 hr))

/-! ### `BSORT` (rule R161) -/

theorem all_entryOk_iff {cfg : Config} {c : Nat} {es : List EntryWord} :
    es.all (entryOk cfg c) = true ↔ LiveWithin (bucketCount cfg c) es := by
  simp only [List.all_eq_true, entryOk, Bool.or_eq_true, Bool.and_eq_true, decide_eq_true_iff,
    LiveWithin, or_iff_not_imp_left, ne_eq]

/-- Settles O49: the check of the entries, then the buckets in their order and the offsets. -/
theorem sortResult : Obligations.SortResult := by
  intro s grp dstS dstO es n c hadm nb entries ok
  refine ⟨fun (hbad : ¬LiveWithin nb entries) => ?bad, fun (hok : LiveWithin nb entries) => ?completes⟩
  case bad =>
    rw [Faults, exec_bsort hadm, check_neg (mt all_entryOk_iff.1 hbad)]
    rfl
  case completes =>
    rw [exec_bsort hadm, check_pos (all_entryOk_iff.2 hok)]
    refine ⟨_, rfl, wroteTwo_storeTwo s dstS.toNat dstO.toNat ?sorted ?offsets⟩
    case sorted =>
      simp only [sortedEntries, List.flatMap_assoc, bucketEntries_eq_filter]
      rfl
    case offsets =>
      rw [bucketOffsets, List.flatMap_map]
      refine List.flatMap_congr fun b _ => congrArg countBytes ?_
      exact bucketOffset_eq_countP (fun e he hlive => (hok e he hlive).1) b

end Sys2Proof.Machine
end

section
/-! PROOFS. The reduction of the buckets (`44_chain_reduce.md`) in Mathlib's group: a depth level of the addition
chain keeps what a bucket sums to and halves it, the sweep keeps a running and a weighted sum, and the fold
is Horner's scheme. -/

namespace Sys2Proof.Machine

/-! ### The addition chain (rule R176) -/

theorem foldl_max_length_le_iff {ls : List (List Aff)} {a m : Nat} :
    ls.foldl (fun n l => max n l.length) a ≤ m ↔ a ≤ m ∧ ∀ l ∈ ls, l.length ≤ m := by
  induction ls generalizing a with
  | nil => simp
  | cons l ls ih => rw [List.foldl_cons, ih, max_le_iff, List.forall_mem_cons, and_assoc]

theorem longest_le_iff {ls : List (List Aff)} {m : Nat} :
    longest ls ≤ m ↔ ∀ l ∈ ls, l.length ≤ m :=
  foldl_max_length_le_iff.trans (and_iff_right (Nat.zero_le m))

theorem pairwiseSums_length (c : Config) : ∀ l : List Aff,
    (pairwiseSums c l).length = (l.length + 1) / 2
  | [] => rfl
  | [_] => by simp [pairwiseSums]
  | p :: q :: rest => by
    rw [pairwiseSums, List.length_cons, pairwiseSums_length c rest, List.length_cons, List.length_cons]
    omega

/-- Every level shortens a bucket of more than one point, so as many levels as points are enough. -/
theorem chainPasses_length_le_one (c : Config) (n : Nat) {ls : List (List Aff)}
    (hls : ∀ l ∈ ls, l.length ≤ n + 1) : ∀ l ∈ chainPasses c n ls, l.length ≤ 1 := by
  induction n generalizing ls with
  | zero => exact hls
  | succ n ih =>
    rw [chainPasses]
    split
    · refine ih (List.forall_mem_map.2 fun l hl => ?_)
      have := hls l hl
      rw [pairwiseSums_length]
      omega
    · rename_i hlongest
      exact longest_le_iff.1 (not_lt.1 hlongest)

section Points

variable {c : Config} [Fact c.modulus.Prime]

/-- The stored points, all canonical, stand for group elements whose sum is the given one. -/
inductive SumsTo (c : Config) [Fact c.modulus.Prime] : List Aff → (curveOf c).Point → Prop
  | nil : SumsTo c [] 0
  | cons {p : Aff} {l : List Aff} {P Q : (curveOf c).Point} (hp : Canonical c (affCoords p))
      (hP : AffStandsFor c p P) (hl : SumsTo c l Q) : SumsTo c (p :: l) (P + Q)

theorem sumsTo_of_forall₂ {l : List Aff} {Ps : List (curveOf c).Point}
    (hc : ∀ p ∈ l, Canonical c (affCoords p)) (hPs : List.Forall₂ (AffStandsFor c) l Ps) :
    SumsTo c l Ps.sum := by
  induction hPs with
  | nil => exact .nil
  | cons hP _ ih =>
    obtain ⟨hp, hc⟩ := List.forall_mem_cons.1 hc
    rw [List.sum_cons]
    exact .cons hp hP (ih hc)

/-- Adding adjacent pairs keeps the sum, by associativity. -/
theorem SumsTo.pairwiseSums (h : FieldValid c) : ∀ {l : List Aff} {P : (curveOf c).Point},
    SumsTo c l P → SumsTo c (pairwiseSums c l) P
  | _, _, .nil => .nil
  | _, _, .cons hp hP .nil => .cons hp hP .nil
  | _, _, .cons hp hP (.cons hq hQ hl) => by
    rw [Machine.pairwiseSums, ← add_assoc]
    exact .cons (canonical_addAffine h hp hq) (affStandsFor_addAffine h hp hq hP hQ)
      (hl.pairwiseSums h)

/-- What is left of a bucket stands for its sum: its one point, or infinity. -/
theorem SumsTo.headD {l : List Aff} {P : (curveOf c).Point} (hl : SumsTo c l P)
    (hlen : l.length ≤ 1) : AffStandsFor c (l.headD affZero) P := by
  cases hl with
  | nil => exact affStandsFor_affZero
  | cons _ hP hrest =>
    cases hrest with
    | nil => rwa [add_zero]
    | cons => simp at hlen

theorem forall₂_sumsTo_chainPasses (h : FieldValid c) (n : Nat) {ls : List (List Aff)}
    {Qs : List (curveOf c).Point} (hls : List.Forall₂ (SumsTo c) ls Qs) :
    List.Forall₂ (SumsTo c) (chainPasses c n ls) Qs := by
  induction n generalizing ls with
  | zero => exact hls
  | succ n ih =>
    rw [chainPasses]
    split
    · exact ih (List.forall₂_map_left_iff.2 (hls.imp fun _ _ hl => hl.pairwiseSums h))
    · exact hls

/-- One point a bucket, which stands for the bucket's sum. -/
theorem forall₂_affStandsFor_chainReduce (h : FieldValid c) {ls : List (List Aff)}
    {Qs : List (curveOf c).Point} (hls : List.Forall₂ (SumsTo c) ls Qs) :
    List.Forall₂ (AffStandsFor c) (chainReduce c ls) Qs := by
  have hshort := chainPasses_length_le_one c (longest ls) (ls := ls)
    fun l hl => (longest_le_iff.1 le_rfl l hl).trans (Nat.le_succ _)
  exact List.forall₂_map_left_iff.2
    (((List.forall₂_and_left ..).2 ⟨hshort, forall₂_sumsTo_chainPasses h _ hls⟩).imp
      fun _ _ ⟨hlen, hl⟩ => hl.headD hlen)

/-! ### Canonical triples and the group elements they stand for -/

/-- The triple is canonical and stands for the group element. -/
def JacHolds (c : Config) [Fact c.modulus.Prime] (p : Jac) (P : (curveOf c).Point) : Prop :=
  Canonical c (jacCoords p) ∧ JacStandsFor c p P

theorem jacHolds_jacZero (h : FieldValid c) : JacHolds c jacZero 0 :=
  ⟨canonical_jacZero h, jacStandsFor_zero rfl⟩

theorem JacHolds.jadd (h : FieldValid c) {p q : Jac} {P Q : (curveOf c).Point}
    (hP : JacHolds c p P) (hQ : JacHolds c q Q) : JacHolds c (jadd c p q) (P + Q) :=
  ⟨canonical_jadd h hP.1 hQ.1, jacStandsFor_jadd h hP.1 hQ.1 hP.2 hQ.2⟩

theorem JacHolds.jdblTimes (h : FieldValid c) (n : Nat) {p : Jac} {P : (curveOf c).Point}
    (hP : JacHolds c p P) : JacHolds c (jdblTimes c n p) (2 ^ n • P) := by
  induction n generalizing p P with
  | zero => rwa [pow_zero, one_nsmul]
  | succ n ih =>
    rw [pow_succ, mul_nsmul', two_nsmul]
    exact ih ⟨canonical_jdbl h p, jacStandsFor_jdbl h hP.1 hP.2⟩

/-- `toJ` (rule R112) keeps the group element: `Z = 1`, or infinity. -/
theorem jacHolds_toJac (h : FieldValid c) {p : Aff} {P : (curveOf c).Point}
    (hp : Canonical c (affCoords p)) (hP : AffStandsFor c p P) : JacHolds c (toJac c p) P := by
  refine ⟨canonical_toJac h hp, ?_⟩
  rcases hP with ⟨rfl, rfl⟩ | ⟨hp0, hns, rfl⟩
  · exact jacStandsFor_zero rfl
  · have hz : montOne c ≠ 0 := fun hz => by
      have hone := residueValue_montOne h
      rw [hz, residueValue_zero] at hone
      exact zero_ne_one hone
    rw [toJac, if_neg hp0]
    exact .inr ⟨hz, by simpa [residueValue_montOne h] using hns⟩

/-! ### The sweep (rule R178) -/

/-- The running sum and the weighted sum of the sweep, the last bucket first. -/
def sweep (c : Config) (bs : List Aff) : Jac × Jac :=
  bs.foldr (fun b ra => (jadd c ra.1 (toJac c b), jadd c ra.2 (jadd c ra.1 (toJac c b))))
    (jacZero, jacZero)

theorem bucketSum_eq_sweep (c : Config) (bs : List Aff) : bucketSum c bs = (sweep c bs).2 :=
  congrArg Prod.snd List.foldl_reverse

/-- Weights one higher add each element once more. -/
theorem weightedSum_range'_succ (s : Nat) (Ps : List (curveOf c).Point) :
    weightedSum c (List.range' (s + 1) Ps.length) Ps =
      weightedSum c (List.range' s Ps.length) Ps + Ps.sum := by
  induction Ps generalizing s with
  | nil => exact (add_zero _).symm
  | cons P Ps ih =>
    rw [List.length_cons, List.range'_succ, List.range'_succ, weightedSum_cons, weightedSum_cons,
      List.sum_cons, ih, succ_nsmul]
    abel

theorem jacHolds_sweep (h : FieldValid c) {bs : List Aff} {Ps : List (curveOf c).Point}
    (hc : ∀ b ∈ bs, Canonical c (affCoords b)) (hPs : List.Forall₂ (AffStandsFor c) bs Ps) :
    JacHolds c (sweep c bs).1 Ps.sum ∧
      JacHolds c (sweep c bs).2 (weightedSum c (List.range' 1 Ps.length) Ps) := by
  induction hPs with
  | nil => exact ⟨jacHolds_jacZero h, jacHolds_jacZero h⟩
  | @cons b P bs Ps hP _ ih =>
    obtain ⟨hb, hc⟩ := List.forall_mem_cons.1 hc
    obtain ⟨hrunning, hweighted⟩ := ih hc
    have hnext : JacHolds c (sweep c (b :: bs)).1 (Ps.sum + P) :=
      hrunning.jadd h (jacHolds_toJac h hb hP)
    have hsum : weightedSum c (List.range' 1 (P :: Ps).length) (P :: Ps) =
        weightedSum c (List.range' 1 Ps.length) Ps + (Ps.sum + P) := by
      rw [List.length_cons, List.range'_succ, weightedSum_cons, weightedSum_range'_succ, one_nsmul]
      abel
    rw [hsum, List.sum_cons, add_comm P]
    exact ⟨hnext, hweighted.jadd h hnext⟩

theorem jacHolds_bucketSum (h : FieldValid c) {bs : List Aff} {Ps : List (curveOf c).Point}
    (hc : ∀ b ∈ bs, Canonical c (affCoords b)) (hPs : List.Forall₂ (AffStandsFor c) bs Ps) :
    JacHolds c (bucketSum c bs) (weightedSum c (List.range' 1 Ps.length) Ps) :=
  bucketSum_eq_sweep c bs ▸ (jacHolds_sweep h hc hPs).2

/-! ### The fold (rule R180) -/

theorem weightedSum_map_mul (a : Nat) (ks : List Nat) (Ps : List (curveOf c).Point) :
    weightedSum c (ks.map (a * ·)) Ps = a • weightedSum c ks Ps := by
  induction ks generalizing Ps with
  | nil => exact (nsmul_zero a).symm
  | cons k ks ih =>
    cases Ps with
    | nil => exact (nsmul_zero a).symm
    | cons P Ps => rw [List.map_cons, weightedSum_cons, weightedSum_cons, ih, nsmul_add, mul_nsmul']

/-- The weights `2^(r·w)` of the rounds `0 .. n-1`. -/
def roundWeights (w n : Nat) : List Nat := (List.range n).map fun r => 2 ^ (r * w)

theorem roundWeights_succ (w n : Nat) :
    roundWeights w (n + 1) = 1 :: (roundWeights w n).map (2 ^ w * ·) := by
  rw [roundWeights, roundWeights, List.range_succ_eq_map, List.map_cons, List.map_map, List.map_map,
    Nat.zero_mul, pow_zero]
  refine congrArg _ (List.map_congr_left fun r _ => ?_)
  rw [Function.comp_apply, Function.comp_apply, ← pow_add, Nat.succ_mul, Nat.add_comm w]

theorem roundFold_cons (c : Config) (w : Nat) (r : Jac) (rs : List Jac) :
    roundFold c w (r :: rs) = jadd c (jdblTimes c w (roundFold c w rs)) r := by
  rw [roundFold, List.reverse_cons, List.foldl_append]
  rfl

/-- Horner's scheme in `2^w`. -/
theorem jacHolds_roundFold (h : FieldValid c) (w : Nat) {rs : List Jac}
    {Ps : List (curveOf c).Point} (hPs : List.Forall₂ (JacHolds c) rs Ps) :
    JacHolds c (roundFold c w rs) (weightedSum c (roundWeights w rs.length) Ps) := by
  induction hPs with
  | nil => exact jacHolds_jacZero h
  | cons hP _ ih =>
    rw [roundFold_cons, List.length_cons, roundWeights_succ, weightedSum_cons, weightedSum_map_mul,
      one_nsmul, add_comm]
    exact (ih.jdblTimes h w).jadd h hP

end Points

/-! ### The statements -/

/-- Settles O52: each level keeps every bucket's sum, and the last leaves at most one point. -/
theorem chainReduceSums : Obligations.ChainReduceSums := by
  intro c _ hodd ls Ps hc hPs
  have hsums : List.Forall₂ (SumsTo c) ls (Ps.map List.sum) :=
    List.forall₂_map_right_iff.2 (((List.forall₂_and_left ..).2 ⟨hc, hPs⟩).imp
      fun _ _ ⟨hl, hP⟩ => sumsTo_of_forall₂ (canonical_affsCoords.1 hl) hP)
  exact forall₂_affStandsFor_chainReduce (fieldValid_of_fact hodd) hsums

/-- Settles O54: the running sums of the sweep, and Horner's scheme. -/
theorem sweepAndFoldSums : Obligations.SweepAndFoldSums := by
  intro c _ hodd
  have h := fieldValid_of_fact hodd
  refine ⟨fun bs Ps hc hPs => ?sweep, fun w rs Ps hc hPs => ?fold⟩
  case sweep =>
    rw [hPs.length_eq]
    exact (jacHolds_bucketSum h (canonical_affsCoords.1 hc) hPs).2
  case fold =>
    have hholds : List.Forall₂ (JacHolds c) rs Ps :=
      (List.forall₂_and_left ..).2 ⟨canonical_jacsCoords.1 hc, hPs⟩
    exact (jacHolds_roundFold h w hholds).2

end Sys2Proof.Machine
end

section
/-! PROOFS. Both multi-exponentiations as sums in Mathlib's group (`45_multiexp.md`).  A round of the bucket
method sums every point times its digit; the digits of a scalar sum to the scalar, the GLV entries of a
point to its multiple, and the chunks to the whole list. -/

namespace Sys2Proof.Machine

/-! ### The buckets of a sorted round (rules R160, R177) -/

/-- The buckets before bucket `j + 1`, then that bucket, then the later ones. -/
theorem exists_sortedEntries_eq_append {nb j : Nat} (hj : j < nb) (es : List EntryWord) :
    ∃ later, sortedEntries nb es = sortedEntries j es ++ (bucketEntries es (j + 1) ++ later) := by
  induction nb, hj using Nat.le_induction with
  | base => exact ⟨[], by rw [sortedEntries_succ, List.append_nil]⟩
  | succ nb _ ih =>
    obtain ⟨later, hlater⟩ := ih
    exact ⟨later ++ bucketEntries es (nb + 1), by
      rw [sortedEntries_succ, hlater, List.append_assoc, List.append_assoc]⟩

/-- The offsets cut the sorted list into the buckets. -/
theorem bucketSlice_sortedEntries {nb j : Nat} (hj : j < nb) (es : List EntryWord) :
    bucketSlice (sortedEntries nb es) (bucketOffsets nb es) j = bucketEntries es (j + 1) := by
  obtain ⟨later, hlater⟩ := exists_sortedEntries_eq_append hj es
  rw [bucketSlice, bucketOffsets_getD hj.le, bucketOffsets_getD hj, hlater,
    List.drop_left' (sortedEntries_length j es), bucketOffset_succ, Nat.add_sub_cancel_left,
    List.take_left]

theorem bucketLists_sortedEntries (c : Config) (nb : Nat) (ps : List Aff) (es : List EntryWord) :
    bucketLists c nb ps (sortedEntries nb es) (bucketOffsets nb es) =
      (List.range nb).map fun j => (bucketEntries es (j + 1)).map (signedPoint c ps) :=
  List.map_congr_left fun j hj => by rw [bucketSlice_sortedEntries (List.mem_range.1 hj)]

/-! ### Lists -/

theorem forall₂_getD {α β : Type} {R : α → β → Prop} {l : List α} {l' : List β} {a : α} {b : β}
    (h : List.Forall₂ R l l') (hab : R a b) (i : Nat) : R (l.getD i a) (l'.getD i b) := by
  induction h generalizing i with
  | nil => exact hab
  | cons hxy _ ih =>
    cases i with
    | zero => exact hxy
    | succ i => exact ih i

theorem map_zipIdx_getD {α β γ : Type} (f : α → β → γ) {l : List α} {l' : List β}
    (hlen : l.length = l'.length) (b : β) :
    (l.zipIdx.map fun xi => f xi.1 (l'.getD xi.2 b)) = List.zipWith f l l' := by
  refine List.ext_getElem (by simp [hlen]) fun i hi _ => ?_
  have hi' : i < l'.length := by simpa [hlen] using hi
  simp [hi']

/-- The chunks of rule R192, put one after the other, are the list. -/
theorem flatten_chunksOf {α : Type} {size : Nat} (hsize : 0 < size) (n : Nat) (l : List α)
    (hn : l.length ≤ n) : (chunksOf size n l).flatten = l := by
  induction n generalizing l with
  | zero => exact (List.length_eq_zero_iff.1 (Nat.le_zero.1 hn)).symm
  | succ n ih =>
    cases l with
    | nil => rfl
    | cons x xs =>
      have hrest : ((x :: xs).drop size).length ≤ n := by
        rw [List.length_drop]
        omega
      rw [chunksOf, List.flatten_cons, ih _ hrest, List.take_append_drop]

theorem sum_chunks {α : Type} [AddMonoid α] {size : Nat} (hsize : 0 < size) (l : List α) :
    ((List.range (ceilDiv l.length size)).map fun j =>
      ((l.drop (j * size)).take size).sum).sum = l.sum := by
  have hflat := flatten_chunksOf hsize l.length l le_rfl
  rw [chunksOf_eq_map hsize _ _ le_rfl] at hflat
  conv_rhs => rw [← hflat, List.sum_flatten, List.map_map]
  rfl

/-! ### The entries of a round (rules R157 to R159) -/

theorem scheduleEntry_zero (i : Nat) : scheduleEntry i 0 = skipEntry := if_pos rfl

/-- The digit of a scalar that enters round `r` (rules R157, R158). -/
def digitAt (c : Config) (w m r k : Nat) : Int := (scalarDigits c w m k).getD r 0

theorem digitAt_bounds {c : Config} {w : Nat} (hw : 1 ≤ w) (m r k : Nat) :
    (digitAt c w m r k).natAbs ≤ bucketCount c w ∧ (digitAt c w m r k < 0 → c.signedDigits = true) := by
  unfold digitAt
  by_cases hr : r < (scalarDigits c w m k).length
  · rw [List.getD_eq_getElem _ _ hr]
    exact mem_scalarDigits hw (List.getElem_mem hr)
  · rw [List.getD_eq_default _ _ (not_lt.1 hr)]
    exact ⟨Nat.zero_le _, fun hlt => absurd hlt (lt_irrefl 0)⟩

/-- The entries of round `r`, in point order (rule R159). -/
def roundEntries (c : Config) (w m : Nat) (ks : List Nat) (r : Nat) : List EntryWord :=
  ks.zipIdx.map fun ki => scheduleEntry ki.2 (digitAt c w m r ki.1)

theorem scheduleRounds_eq_roundEntries (c : Config) (w m : Nat) (ks : List Nat) :
    scheduleRounds c w m ks = (List.range m).map (roundEntries c w m ks) := by
  refine List.map_congr_left fun r _ => ?_
  rw [List.zipIdx_map, List.map_map]
  rfl

theorem liveWithin_roundEntries {c : Config} {w : Nat} (hw : 1 ≤ w) (hw31 : w ≤ 31) {ks : List Nat}
    (hlen : ks.length ≤ 2 ^ 32) (m r : Nat) :
    LiveWithin (bucketCount c w) (roundEntries c w m ks r) := by
  refine List.forall_mem_map.2 fun ki hki hlive => ?_
  have hi : ki.2 < 2 ^ 32 := (List.snd_lt_of_mem_zipIdx hki).trans_le hlen
  obtain ⟨hmag, -⟩ := digitAt_bounds (c := c) hw m r ki.1
  have hd : digitAt c w m r ki.1 ≠ 0 := fun hd => hlive (if_pos hd)
  obtain ⟨hlt, -⟩ := bucketCount_lt (cfg := c) hw31
  obtain ⟨-, hbucket, -⟩ := scheduleEntry_fields hi hd (hmag.trans_lt hlt)
  rw [hbucket]
  exact ⟨Int.natAbs_pos.2 hd, hmag⟩

/-! ### The scalars and the width of a chunk task (rules R156, R193) -/

theorem taskInputs_length (c : Config) (pks : List (Aff × Nat)) :
    (taskInputs c pks).length = taskCount c pks.length := by
  unfold taskInputs taskCount
  split
  · exact glvExpand_length c pks
  · rfl

theorem taskCount_lt {c : Config} {n : Nat} (hn : n < 2 ^ 31) : taskCount c n < 2 ^ 32 := by
  unfold taskCount
  split
  · omega
  · omega

theorem taskWidth_bounds {c : Config} (hd : DispatchValid c) {n : Nat} (hn : n < 2 ^ 31) :
    1 ≤ taskWidth c n ∧ taskWidth c n ≤ 31 := by
  obtain ⟨hwidth, -⟩ := hd
  refine hwidth _ ?_
  have hlog := Nat.log_lt_of_lt_pow' (by norm_num) (taskCount_lt (c := c) hn)
  rw [Nat.log2_eq_log_two]
  omega

theorem glvFits_of_taskFault {c : Config} {pks : List (Aff × Nat)} (hfit : taskFault c pks = none)
    (hglv : c.glvEnabled = true) : ∀ pk ∈ pks, glvFits c pk.2 = true := by
  unfold taskFault at hfit
  split_ifs at hfit with _ hmisfit
  simpa [hglv] using hmisfit

/-- The scalars that enter scheduling are in the width that is scheduled. -/
theorem taskInputs_lt {c : Config} {pks : List (Aff × Nat)} (hfit : taskFault c pks = none)
    (hk : ∀ pk ∈ pks, pk.2 < 2 ^ (8 * c.scalarBytes)) :
    ∀ e ∈ taskInputs c pks, e.2 < 2 ^ taskBits c := by
  unfold taskInputs taskBits
  split
  · rename_i hglv
    refine List.forall_mem_flatMap.2 fun pk hpk => ?_
    obtain ⟨h1, h2⟩ := glvFits_iff.1 (glvFits_of_taskFault hfit hglv pk hpk)
    exact List.forall_mem_cons.2 ⟨h1, List.forall_mem_singleton.2 h2⟩
  · exact hk

section Points

variable {c : Config} [Fact c.modulus.Prime]

/-! ### The sum of one round (rule R193) -/

/-- The group element that an entry's signed point stands for (rule R175). -/
def entryElement (Ps : List (curveOf c).Point) (e : EntryWord) : (curveOf c).Point :=
  if entrySign e then -Ps.getD (pointIndex e) 0 else Ps.getD (pointIndex e) 0

theorem affStandsFor_signedPoint (h : FieldValid c) {ps : List Aff} {Ps : List (curveOf c).Point}
    (hc : ∀ p ∈ ps, Canonical c (affCoords p)) (hPs : List.Forall₂ (AffStandsFor c) ps Ps)
    (e : EntryWord) : AffStandsFor c (signedPoint c ps e) (entryElement Ps e) := by
  obtain ⟨hp, hP⟩ := forall₂_getD ((List.forall₂_and_left ..).2 ⟨hc, hPs⟩)
    ⟨canonical_affZero h, affStandsFor_affZero⟩ (pointIndex e)
  unfold signedPoint entryElement
  dsimp only
  split
  · exact affStandsFor_negAffine (canonical_affCoords.1 hp).2 hP
  · exact hP

theorem sumsTo_signedPoints (h : FieldValid c) {ps : List Aff} {Ps : List (curveOf c).Point}
    (hc : ∀ p ∈ ps, Canonical c (affCoords p)) (hPs : List.Forall₂ (AffStandsFor c) ps Ps)
    (es : List EntryWord) :
    SumsTo c (es.map (signedPoint c ps)) (es.map (entryElement Ps)).sum := by
  induction es with
  | nil => exact .nil
  | cons e es ih =>
    rw [List.map_cons, List.map_cons, List.sum_cons]
    exact .cons (canonical_signedPoint h hc e) (affStandsFor_signedPoint h hc hPs e) ih

/-- The element an entry adds to its round: its bucket's number times its point. -/
def entryMultiple (Ps : List (curveOf c).Point) (e : EntryWord) : (curveOf c).Point :=
  if e = skipEntry then 0 else bucketIndex e • entryElement Ps e

theorem weightedSum_map_range (f : Nat → Nat) (g : Nat → (curveOf c).Point) (n : Nat) :
    weightedSum c ((List.range n).map f) ((List.range n).map g) =
      ((List.range n).map fun i => f i • g i).sum := by
  rw [weightedSum, List.zipWith_map, List.zipWith_self]

/-- A bucket's number times its sum is the sum of its entries' multiples. -/
theorem sum_entryMultiple_bucketEntries (Ps : List (curveOf c).Point) (es : List EntryWord) (b : Nat) :
    ((bucketEntries es b).map (entryMultiple Ps)).sum =
      b • ((bucketEntries es b).map (entryElement Ps)).sum := by
  refine Eq.trans ?_ (map_list_sum (nsmulAddMonoidHom b) _).symm
  rw [List.map_map]
  refine congrArg _ (List.map_congr_left fun e he => ?_)
  obtain ⟨-, hlive, hb⟩ := mem_bucketEntries.1 he
  rw [entryMultiple, if_neg hlive, hb]
  rfl

/-- A `SKIP` adds nothing. -/
theorem sum_entryMultiple_live (Ps : List (curveOf c).Point) (es : List EntryWord) :
    ((es.filter fun e => e ≠ skipEntry).map (entryMultiple Ps)).sum =
      (es.map (entryMultiple Ps)).sum := by
  induction es with
  | nil => rfl
  | cons e es ih =>
    rw [List.filter_cons, List.map_cons, List.sum_cons, ← ih]
    split
    · rw [List.map_cons, List.sum_cons]
    · rename_i he
      rw [entryMultiple, if_pos (by simpa using he), zero_add]

/-- The weighted sum of the buckets is the sum over all entries, in whatever order. -/
theorem weightedSum_buckets {nb : Nat} {es : List EntryWord} (hlive : LiveWithin nb es)
    (Ps : List (curveOf c).Point) :
    weightedSum c (List.range' 1 nb)
        ((List.range nb).map fun j => ((bucketEntries es (j + 1)).map (entryElement Ps)).sum) =
      (es.map (entryMultiple Ps)).sum := by
  rw [← sum_entryMultiple_live, ← (hlive.sortedEntries_perm.map (entryMultiple Ps)).sum_eq, sortedEntries,
    List.map_flatMap, List.flatMap_def, List.sum_flatten, List.map_map, List.range'_eq_map_range,
    weightedSum_map_range]
  refine congrArg _ (List.map_congr_left fun j _ => ?_)
  rw [Function.comp_apply, sum_entryMultiple_bucketEntries, Nat.add_comm 1 j]

theorem jacHolds_roundSum (h : FieldValid c) (w : Nat) {ps : List Aff}
    {Ps : List (curveOf c).Point} (hc : ∀ p ∈ ps, Canonical c (affCoords p))
    (hPs : List.Forall₂ (AffStandsFor c) ps Ps) {es : List EntryWord}
    (hlive : LiveWithin (bucketCount c w) es) :
    JacHolds c (roundSum c w ps es) (es.map (entryMultiple Ps)).sum := by
  have hbuckets : List.Forall₂ (SumsTo c)
      ((List.range (bucketCount c w)).map fun j => (bucketEntries es (j + 1)).map (signedPoint c ps))
      ((List.range (bucketCount c w)).map fun j =>
        ((bucketEntries es (j + 1)).map (entryElement Ps)).sum) :=
    List.forall₂_map_left_iff.2 (List.forall₂_map_right_iff.2 (List.forall₂_same.2
      fun j _ => sumsTo_signedPoints h hc hPs _))
  have hsum := jacHolds_bucketSum h
    (canonical_chainReduce h (List.forall_mem_map.2 fun j _ =>
      List.forall_mem_map.2 fun e _ => canonical_signedPoint h hc e))
    (forall₂_affStandsFor_chainReduce h hbuckets)
  rw [List.length_map, List.length_range, weightedSum_buckets hlive] at hsum
  rw [roundSum, bucketLists_sortedEntries]
  exact hsum

/-! ### The bucket method (rules R182, R193) -/

/-- The entry of a digit adds the digit's multiple of its point to the round. -/
theorem entryMultiple_scheduleEntry {w i : Nat} {d : Int} (hw : w ≤ 31) (hi : i < 2 ^ 32)
    (hmag : d.natAbs ≤ bucketCount c w) (hneg : d < 0 → c.signedDigits = true)
    (Ps : List (curveOf c).Point) :
    entryMultiple Ps (scheduleEntry i d) = d • Ps.getD i 0 := by
  by_cases hd : d = 0
  · rw [hd, scheduleEntry_zero, entryMultiple, if_pos rfl, zero_zsmul]
  · obtain ⟨hlt, -⟩ := bucketCount_lt (cfg := c) hw
    obtain ⟨hpoint, hbucket, hsign⟩ := scheduleEntry_fields hi hd (hmag.trans_lt hlt)
    rw [entryMultiple, if_neg (scheduleEntry_ne_skipEntry hw hi hd hmag hneg), hbucket, entryElement,
      hpoint, hsign, ← natAbs_nsmul_signedElement, signedElement]
    simp only [decide_eq_true_iff]

/-- What round `r` sums: every point times the digit of its scalar. -/
def roundElement (c : Config) [Fact c.modulus.Prime] (w m : Nat) (ks : List Nat)
    (Ps : List (curveOf c).Point) (r : Nat) : (curveOf c).Point :=
  (List.zipWith (fun k P => digitAt c w m r k • P) ks Ps).sum

theorem sum_entryMultiple_roundEntries {w : Nat} (hw : 1 ≤ w) (hw31 : w ≤ 31) {ks : List Nat}
    {Ps : List (curveOf c).Point} (hlen : ks.length ≤ 2 ^ 32) (hPs : ks.length = Ps.length)
    (m r : Nat) : ((roundEntries c w m ks r).map (entryMultiple Ps)).sum =
      roundElement c w m ks Ps r := by
  rw [roundElement, ← map_zipIdx_getD _ hPs 0, roundEntries, List.map_map]
  refine congrArg _ (List.map_congr_left fun ki hki => ?_)
  obtain ⟨hmag, hneg⟩ := digitAt_bounds (c := c) hw m r ki.1
  exact entryMultiple_scheduleEntry hw31 ((List.snd_lt_of_mem_zipIdx hki).trans_le hlen) hmag hneg Ps

/-- The rounds, each times its power of `2^w`, put every scalar together from its digits. -/
theorem weightedSum_roundElements {w bits : Nat} (hw : 1 ≤ w) {ks : List Nat}
    (hks : ∀ k ∈ ks, k < 2 ^ bits) (Ps : List (curveOf c).Point) :
    weightedSum c (roundWeights w (roundCount c bits w))
        ((List.range (roundCount c bits w)).map (roundElement c w (roundCount c bits w) ks Ps)) =
      weightedSum c ks Ps := by
  rw [roundWeights, weightedSum_map_range]
  induction ks generalizing Ps with
  | nil => simp [roundElement, weightedSum]
  | cons k ks ih =>
    obtain ⟨hk, hks⟩ := List.forall_mem_cons.1 hks
    cases Ps with
    | nil => simp [roundElement, weightedSum]
    | cons P Ps =>
      have hdigits : ((List.range (roundCount c bits w)).map fun r =>
          2 ^ (r * w) • digitAt c w (roundCount c bits w) r k • P).sum = k • P := by
        have hsum := digitSum_scalarDigits (cfg := c) hw hk
        rw [digitSum, scalarDigits_length] at hsum
        rw [← natCast_zsmul P k, ← hsum]
        refine Eq.trans ?_ (map_list_sum (zmultiplesHom _ P) _).symm
        rw [List.map_map]
        refine congrArg _ (List.map_congr_left fun r _ => ?_)
        rw [Function.comp_apply, zmultiplesHom_apply, ← natCast_zsmul, ← mul_zsmul, mul_comm,
          Nat.cast_pow, Nat.cast_ofNat]
        rfl
      have hround : ∀ r, roundElement c w (roundCount c bits w) (k :: ks) (P :: Ps) r =
          digitAt c w (roundCount c bits w) r k • P +
            roundElement c w (roundCount c bits w) ks Ps r := fun r => List.sum_cons
      simp only [hround, nsmul_add, List.sum_map_add]
      rw [hdigits, ih hks, weightedSum_cons]

theorem jacHolds_bucketMethod (h : FieldValid c) {w bits : Nat} (hw : 1 ≤ w) (hw31 : w ≤ 31)
    {ps : List Aff} {ks : List Nat} {Ps : List (curveOf c).Point}
    (hc : ∀ p ∈ ps, Canonical c (affCoords p)) (hPs : List.Forall₂ (AffStandsFor c) ps Ps)
    (hks : ∀ k ∈ ks, k < 2 ^ bits) (hlen : ks.length ≤ 2 ^ 32) (hkPs : ks.length = Ps.length) :
    JacHolds c (bucketMethod c w bits ps ks) (weightedSum c ks Ps) := by
  have hrounds : List.Forall₂ (JacHolds c)
      ((scheduleRounds c w (roundCount c bits w) ks).map (roundSum c w ps))
      ((List.range (roundCount c bits w)).map
        (roundElement c w (roundCount c bits w) ks Ps)) := by
    rw [scheduleRounds_eq_roundEntries, List.map_map]
    refine List.forall₂_map_left_iff.2 (List.forall₂_map_right_iff.2 (List.forall₂_same.2
      fun r _ => ?_))
    rw [← sum_entryMultiple_roundEntries hw hw31 hlen hkPs]
    exact jacHolds_roundSum h w hc hPs (liveWithin_roundEntries hw hw31 hlen _ r)
  have hfold := jacHolds_roundFold h w hrounds
  rwa [List.length_map, scheduleRounds_length, weightedSum_roundElements hw hks] at hfold

/-! ### Chunk tasks (rules R192 to R196) -/

/-- What the points of a multi-exponentiation, or of one of its chunks, are: canonical points of the
curve with scalars in range, and where GLV is on, points of rule R141. -/
structure TaskPoints (c : Config) [Fact c.modulus.Prime] (pks : List (Aff × Nat))
    (Ps : List (curveOf c).Point) : Prop where
  canonical : ∀ pk ∈ pks, Canonical c (affCoords pk.1)
  scalars : ∀ pk ∈ pks, pk.2 < 2 ^ (8 * c.scalarBytes)
  stands : List.Forall₂ (fun pk P => AffStandsFor c pk.1 P) pks Ps
  glv : c.glvEnabled = true → LatticeValid c ∧ List.Forall₂ (fun pk P => GlvPoint c pk.1 P) pks Ps

/-- The elements of chunk `j` (rule R192). -/
def chunkPoints (c : Config) (n : Nat) (Ps : List (curveOf c).Point) (j : Nat) :
    List (curveOf c).Point := (Ps.drop (j * chunkSize c n)).take (chunkSize c n)

theorem TaskPoints.chunk {pks : List (Aff × Nat)} {Ps : List (curveOf c).Point}
    (hpoints : TaskPoints c pks Ps) (j : Nat) :
    TaskPoints c (chunkAt c pks j) (chunkPoints c pks.length Ps j) where
  canonical pk hpk := hpoints.canonical pk (mem_of_mem_chunkAt hpk)
  scalars pk hpk := hpoints.scalars pk (mem_of_mem_chunkAt hpk)
  stands := List.forall₂_take _ (List.forall₂_drop _ hpoints.stands)
  glv hglv := (hpoints.glv hglv).imp_right fun hglvPoints =>
    List.forall₂_take _ (List.forall₂_drop _ hglvPoints)

/-- What enters scheduling stands for group elements of the same weighted sum (rules R146, R193). -/
theorem TaskPoints.exists_taskInputs_points {pks : List (Aff × Nat)} {Ps : List (curveOf c).Point}
    (hpoints : TaskPoints c pks Ps) : ∃ Qs : List (curveOf c).Point,
      List.Forall₂ (fun e Q => AffStandsFor c e.1 Q) (taskInputs c pks) Qs ∧
      weightedSum c ((taskInputs c pks).map Prod.snd) Qs = weightedSum c (pks.map Prod.snd) Ps := by
  unfold taskInputs
  split
  · rename_i hglv
    obtain ⟨hl, hglvPoints⟩ := hpoints.glv hglv
    exact exists_glvExpand_points hl hpoints.canonical hglvPoints
  · exact ⟨Ps, hpoints.stands, rfl⟩

theorem TaskPoints.jacHolds_taskSum (h : FieldValid c) (hd : DispatchValid c)
    {pks : List (Aff × Nat)} {Ps : List (curveOf c).Point} (hpoints : TaskPoints c pks Ps)
    (hlen : pks.length < 2 ^ 31) (hfit : taskFault c pks = none) :
    JacHolds c (taskSum c pks) (weightedSum c (pks.map Prod.snd) Ps) := by
  obtain ⟨Qs, hQs, hsum⟩ := hpoints.exists_taskInputs_points
  obtain ⟨hw, hw31⟩ := taskWidth_bounds hd hlen
  have hcount : ((taskInputs c pks).map Prod.snd).length ≤ 2 ^ 32 := by
    rw [List.length_map, taskInputs_length]
    exact (taskCount_lt hlen).le
  rw [← hsum]
  exact jacHolds_bucketMethod h hw hw31
    (List.forall_mem_map.2 (canonical_taskInputs h hpoints.canonical))
    (List.forall₂_map_left_iff.2 hQs) (List.forall_mem_map.2 (taskInputs_lt hfit hpoints.scalars))
    hcount (by rw [List.length_map, hQs.length_eq])

/-! ### The folds (rules R194, R197) -/

theorem JacHolds.foldl_jadd (h : FieldValid c) {rs : List Jac} {Ps : List (curveOf c).Point}
    (hPs : List.Forall₂ (JacHolds c) rs Ps) {acc : Jac} {A : (curveOf c).Point}
    (hacc : JacHolds c acc A) : JacHolds c (rs.foldl (Machine.jadd c) acc) (A + Ps.sum) := by
  induction hPs generalizing acc A with
  | nil => rwa [List.sum_nil, add_zero]
  | cons hP _ ih =>
    rw [List.sum_cons, ← add_assoc]
    exact ih (hacc.jadd h hP)

theorem jacHolds_foldChunks (h : FieldValid c) {rs : List Jac} {Ps : List (curveOf c).Point}
    (hPs : List.Forall₂ (JacHolds c) rs Ps) : JacHolds c (foldChunks c rs) Ps.sum :=
  zero_add Ps.sum ▸ (jacHolds_jacZero h).foldl_jadd h hPs

/-- The chunks' weighted sums are together that of the whole list. -/
theorem sum_chunk_weightedSums (hd : DispatchValid c)
    {pks : List (Aff × Nat)} {Ps : List (curveOf c).Point} (hlen : pks.length = Ps.length) :
    ((List.range (chunkCount c pks.length)).map fun j =>
      weightedSum c ((chunkAt c pks j).map Prod.snd) (chunkPoints c pks.length Ps j)).sum =
        weightedSum c (pks.map Prod.snd) Ps := by
  have hsum := sum_chunks (chunkSize_pos hd pks.length)
    (List.zipWith (fun k P => k • P) (pks.map Prod.snd) Ps)
  rw [List.length_zipWith, List.length_map, ← hlen, Nat.min_self] at hsum
  refine Eq.trans (congrArg _ (List.map_congr_left fun j _ => ?_)) hsum
  rw [weightedSum, chunkAt, chunkPoints, List.map_take, List.map_drop, ← List.take_zipWith,
    ← List.drop_zipWith]

theorem TaskPoints.jacHolds_multiExp (h : FieldValid c) (hd : DispatchValid c)
    {pks : List (Aff × Nat)} {Ps : List (curveOf c).Point} (hpoints : TaskPoints c pks Ps)
    (hlen : pks.length < 2 ^ 31) (hfit : TasksFit c pks) :
    JacHolds c (foldChunks c (chunkSums c pks)) (weightedSum c (pks.map Prod.snd) Ps) := by
  rw [← sum_chunk_weightedSums hd hpoints.stands.length_eq]
  refine jacHolds_foldChunks h (List.forall₂_map_left_iff.2 (List.forall₂_map_right_iff.2
    (List.forall₂_same.2 fun j hj => ?_)))
  have hshort : (chunkAt c pks j).length ≤ pks.length :=
    ((List.take_sublist _ _).trans (List.drop_sublist _ _)).length_le
  exact (hpoints.chunk j).jacHolds_taskSum h hd (hshort.trans_lt hlen) (hfit j (List.mem_range.1 hj))

theorem JacHolds.jmul (hodd : c.modulus % 2 = 1) {p : Jac} {P : (curveOf c).Point} {k : Nat}
    (hP : JacHolds c p P) (hk : k < 2 ^ (8 * c.scalarBytes)) : JacHolds c (jmul c p k) (k • P) :=
  ⟨canonical_jmul (fieldValid_of_fact hodd) hP.1 k, scalarMultipleLoop c hodd p P k hP.1 hP.2 hk⟩

/-- The naive loop adds up the multiples one by one. -/
theorem jacHolds_naiveMultiExp (hodd : c.modulus % 2 = 1) {pks : List (Aff × Nat)}
    {Ps : List (curveOf c).Point} (hc : ∀ pk ∈ pks, Canonical c (affCoords pk.1))
    (hk : ∀ pk ∈ pks, pk.2 < 2 ^ (8 * c.scalarBytes))
    (hPs : List.Forall₂ (fun pk P => AffStandsFor c pk.1 P) pks Ps) :
    JacHolds c (naiveMultiExp c pks) (weightedSum c (pks.map Prod.snd) Ps) := by
  have h := fieldValid_of_fact hodd
  have hmultiples : List.Forall₂ (JacHolds c)
      (pks.map fun pk => Machine.jmul c (toJac c pk.1) pk.2)
      (List.zipWith (fun k P => k • P) (pks.map Prod.snd) Ps) := by
    induction hPs with
    | nil => exact .nil
    | cons hP _ ih =>
      obtain ⟨hp, hc⟩ := List.forall_mem_cons.1 hc
      obtain ⟨hlt, hk⟩ := List.forall_mem_cons.1 hk
      exact .cons ((jacHolds_toJac h hp hP).jmul hodd hlt) (ih hc hk)
  have hfold := jacHolds_foldChunks h hmultiples
  rwa [foldChunks, List.foldl_map] at hfold

end Points

/-! ### The statement -/

/-- Settles O59: the naive loop multiple by multiple, the bucket method chunk by chunk. -/
theorem multiExpIsSum : Obligations.MultiExpIsSum := by
  intro c _ hodd pks Ps hc hk hPs
  have h := fieldValid_of_fact hodd
  have hcanonical : ∀ pk ∈ pks, Canonical c (affCoords pk.1) :=
    fun pk hpk => canonical_affsCoords.1 hc _ (List.mem_map_of_mem hpk)
  refine ⟨(jacHolds_naiveMultiExp hodd hcanonical hk hPs).2, fun hd hlen hglv hfit => ?_⟩
  have hpoints : TaskPoints c pks Ps := ⟨hcanonical, hk, hPs, hglv⟩
  exact ⟨_, multiExp_eq_ok hd hfit, (hpoints.jacHolds_multiExp h hd hlen hfit).2⟩

end Sys2Proof.Machine
end

section
/-! PROOFS. `CHAIN` (rule R177): past its static checks the offset table is read, then the entries it names, then
the points; each check says of the lists read what the statement says of memory. -/

namespace Sys2Proof.Machine

/-! ### Arrays read -/

theorem arrayAt_getD {α : Type} (read : Nat → α) (a size : Nat) {n i : Nat} (hi : i < n) (d : α) :
    (arrayAt read a size n).getD i d = read (a + i * size) := by
  rw [List.getD_eq_getElem _ _ (by rwa [arrayAt_length])]
  simp only [arrayAt, List.getElem_map, List.getElem_range]

/-- The part of an array from `i` on, of `m` objects. -/
theorem take_drop_arrayAt {α : Type} (read : Nat → α) (a size : Nat) {n i m : Nat} (h : i + m ≤ n) :
    ((arrayAt read a size n).drop i).take m = (List.range m).map fun j => read (a + (i + j) * size) :=
  List.ext_getElem (by simp; omega) fun j _ _ => by simp [arrayAt]

/-! ### The offset table and the buckets it cuts (rule R177) -/

/-- `off[b]` of the table at `os`. -/
def offsetAt (s : State) (os : Word) (b : Nat) : Nat := countAt s (os.toNat + b * 4)

/-- The entries of bucket `b + 1` of the list at `ss`. -/
def bucketAt (s : State) (ss os : Word) (b : Nat) : List EntryWord :=
  (List.range (offsetAt s os (b + 1) - offsetAt s os b)).map fun j =>
    entryAt s (ss.toNat + (offsetAt s os b + j) * 8)

/-- The signed point an entry names (rule R175), for the points at `ps`. -/
def signedPointAt (s : State) (ps : Word) (e : EntryWord) : Aff :=
  if entrySign e then negAffine s.cfg (affAt s (ps.toNat + pointIndex e * (2 * n8 s.cfg)))
  else affAt s (ps.toNat + pointIndex e * (2 * n8 s.cfg))

theorem countsAt_getD {s : State} {os : Word} {nb b : Nat} (hb : b ≤ nb) :
    (countsAt s os (nb + 1)).getD b 0 = offsetAt s os b :=
  arrayAt_getD _ _ _ (Nat.lt_succ_of_le hb) 0

theorem offsetsOk_iff {s : State} {os : Word} {nb : Nat} :
    offsetsOk (countsAt s os (nb + 1)) = true ↔
      offsetAt s os 0 = 0 ∧ ∀ b, b < nb → offsetAt s os b ≤ offsetAt s os (b + 1) := by
  rw [offsetsOk, Bool.and_eq_true, decide_eq_true_iff, countsAt_getD (Nat.zero_le nb),
    List.all_eq_true, countsAt, arrayAt_length, Nat.add_sub_cancel]
  refine and_congr_right fun _ => forall_congr' fun b => ?_
  rw [List.mem_range]
  refine imp_congr_right fun hb => ?_
  rw [decide_eq_true_iff, ← countsAt, countsAt_getD hb.le, countsAt_getD hb]

theorem not_offsetsOk_iff {s : State} {os : Word} {nb : Nat} :
    ¬offsetsOk (countsAt s os (nb + 1)) = true ↔
      offsetAt s os 0 ≠ 0 ∨ ∃ b, b < nb ∧ offsetAt s os (b + 1) < offsetAt s os b := by
  rw [offsetsOk_iff, not_and_or]
  push Not
  rfl

theorem not_inRange_iff {cfg : Config} {a : Word} {count size : Nat} :
    ¬InRange cfg a count size ↔ count ≠ 0 ∧ cfg.memSize < a.toNat + count * size := by
  rw [InRange, not_or, not_le]

/-- In a table that never decreases, the last offset is the greatest. -/
theorem offsetAt_le_last {s : State} {os : Word} {nb b : Nat}
    (hmono : ∀ b, b < nb → offsetAt s os b ≤ offsetAt s os (b + 1)) (hb : b ≤ nb) :
    offsetAt s os b ≤ offsetAt s os nb := by
  induction nb, hb using Nat.le_induction with
  | base => exact le_rfl
  | succ nb _ ih =>
    exact (ih fun j hj => hmono j (hj.trans (Nat.lt_succ_self nb))).trans
      (hmono nb (Nat.lt_succ_self nb))

theorem bucketSlice_entriesAt {s : State} {ss os : Word} {nb b : Nat}
    (hmono : ∀ b, b < nb → offsetAt s os b ≤ offsetAt s os (b + 1)) (hb : b < nb) :
    bucketSlice (entriesAt s ss (offsetAt s os nb)) (countsAt s os (nb + 1)) b =
      bucketAt s ss os b := by
  have hstep := hmono b hb
  have hlast : offsetAt s os (b + 1) ≤ offsetAt s os nb := offsetAt_le_last hmono hb
  rw [bucketSlice, countsAt_getD hb.le, countsAt_getD (b := b + 1) hb, entriesAt,
    take_drop_arrayAt _ _ _ (by omega), bucketAt]

theorem sortedOk_iff {s : State} {ss os : Word} {nb n : Nat}
    (hmono : ∀ b, b < nb → offsetAt s os b ≤ offsetAt s os (b + 1)) :
    sortedOk nb n (entriesAt s ss (offsetAt s os nb)) (countsAt s os (nb + 1)) = true ↔
      ∀ b, b < nb → ∀ e ∈ bucketAt s ss os b,
        e ≠ skipEntry ∧ bucketIndex e = b + 1 ∧ pointIndex e < n := by
  rw [sortedOk, List.all_eq_true]
  refine forall_congr' fun b => ?_
  rw [List.mem_range]
  refine imp_congr_right fun hb => ?_
  rw [bucketSlice_entriesAt hmono hb]
  simp only [List.all_eq_true, Bool.and_eq_true, decide_eq_true_iff, and_assoc]

theorem not_sortedOk_iff {s : State} {ss os : Word} {nb n : Nat}
    (hmono : ∀ b, b < nb → offsetAt s os b ≤ offsetAt s os (b + 1)) :
    ¬sortedOk nb n (entriesAt s ss (offsetAt s os nb)) (countsAt s os (nb + 1)) = true ↔
      ∃ b, b < nb ∧ ∃ e ∈ bucketAt s ss os b,
        e = skipEntry ∨ bucketIndex e ≠ b + 1 ∨ n ≤ pointIndex e := by
  rw [sortedOk_iff hmono]
  simp only [not_forall, not_and_or, not_not, not_lt, exists_prop, ne_eq]

theorem signedPoint_affsAt {s : State} {ps : Word} {n : Nat} {e : EntryWord} (he : pointIndex e < n) :
    signedPoint s.cfg (affsAt s ps n) e = signedPointAt s ps e := by
  rw [signedPoint, affsAt, arrayAt_getD _ _ _ he]
  rfl

theorem bucketLists_entriesAt {s : State} {ss os ps : Word} {nb n : Nat}
    (hmono : ∀ b, b < nb → offsetAt s os b ≤ offsetAt s os (b + 1))
    (hpoints : ∀ b, b < nb → ∀ e ∈ bucketAt s ss os b, pointIndex e < n) :
    bucketLists s.cfg nb (affsAt s ps n) (entriesAt s ss (offsetAt s os nb)) (countsAt s os (nb + 1)) =
      (List.range nb).map fun b => (bucketAt s ss os b).map (signedPointAt s ps) := by
  refine List.map_congr_left fun b hb => ?_
  have hb := List.mem_range.1 hb
  rw [bucketSlice_entriesAt hmono hb]
  exact List.map_congr_left fun e he => signedPoint_affsAt (hpoints b hb e he)

/-! ### The statement -/

/-- An admitted `CHAIN` goes on to the checks of what it reads. -/
theorem exec_chain {s : State} {grp : Byte} {dstB ss os ps n c : Word} {nb : Nat}
    (hadm : Admitted s.cfg (.chain grp dstB ss os ps n c)) (hnb : nb = bucketCount s.cfg c.toNat) :
    exec (.chain grp dstB ss os ps n c) s = runCommand 0x42#8 s
      (check (offsetsOk (countsAt s os (nb + 1)) = true) .badEntry <|
        check (InRange s.cfg ss (offsetAt s os nb) 8) .outOfRange <|
        check (sortedOk nb n.toNat (entriesAt s ss (offsetAt s os nb)) (countsAt s os (nb + 1)) = true)
          .badEntry <|
        checkCanonical s.cfg (affsCoords (affsAt s ps n.toNat)) <|
        .ok (storeAffs s dstB (chainReduce s.cfg (bucketLists s.cfg nb (affsAt s ps n.toNat)
          (entriesAt s ss (offsetAt s os nb)) (countsAt s os (nb + 1)))))) := by
  subst hnb
  rw [← countsAt_getD (s := s) (os := os) le_rfl]
  exact exec_of_admitted hadm rfl

/-- Settles O51: the checks in their order, each read off its list. -/
theorem chainResult : Obligations.ChainResult := by
  intro s grp dstB ss os ps n c hadm i nb off entry bucket
  have hexec := exec_chain hadm (nb := nb) rfl
  split
  · rename_i htable
    exact hexec.trans (congrArg (runCommand _ s) (check_neg (not_offsetsOk_iff.2 htable)))
  rename_i htable
  have htable := not_imp_comm.1 not_offsetsOk_iff.1 htable
  obtain ⟨-, hmono⟩ := offsetsOk_iff.1 htable
  rw [check_pos htable] at hexec
  split
  · rename_i hrange
    exact hexec.trans (congrArg (runCommand _ s) (check_neg (not_inRange_iff.2 hrange)))
  rename_i hrange
  have hin : InRange s.cfg ss (offsetAt s os nb) 8 := not_imp_comm.1 not_inRange_iff.1 hrange
  rw [check_pos hin] at hexec
  split
  · rename_i hentries
    exact hexec.trans (congrArg (runCommand _ s) (check_neg ((not_sortedOk_iff hmono).2 hentries)))
  rename_i hentries
  have hsorted := not_imp_comm.1 (not_sortedOk_iff hmono).1 hentries
  have hpoints : ∀ b, b < nb → ∀ e ∈ bucketAt s ss os b, pointIndex e < n.toNat := fun b hb e he =>
    let ⟨_, _, hpoint⟩ := (sortedOk_iff hmono).1 hsorted b hb e he
    hpoint
  rw [check_pos hsorted, bucketLists_entriesAt hmono hpoints] at hexec
  split
  · rename_i hcanonical
    exact hexec.trans (congrArg (runCommand _ s) (check_neg hcanonical))
  · rename_i hcanonical
    exact hexec.trans (congrArg (runCommand _ s) (check_pos (not_not.1 hcanonical)))

end Sys2Proof.Machine
end

section
/-! PROOFS. The faults of the multi-exponentiations (`45_multiexp.md`): the entry checks that both commands share,
and the faults of chunk tasks, of which the one of the lowest index is reported. -/

namespace Sys2Proof.Machine

/-! ### The entry checks (rules R190, R197) -/

/-- Both commands begin with the shared entry checks, and differ only in what follows them. -/
theorem exec_eq_checkEntry {i : Instr} {grp : Byte} {dst ps psLen ks ksLen n : Word}
    (hi : i = .mexp grp dst ps psLen ks ksLen n ∨ i = .mexpn grp dst ps psLen ks ksLen n) (s : State) :
    ∃ k, exec i s = runCommand i.opcode s (checkEntry grp dst ps psLen ks ksLen n s k) := by
  rcases hi with rfl | rfl
  · exact ⟨_, rfl⟩
  · exact ⟨_, rfl⟩

theorem faults_of_checkEntry {i : Instr} {grp : Byte} {dst ps psLen ks ksLen n : Word} {s : State}
    {c : Cause}
    (hi : i = .mexp grp dst ps psLen ks ksLen n ∨ i = .mexpn grp dst ps psLen ks ksLen n)
    (h : ∀ k, checkEntry grp dst ps psLen ks ksLen n s k = .error c) : Faults i s c := by
  obtain ⟨k, hk⟩ := exec_eq_checkEntry hi s
  rw [Faults, hk, h, runCommand]

/-- Settles O56: past the static checks, the first of the entry checks that fails names the fault. -/
theorem mexpEntryFaults : Obligations.MexpEntryFaults := by
  intro s grp dst ps psLen ks ksLen n i hi hadm
  have hentry := checkEntry_of_admitted hi hadm
  refine ⟨fun hlengths => ?lengths,
    fun hps hks => ⟨fun hcounts => ?counts, fun hpsn hksn hpoints => ?points⟩⟩
  case lengths =>
    exact faults_of_checkEntry hi fun k => by
      rw [hentry, check_neg (not_and_or.2 hlengths)]
  case counts =>
    exact faults_of_checkEntry hi fun k => by
      rw [hentry, check_pos ⟨hps, hks⟩, check_neg (not_and_or.2 hcounts)]
  case points =>
    exact faults_of_checkEntry hi fun k => by
      rw [hentry, check_pos ⟨hps, hks⟩, check_pos ⟨hpsn, hksn⟩, checkCanonical, check_neg hpoints]

/-! ### The failing chunk of the lowest index (rules R193, R196) -/

/-- Tasks that raise nothing let the fault of the next task through, whatever the tasks after it do. -/
theorem runTasks_append_eq_error {c : Config} {ts us : List (List (Aff × Nat))}
    {t : List (Aff × Nat)} {e : Cause} (hts : ∀ t ∈ ts, taskFault c t = none)
    (ht : taskFault c t = some e) : runTasks c (ts ++ t :: us) = .error e := by
  induction ts with
  | nil =>
    rw [List.nil_append, runTasks, chunkTask_eq, ht]
    rfl
  | cons u ts ih =>
    obtain ⟨hu, hts⟩ := List.forall_mem_cons.1 hts
    rw [List.cons_append, runTasks, chunkTask_eq, hu, ih hts]
    rfl

/-- A list indexed by a range, cut at one index. -/
theorem exists_map_range_eq_append {α : Type} (f : Nat → α) {j m : Nat} (hj : j < m) :
    ∃ us, (List.range m).map f = (List.range j).map f ++ f j :: us := by
  obtain ⟨d, rfl⟩ := Nat.exists_eq_add_of_lt hj
  refine ⟨(List.range d).map fun i => f (j + (i + 1)), ?_⟩
  rw [Nat.add_assoc, List.range_add, List.range_succ_eq_map, List.map_append, List.map_map,
    List.map_cons, List.map_map]
  rfl

theorem multiExp_eq_error {c : Config} (hd : DispatchValid c) {pks : List (Aff × Nat)} {j : Nat}
    {e : Cause} (hj : j < chunkCount c pks.length) (hfault : taskFault c (chunkAt c pks j) = some e)
    (hbefore : ∀ j', j' < j → taskFault c (chunkAt c pks j') = none) :
    multiExp c pks = .error e := by
  obtain ⟨us, hcut⟩ := exists_map_range_eq_append (chunkAt c pks) hj
  have hts : ∀ t ∈ (List.range j).map (chunkAt c pks), taskFault c t = none :=
    List.forall_mem_map.2 fun j' hj' => hbefore j' (List.mem_range.1 hj')
  rw [multiExp, chunksOf_eq_chunkAt hd, hcut, runTasks_append_eq_error hts hfault]

/-- Settles O57: the call passes its entry checks, and the first chunk task to fail names the fault. -/
theorem mexpTaskFaults : Obligations.MexpTaskFaults := by
  intro s grp dst ps psLen ks ksLen n hd hn8 hadm hps hks hc j c hj hfault hbefore
  obtain ⟨-, -, -, -, hbytes, -⟩ := id hd
  have htasks : multiExp s.cfg (pointScalars s ps ks n.toNat) = .error c :=
    multiExp_eq_error hd (by rwa [pointScalars_length]) hfault hbefore
  refine (congrArg (runCommand _ s) (checkEntry_pos (.inl rfl) hadm hn8 hbytes hps hks hc _)).trans ?_
  rw [htasks]
  rfl

end Sys2Proof.Machine
end

section
/-! PROOFS. The refusal of descriptors while faulted, and what the fault entry leaves in the register port
(`60_exceptions.md`). -/

namespace Sys2Proof.Machine

/-! ### The refusal while faulted (rule R220) -/

theorem issue_of_faulted {d : Descriptor} {s : State} (hf : faulted s = true) :
    issue d s = .next s := if_pos hf

/-- Settles O7: an idle block takes the descriptor, and a faulted one drops it before decoding it. -/
theorem faultedRefusesCommands : Obligations.FaultedRefusesCommands := by
  intro s d rest hs hb hf
  have hf' : faulted (hostAdvanced s rest) = true := hf
  rw [step_issue hs hb, issue_of_faulted hf']

/-! ### The register port after the fault entry (rules R23 to R25, R211) -/

/-- The error word is cut into its fields: reserved bits, opcode, code (rule R24). -/
theorem errorWord_eq_append (code op : Byte) :
    BitVec.ofNat 32 (code.toNat + 256 * op.toNat) = 0#16 ++ (op ++ code) := by
  apply BitVec.eq_of_toNat_eq
  rw [BitVec.toNat_append, BitVec.toNat_append, ← Nat.shiftLeft_add_eq_or_of_lt code.isLt]
  simp only [BitVec.toNat_ofNat, Nat.zero_mod, Nat.shiftLeft_eq, Nat.zero_mul, Nat.zero_or]
  omega

theorem readPort_raiseFault_status (s : State) (c : Cause) (op : Byte) :
    readPort (raiseFault s c op) 0 = 2#32 := by
  rw [readPort, raiseFault_status]
  rfl

/-- The port's mask keeps all of the error word, whose upper half is 0 already. -/
theorem readPort_raiseFault_err (s : State) (c : Cause) (op : Byte) :
    readPort (raiseFault s c op) 1 = 0#16 ++ (op ++ causeCode c) := by
  have hmask : 0xFFFF#32 = 0#16 ++ BitVec.allOnes 16 := rfl
  rw [readPort, raiseFault_err, errorWord_eq_append, hmask, BitVec.and_append, BitVec.and_allOnes,
    BitVec.and_self]

theorem readPort_of_two_lt (s : State) {n : Nat} (hn : 2 < n) : readPort s n = 0 := by
  obtain ⟨k, rfl⟩ := Nat.exists_eq_add_of_le' hn
  rfl

/-- Settles O15: the error word is cut at its fields, and each cause's code begins with its kind. -/
theorem faultEntry : Obligations.FaultEntry := by
  intro s c op t
  have herr : readPort t 1 = 0#16 ++ (op ++ causeCode c) := readPort_raiseFault_err s c op
  refine ⟨readPort_raiseFault_status s c op, ?code, ?opcode, ?reserved, ?kind, rfl,
    fun _ => readPort_of_two_lt t, rfl⟩
  case code =>
    rw [herr, BitVec.extractLsb'_append_eq_of_add_le (by decide), BitVec.extractLsb'_append_eq_right]
  case opcode =>
    rw [herr, BitVec.extractLsb'_append_eq_of_add_le (by decide), BitVec.extractLsb'_append_eq_left]
  case reserved =>
    rw [herr]
    exact BitVec.extractLsb'_append_eq_left
  case kind =>
    rw [herr, BitVec.extractLsb'_append_eq_of_add_le (by decide),
      BitVec.extractLsb'_append_eq_of_add_le (by decide)]
    cases c <;> rfl

end Sys2Proof.Machine
end

section
/-! PROOFS. The reset move (`70_reset_and_hazards.md`): it is heeded in every state, and a canonical memory below
`MEM_SIZE`, offered as the contents of reset, is rebuilt as it is: its cells come in rising order, so each write
of a byte appends its cell. -/

namespace Sys2Proof.Machine

/-! ### The memory after reset (rule R241) -/

theorem insertCell_of_forall_lt {m : Memory} {a : Nat} (v : Byte) (h : ∀ c ∈ m, c.1 < a) :
    insertCell m a v = m ++ [(a, v)] := by
  induction m with
  | nil => rfl
  | cons d m ih =>
    obtain ⟨hd, hm⟩ := List.forall_mem_cons.1 h
    rw [insertCell, if_neg hd.not_gt, ih hm, List.cons_append]

/-- A byte written above all listed addresses is listed last. -/
theorem writeByte_of_forall_lt {m : Memory} {a : Nat} {v : Byte} (h : ∀ c ∈ m, c.1 < a)
    (hv : v ≠ unwrittenByte) : writeByte m a v = m ++ [(a, v)] := by
  have hkeep : (m.filter fun c => decide (c.1 ≠ a)) = m :=
    List.filter_eq_self.2 fun c hc => decide_eq_true (h c hc).ne
  rw [writeByte, hkeep, if_neg hv, insertCell_of_forall_lt v h]

theorem memoryOf_append_singleton {limit : Nat} {c : Host.Cell} (hc : c.1 < limit)
    (cells : List Host.Cell) :
    memoryOf limit (cells ++ [c]) = writeByte (memoryOf limit cells) c.1 c.2 := by
  rw [memoryOf, List.foldl_append, List.foldl_cons, List.foldl_nil, if_pos hc, memoryOf]

/-- A memory in canonical form and below the limit is made from its own cells. -/
theorem memoryOf_self {limit : Nat} {m : Memory} (h : MemoryBelow limit m) :
    memoryOf limit m = m := by
  induction m using List.reverseRecOn with
  | nil => rfl
  | append_singleton m c ih =>
    obtain ⟨⟨hsorted, hlisted⟩, hbelow⟩ := h
    obtain ⟨hsorted, -, hlast⟩ := List.pairwise_append.1 hsorted
    obtain ⟨hlisted, hc⟩ := List.forall_mem_append.1 hlisted
    obtain ⟨hbelow, hlimit⟩ := List.forall_mem_append.1 hbelow
    have hc_mem : c ∈ [c] := List.mem_singleton_self c
    rw [memoryOf_append_singleton (hlimit c hc_mem), ih ⟨⟨hsorted, hlisted⟩, hbelow⟩]
    exact writeByte_of_forall_lt (fun d hd => hlast d hd c hc_mem) (hc c hc_mem)

/-! ### The reset move (rule R240) -/

/-- A step that finds reset waiting resets the block, busy or faulted as it may be. -/
theorem step_reset {s : State} {contents : List Host.Cell} {rest : List HostMove}
    (hs : s.host = .reset contents :: rest) :
    step s = .next (resetMachine (hostAdvanced s rest) contents) := step_of_host hs

/-- Settles O9: the reset state is read off field by field, and every memory is the contents that rebuild it. -/
theorem resetMoveClears : Obligations.ResetMoveClears := by
  intro s rest
  refine ⟨fun contents hs => ?clears, fun m hwf hbelow => ?anyMemory⟩
  case clears =>
    exact ⟨_, step_reset hs, rfl, rfl, rfl, rfl, rfl, idleWorkers_length _, fun _ => idleWorkers_ap⟩
  case anyMemory =>
    exact ⟨m, _, step_reset rfl, memoryOf_self ⟨hwf, hbelow⟩⟩

end Sys2Proof.Machine
end
